-- ==== Sys2Proof/Word.lean ====
section
/-! DEFINITION. The word types of the command port (30_encoding.md R80, 20_memory.md R62). -/

namespace Sys2Proof

/-- A 64-bit word: an operand, a result or a register that holds a binary64 (20 R62). -/
abbrev Word := BitVec 64

/-- A 32-bit command word (30 R80, R81). -/
abbrev CmdWord := BitVec 32

end Sys2Proof
end

