-- ==== Sys2Proof/Syntax.lean ====
section
/-! DEFINITION. The commands of JSI-CORE: one constructor per row of `spec/opcode_table.json` (30_encoding.md R86). -/

namespace Sys2Proof

/-- Phase mode (10_state.md R20 register 7, R28): MIN is the half-band cascade (code 0), LIN the Resampler (code 1). -/
inductive Phase
  | min
  | lin
deriving DecidableEq, Repr, Inhabited

/-- Envelope mode (10_state.md R20 register 10, R30): peak is code 0, RMS code 1. -/
inductive EnvMode
  | peak
  | rms
deriving DecidableEq, Repr, Inhabited

/-- A command with its operands (30 R82). `nch` and `fmt` of PREPARE stay raw fields, because unsupported values of them
decode and are refused by the command itself (30 R83, R92). FRAME carries the operand words it came with, channel 0 first. -/
inductive Instr
  | reset
  | prepare (nch fmt : BitVec 4) (rate : Word)
  | start
  | stop
  | blkbegin
  | frame (samples : List Word)
  | blkend
  | setig (v : Word)
  | setog (v : Word)
  | setmix (v : Word)
  | setcurve (v : Word)
  | setclip (b : Bool)
  | setsplit (b : Bool)
  | setos (code : BitVec 2)
  | setphase (p : Phase)
  | setxlo (v : Word)
  | setxhi (v : Word)
  | setenvm (m : EnvMode)
  | setdecay (v : Word)
  | getlat
  | getstat
  | getmeter
deriving DecidableEq, Repr

end Sys2Proof
end

