-- ==== Sys2Proof/Config.lean ====
section
/-! DEFINITION. The configuration record `CFG` (00_scope.md R6) and the values the spec leaves open (93_implementation_defined.md). -/

namespace Sys2Proof.Config

/-- Direction of a stage or of a Resampler instance (10_state.md R40, R51). -/
inductive Dir
  | up
  | dn
deriving DecidableEq, Repr, Inhabited

/-- Stage number k ∈ {1, 2, 3} (10_state.md R40). -/
inductive Stage
  | k1
  | k2
  | k3
deriving DecidableEq, Repr, Inhabited

/-- The stage as the number the rules write. -/
def Stage.toNat : Stage → Nat
  | .k1 => 1
  | .k2 => 2
  | .k3 => 3

/-- An instance state of the external Resampler (44_oversampling_network.md R210): opaque, known by a token.
DESIGN CHOICE (log 16): the core reads nothing of it. -/
structure RsState where
  token : Nat
deriving DecidableEq, Repr, Inhabited

/-- The operations whose result can be a NaN. -/
inductive FloatOp
  | add
  | mul
  | div
  | sqrt
  | widen
  | narrow
deriving DecidableEq, Repr, Inhabited

/-- The configuration record `CFG` (00 R6): the fields the spec marks OPEN. Nothing is assumed of them; `Sys2Proof.Machine.CfgLegal` states the
constraints the spec names. Rates and attenuations are binary64 words. -/
structure Cfg where
  /-- `stageSpec(rate, f, k, dir)` → (N, att) (00 R6, 92 D20). -/
  stageSpec : Word → Nat → Stage → Dir → Nat × Word
  /-- `MAX_TAPS` (92 D21). -/
  maxTaps : Nat
  /-- `LAT_MAX` (92 D22). -/
  latMax : Nat
  /-- `LAT_LIN[f]` (92 D23). -/
  latLin : Nat → Nat
  /-- `RS_QUALITY` (92 D24); its type is the model's (log 16). -/
  rsQuality : Word
  /-- `RS_MAXBLOCK` (92 D24). -/
  rsMaxBlock : Nat
  /-- `rsCreate(inRate, outRate, maxBlock, quality)` (44 R210). -/
  rsCreate : Word → Word → Nat → Word → Option RsState
  /-- `rsProcess(state, samples)` (44 R210). -/
  rsProcess : RsState → List Word → RsState × List Word
  /-- A replacement of `KaiserBeta` as a whole, if there is one (42 R163, 92 D25). -/
  kaiserBeta : Option (Word → Word)
  /-- `midGain(CL, CH)` (45 R221, 92 D26). -/
  midGain : Word → Word → Word
  /-- `grMetric`: any value, fresh at every use (93 U7; log 17). DESIGN CHOICE, unsafe for a claim that compares two runs: a function of
  the use's number alone (log 32). -/
  grMetric : Nat → Word
  /-- `f_tan`, `f_exp`, `f_log10`, `f_pow10`, `f_pow` (49 R287, 92 D11). -/
  fTan : Word → Word
  fExp : Word → Word
  fLog10 : Word → Word
  fPow10 : Word → Word
  fPow : Word → Word → Word
  /-- Unspecified binary64 values, one per use (93 U1, U4; log 11, log 13). DESIGN CHOICE, unsafe for a claim that compares two runs: the
  spec does not say what such a value depends on, and here it is a function of the use's number alone (log 32). -/
  freeWord : Nat → Word
  /-- What `I0` gives where its loop has no end (42 R162; log 15). -/
  i0Endless : Word → Word
deriving Inhabited

/-- The configuration of the machine: a constant without a body, so that no proof can see any of its values (log 7). -/
opaque cfg : Cfg

/-- Sign (bit 51) and payload (bits 50 to 0) of the NaN that an operation gives on its operands: open (49 R286; log 10). -/
opaque nanBits : FloatOp → Word → Word → BitVec 52

end Sys2Proof.Config
end

