-- ==== Sys2Proof/Machine/Float.lean ====
section
/-! DEFINITION. IEEE 754 arithmetic of the core (49_numerics.md R283 to R289, 00_scope.md R8): binary64 words, one
rounding per operation, round to nearest with ties to even, gradual underflow, no flags. Every operation computes the exact
result and rounds once. -/

namespace Sys2Proof.Machine

open Sys2Proof.Config (FloatOp)

/-- An IEEE 754 binary interchange format: significand bits (the hidden one included) and exponent bits. -/
structure FloatFormat where
  prec : Nat
  ebits : Nat
deriving DecidableEq, Repr

/-- binary64 (20 R62). -/
def binary64 : FloatFormat := ⟨53, 11⟩

/-- binary32, at the port only (20 R62, 49 R283). -/
def binary32 : FloatFormat := ⟨24, 8⟩

/-- Exponent of the last place of the subnormals: −1074 for binary64, −149 for binary32. -/
def FloatFormat.minExp (f : FloatFormat) : Int := 3 - 2 ^ (f.ebits - 1) - f.prec

/-- The bits of +∞, which lie above those of every finite magnitude. -/
def FloatFormat.infBits (f : FloatFormat) : Nat := (2 ^ f.ebits - 1) * 2 ^ (f.prec - 1)

/-- The weight of the sign bit. -/
def FloatFormat.signBit (f : FloatFormat) : Nat := 2 ^ (f.prec - 1 + f.ebits)

/-- What a word stands for; a finite value is (−1)^neg · mant · 2^exp. -/
inductive FVal
  | nan
  | inf (neg : Bool)
  | fin (neg : Bool) (mant : Nat) (exp : Int)
deriving DecidableEq, Repr

/-- Reads the interchange layout: sign, exponent, fraction (20 R62). -/
def unpackBits (f : FloatFormat) (bits : Nat) : FVal :=
  let frac := bits % 2 ^ (f.prec - 1)
  let ex := bits / 2 ^ (f.prec - 1) % 2 ^ f.ebits
  let neg := bits / f.signBit % 2 = 1
  if ex = 2 ^ f.ebits - 1 then (if frac = 0 then .inf neg else .nan)
  else if ex = 0 then .fin neg frac f.minExp
  else .fin neg (2 ^ (f.prec - 1) + frac) (f.minExp + ex - 1)

/-- `m / 2^k` rounded to nearest, ties to even. -/
def roundShift (m k : Nat) : Nat :=
  let t := m / 2 ^ k
  let r := m % 2 ^ k
  if 2 * r > 2 ^ k ∨ (2 * r = 2 ^ k ∧ t % 2 = 1) then t + 1 else t

/-- Exponent of the last place that a significand of `prec` bits has for the magnitude m · 2^e. -/
def lastPlace (f : FloatFormat) (m : Nat) (e : Int) : Int := max (e + (Nat.log2 m + 1) - f.prec) f.minExp

/-- The bits, sign excluded, of the magnitude m · 2^e rounded to nearest even: zero, subnormal, normal, or +∞ where it
overflows (49 R283, R284). A significand that rounds up to 2^prec carries into the exponent by the addition. -/
def roundMag (f : FloatFormat) (m : Nat) (e : Int) : Nat :=
  if m = 0 then 0
  else
    let q := lastPlace f m e
    let mant := if q ≤ e then m * 2 ^ (e - q).toNat else roundShift m (q - e).toNat
    min ((q - f.minExp).toNat * 2 ^ (f.prec - 1) + mant) f.infBits

/-- The bits of (−1)^neg · m · 2^e rounded once. -/
def roundBits (f : FloatFormat) (neg : Bool) (m : Nat) (e : Int) : Nat :=
  (if neg then f.signBit else 0) + roundMag f m e

/-- The binary64 nearest to (−1)^neg · m · 2^e: the `fl` of 00 R8. -/
def round64 (neg : Bool) (m : Nat) (e : Int) : Word := BitVec.ofNat 64 (roundBits binary64 neg m e)

/-- The value of a binary64 word. -/
def unpack (w : Word) : FVal := unpackBits binary64 w.toNat

/-- A signed infinity. -/
def infWord (neg : Bool) : Word := BitVec.ofNat 64 ((if neg then binary64.signBit else 0) + binary64.infBits)

/-- A signed zero. -/
def zeroWord (neg : Bool) : Word := BitVec.ofNat 64 (if neg then binary64.signBit else 0)

/-- The quiet NaN an operation gives on its operands: sign and payload are free (49 R286). DESIGN CHOICE, safe (log 10). -/
def nanWord (op : FloatOp) (a b : Word) : Word :=
  (Config.nanBits op a b).extractLsb' 51 1 ++ (0xFFF : BitVec 12) ++ (Config.nanBits op a b).extractLsb' 0 51

/-! ### The basic operations (49 R284) -/

/-- m · 2^e as an integer at the common exponent `e0 ≤ e`. -/
def alignTo (e0 : Int) (neg : Bool) (m : Nat) (e : Int) : Int :=
  let v : Nat := m * 2 ^ (e - e0).toNat
  if neg then -(v : Int) else v

/-- The sum of two finite values, rounded once. An exact zero sum is +0.0, but for −0.0 + −0.0. -/
def addFinite (s1 : Bool) (m1 : Nat) (e1 : Int) (s2 : Bool) (m2 : Nat) (e2 : Int) : Word :=
  let e := min e1 e2
  let v := alignTo e s1 m1 e1 + alignTo e s2 m2 e2
  if v = 0 then zeroWord (s1 && s2) else round64 (v < 0) v.natAbs e

/-- `fl(a + b)`. -/
def fadd (a b : Word) : Word :=
  match unpack a, unpack b with
  | .nan, _ => nanWord .add a b
  | _, .nan => nanWord .add a b
  | .inf s, .inf t => if s = t then infWord s else nanWord .add a b
  | .inf s, .fin _ _ _ => infWord s
  | .fin _ _ _, .inf t => infWord t
  | .fin s1 m1 e1, .fin s2 m2 e2 => addFinite s1 m1 e1 s2 m2 e2

/-- `−a`: flips the sign bit. -/
def fneg (a : Word) : Word := a ^^^ 0x8000000000000000

/-- `|a|`: clears the sign bit, of a NaN too (49 R285). -/
def fabs (a : Word) : Word := a &&& 0x7FFFFFFFFFFFFFFF

/-- `fl(a − b)`. -/
def fsub (a b : Word) : Word := fadd a (fneg b)

/-- `fl(a × b)`. -/
def fmul (a b : Word) : Word :=
  match unpack a, unpack b with
  | .nan, _ => nanWord .mul a b
  | _, .nan => nanWord .mul a b
  | .inf s, .inf t => infWord (s ^^ t)
  | .inf s, .fin t m _ => if m = 0 then nanWord .mul a b else infWord (s ^^ t)
  | .fin s m _, .inf t => if m = 0 then nanWord .mul a b else infWord (s ^^ t)
  | .fin s1 m1 e1, .fin s2 m2 e2 => round64 (s1 ^^ s2) (m1 * m2) (e1 + e2)

/-- The quotient of two finite values, the divisor not zero, rounded once: 110 more quotient bits than the operands need
for a correct rounding, and the remainder kept as a last bit that is 1 where the division is not exact. -/
def divFinite (neg : Bool) (m1 : Nat) (e1 : Int) (m2 : Nat) (e2 : Int) : Word :=
  let n := m1 * 2 ^ 110
  round64 neg (2 * (n / m2) + (if n % m2 = 0 then 0 else 1)) (e1 - e2 - 111)

/-- `fl(a / b)`. -/
def fdiv (a b : Word) : Word :=
  match unpack a, unpack b with
  | .nan, _ => nanWord .div a b
  | _, .nan => nanWord .div a b
  | .inf _, .inf _ => nanWord .div a b
  | .inf s, .fin t _ _ => infWord (s ^^ t)
  | .fin s _ _, .inf t => zeroWord (s ^^ t)
  | .fin s m1 e1, .fin t m2 e2 =>
    if m2 = 0 then (if m1 = 0 then nanWord .div a b else infWord (s ^^ t))
    else divFinite (s ^^ t) m1 e1 m2 e2

/-- The root of `n` rounded down, its bits found from bit `k − 1` down, starting from `r`. -/
def isqrtFrom (n : Nat) : Nat → Nat → Nat
  | 0, r => r
  | k + 1, r => isqrtFrom n k (if (r + 2 ^ k) * (r + 2 ^ k) ≤ n then r + 2 ^ k else r)

/-- The square root of a positive finite value, rounded once: the exponent is made even, the significand widened by 120 bits,
and a last bit is 1 where the root is not exact. -/
def sqrtFinite (m : Nat) (e : Int) : Word :=
  let odd := e % 2 = 1
  let n := m * 2 ^ (if odd then 121 else 120)
  let e' := (if odd then e - 121 else e - 120) / 2
  let r := isqrtFrom n 90 0
  round64 false (2 * r + (if r * r = n then 0 else 1)) (e' - 1)

/-- `fl(sqrt(a))`; sqrt(−0.0) = −0.0, a NaN below zero. -/
def fsqrt (a : Word) : Word :=
  match unpack a with
  | .nan => nanWord .sqrt a a
  | .inf neg => if neg then nanWord .sqrt a a else infWord false
  | .fin neg m e => if m = 0 then zeroWord neg else if neg then nanWord .sqrt a a else sqrtFinite m e

/-! ### Comparisons and classes (49 R285) -/

/-- True for zeros, subnormals and normals (00 R8). -/
def isFinite (w : Word) : Bool := w.extractLsb' 52 11 != 0x7FF

/-- True for a NaN. -/
def isNan (w : Word) : Bool := w.extractLsb' 52 11 == 0x7FF && w.extractLsb' 0 52 != 0

/-- The place of a word that is no NaN in the order of its values; both zeros have place 0. -/
def orderKey (w : Word) : Int := if w.msb then -((fabs w).toNat : Int) else (fabs w).toNat

/-- `a < b`; false where an operand is a NaN. -/
def flt (a b : Word) : Bool := !isNan a && !isNan b && decide (orderKey a < orderKey b)

/-- `a ≤ b`; false where an operand is a NaN. -/
def fle (a b : Word) : Bool := !isNan a && !isNan b && decide (orderKey a ≤ orderKey b)

/-- `a = b`; false where an operand is a NaN; +0.0 = −0.0. -/
def feq (a b : Word) : Bool := !isNan a && !isNan b && decide (orderKey a = orderKey b)

/-! ### Conversions (49 R289) -/

/-- A natural as a binary64, exact below 2^53. -/
def ofNat64 (n : Nat) : Word := round64 false n 0

/-- `b64(v)`: widens a binary32 exactly; a NaN stays a NaN (its sign and payload are free, log 10). -/
def widen (v : BitVec 32) : Word :=
  match unpackBits binary32 v.toNat with
  | .nan => nanWord .widen (v.setWidth 64) 0
  | .inf neg => infWord neg
  | .fin neg m e => round64 neg m e

/-- The quiet binary32 NaN that narrowing gives (log 10). -/
def nanNarrow (a : Word) : BitVec 32 :=
  (Config.nanBits .narrow a 0).extractLsb' 51 1 ++ (0x1FF : BitVec 9) ++ (Config.nanBits .narrow a 0).extractLsb' 0 22

/-- `b32(y)`: rounds a binary64 to binary32, nearest even, overflow to ±∞ (49 R283). -/
def narrow (a : Word) : BitVec 32 :=
  match unpack a with
  | .nan => nanNarrow a
  | .inf neg => BitVec.ofNat 32 ((if neg then binary32.signBit else 0) + binary32.infBits)
  | .fin neg m e => BitVec.ofNat 32 (roundBits binary32 neg m e)

/-- `isFinite` of a binary32. -/
def isFinite32 (v : BitVec 32) : Bool := v.extractLsb' 23 8 != 0xFF

/-! ### The constants of the rules (49 R288): the binary64 nearest to each decimal -/

def cZero : Word := 0x0000000000000000
def cOne : Word := 0x3FF0000000000000
def cMinusOne : Word := 0xBFF0000000000000
def cTwo : Word := 0x4000000000000000
def cMinusTwo : Word := 0xC000000000000000
def cHalf : Word := 0x3FE0000000000000
def cQuarter : Word := 0x3FD0000000000000
def cSixteenth : Word := 0x3FB0000000000000
def cThreeHalves : Word := 0x3FF8000000000000
def cTwenty : Word := 0x4034000000000000
/-- `ENV_FLOOR_DB` (00 R6). -/
def cMinusHundred : Word := 0xC059000000000000
/-- `ATTACK_FRACTION` (00 R6), 0.01. -/
def cHundredth : Word := 0x3F847AE147AE147B
/-- `I0_EPS` (00 R6), 1e-6. -/
def cMillionth : Word := 0x3EB0C6F7A0B5ED8D
def c21 : Word := 0x4035000000000000
def c50 : Word := 0x4049000000000000
def c8_7 : Word := 0x4021666666666666
def c0_5842 : Word := 0x3FE2B1C432CA57A8
def c0_07886 : Word := 0x3FB4302B40F66A55
def c0_1102 : Word := 0x3FBC36113404EA4B
def c0_4 : Word := 0x3FD999999999999A
/-- `PI` (49 R287). -/
def cPi : Word := 0x400921FB54442D18
/-- `CLIP_LIMIT` = 1.0 (00 R6, 40 R112). -/
def clipLimit : Word := cOne

end Sys2Proof.Machine
end

