-- ==== Sys2Proof/Machine/State.lean ====
section
/-! DEFINITION. The state of the machine (10_state.md), its outcomes and its reset value (10 R55). -/

namespace Sys2Proof.Machine

open Sys2Proof.Config (RsState Stage)

/-- Lifecycle state (10 R34). -/
inductive Life
  | unconf
  | ready
  | active
  | inblock
deriving DecidableEq, Repr, Inhabited

/-- Stream channel count `NCH` (10 R38). -/
inductive Channels
  | mono
  | stereo
deriving DecidableEq, Repr, Inhabited

/-- Sample format `FMT` at the port (10 R38): binary32 is code 0, binary64 code 1. -/
inductive SampleFormat
  | b32
  | b64
deriving DecidableEq, Repr, Inhabited

/-- Response codes (30 R90). -/
inductive RespCode
  | ok
  | eIllegal
  | eState
  | eFormat
  | eConfig
  | eRange
deriving DecidableEq, Repr, Inhabited

/-- One copy of the twelve parameter registers, in the order of their numbers 0 to 11 (10 R20). -/
structure Params where
  ig : Word
  og : Word
  mix : Word
  curve : Word
  clip : Bool
  split : Bool
  os : BitVec 2
  phase : Phase
  xlo : Word
  xhi : Word
  envm : EnvMode
  decay : Word
deriving DecidableEq, Repr

/-- The curve coefficient registers `CA`, `CB`, `CC`, `CD` (10 R31). -/
structure Curve where
  ca : Word
  cb : Word
  cc : Word
  cd : Word
deriving DecidableEq, Repr

/-- A stage descriptor `DESC[dir][k]` (10 R40). -/
structure Desc where
  n : Nat
  c : Nat
  thh : Nat
  pc : Nat
  start : Nat
  np : Nat
deriving DecidableEq, Repr

/-- One entry for each stage k = 1, 2, 3. -/
structure PerStage (α : Type) where
  k1 : α
  k2 : α
  k3 : α
deriving DecidableEq, Repr

/-- The entry of stage k. -/
def PerStage.get {α : Type} (t : PerStage α) : Stage → α
  | .k1 => t.k1
  | .k2 => t.k2
  | .k3 => t.k3

/-- Replaces the entry of stage k. -/
def PerStage.set {α : Type} (t : PerStage α) (k : Stage) (v : α) : PerStage α :=
  match k with
  | .k1 => { t with k1 := v }
  | .k2 => { t with k2 := v }
  | .k3 => { t with k3 := v }

/-- The table of a function of the stage. -/
def PerStage.ofFn {α : Type} (f : Stage → α) : PerStage α := ⟨f .k1, f .k2, f .k3⟩

/-- The files of one channel (10 R42, R43, R46, R47, R48, R51). -/
structure Channel where
  /-- `HUP[ch][k]`, most recent first (10 R42). -/
  hup : PerStage (List Word)
  /-- `HDN[ch][k]`, most recent first (10 R43). -/
  hdn : PerStage (List Word)
  lps : Word
  lpy : Word
  hps : Word
  hpy : Word
  /-- `LQ[ch]`, oldest first (10 R47). -/
  lq : List Word
  /-- `ENV[ch][IN]` (10 R48). -/
  envIn : Word
  /-- `ENV[ch][OUT]` (10 R48). -/
  envOut : Word
  /-- `RS[ch][UP]`; `none` is the spec's own "absent" (10 R51). -/
  rsUp : Option RsState
  /-- `RS[ch][DN]` (10 R51). -/
  rsDn : Option RsState
deriving DecidableEq, Repr

/-- The meter mailbox `METER`: words 0 to 7 in order (10 R52). -/
structure Meter where
  rate : Word
  num : Word
  inL : Word
  inR : Word
  outL : Word
  outR : Word
  gr : Word
  stamp : Word
deriving DecidableEq, Repr

/-- The core: everything that reset restores (10 R55). `STATUS` is a view of its flags (`Core.status`). -/
structure Core where
  life : Life
  blkcnt : BitVec 32
  latchg : Bool
  xloW : Bool
  xhiW : Bool
  decayW : Bool
  nonfin : Bool
  rsfault : Bool
  proto : Bool
  lat : Nat
  rate : Word
  nch : Channels
  fmt : SampleFormat
  wrate : Word
  mseq : BitVec 32
  pending : Params
  active : Params
  curve : Curve
  descUp : PerStage Desc
  descDn : PerStage Desc
  coefUp : PerStage (List Word)
  coefDn : PerStage (List Word)
  cl : Word
  ch : Word
  g : Word
  gr : Word
  aatt : Word
  arel : Word
  chan0 : Channel
  chan1 : Channel
  meter : Meter
deriving DecidableEq, Repr

/-- A move of the environment (70 R331, R338, R340): the host issues a command word, the reset pin is pulsed, the meter
observer reads the mailbox. -/
inductive Move
  | command (cw : CmdWord)
  | resetPin
  | observe
deriving DecidableEq, Repr

/-- A response: `RSP` carries the code, then the result words (30 R80, R90). -/
structure Response where
  code : RespCode
  results : List Word
deriving DecidableEq, Repr

/-- The command port and the observer's side of the mailbox (30 R80, 70 R341). DESIGN CHOICE (log 1, log 4, log 6). -/
structure Port where
  /-- The environment's moves not made yet, the next one first. -/
  moves : List Move
  /-- Operand words sent and not consumed yet, the first sent first. -/
  operands : List Word
  /-- Responses produced, oldest first. -/
  responses : List Response
  /-- Meter records the observer has read, oldest first. -/
  observed : List Meter
deriving DecidableEq, Repr

/-- The machine: the core, the port, and the count of free values used up (the model's own field, log 12). -/
structure State where
  core : Core
  port : Port
  freeCount : Nat
deriving DecidableEq, Repr

/-- Reasons the machine would stop with a fault. There is none: every state accepts a further command and every command is
answered (70 R340, R341); the sticky faults of 60 R304, R305 are flags of `STATUS`. Safe (log 25). -/
inductive Fault
deriving DecidableEq, Repr

/-- Reasons a step has no meaning. -/
inductive Refusal
  /-- Raised by an arm of `exec` for an instruction that has no meaning yet; no arm is left that raises it. Safe. -/
  | notModelled (mnemonic : String)
deriving DecidableEq, Repr

/-! ### Reset (10 R55, 70 R330) -/

/-- Reset value of the parameter registers, both copies (10 R20). `XLO`, `XHI`, `DECAY` are unwritten: +0.0 is a
DESIGN CHOICE, unsafe (log 8). -/
def Params.reset : Params where
  ig := cOne
  og := cOne
  mix := cOne
  curve := cHalf
  clip := false
  split := false
  os := 0
  phase := .min
  xlo := cZero
  xhi := cZero
  envm := .peak
  decay := cZero

/-- Reset value of `CA..CD`, those of CURVE = 0.5 (10 R31). -/
def Curve.reset : Curve where
  ca := cThreeHalves
  cb := 0x8000000000000000
  cc := 0xBFE0000000000000
  cd := cSixteenth

/-- An unwritten descriptor (10 R40): DESIGN CHOICE, unsafe (log 8). -/
def Desc.unwritten : Desc := ⟨0, 0, 0, 0, 0, 0⟩

/-- Reset value of a channel's files: nothing to clear in histories of length 0, running values +0.0, queue empty,
envelopes −100.0, no Resampler instance (10 R42 to R48, R51). -/
def Channel.reset : Channel where
  hup := ⟨[], [], []⟩
  hdn := ⟨[], [], []⟩
  lps := cZero
  lpy := cZero
  hps := cZero
  hpy := cZero
  lq := []
  envIn := cMinusHundred
  envOut := cMinusHundred
  rsUp := none
  rsDn := none

/-- Reset value of the mailbox (10 R52). -/
def Meter.reset : Meter := ⟨0, 0, 0, 0, 0, 0, 0, 0⟩

/-- Reset value of the core (10 R55). The values of the unwritten registers `RATE`, `NCH`, `FMT`, `WRATE`, `DESC`, `COEF`, `CL`,
`CH`, `G`, `GR`, `AATT`, `AREL` are a DESIGN CHOICE, unsafe (log 8). -/
def Core.reset : Core where
  life := .unconf
  blkcnt := 0
  latchg := false
  xloW := false
  xhiW := false
  decayW := false
  nonfin := false
  rsfault := false
  proto := false
  lat := 0
  rate := cZero
  nch := .mono
  fmt := .b32
  wrate := cZero
  mseq := 0
  pending := Params.reset
  active := Params.reset
  curve := Curve.reset
  descUp := ⟨Desc.unwritten, Desc.unwritten, Desc.unwritten⟩
  descDn := ⟨Desc.unwritten, Desc.unwritten, Desc.unwritten⟩
  coefUp := ⟨[], [], []⟩
  coefDn := ⟨[], [], []⟩
  cl := cZero
  ch := cZero
  g := cZero
  gr := cZero
  aatt := cZero
  arel := cZero
  chan0 := Channel.reset
  chan1 := Channel.reset
  meter := Meter.reset

/-- The port with nothing sent and nothing answered. -/
def Port.empty : Port := ⟨[], [], [], []⟩

/-- The machine right after reset, nothing sent yet. -/
def State.reset : State := ⟨Core.reset, Port.empty, 0⟩

end Sys2Proof.Machine
end

