-- ==== Sys2Proof/Machine/Flags.lean ====
section
/-! DEFINITION. The status register, the request line and the finiteness check (10_state.md R35, R36, 60_exceptions.md R304, R306). -/

namespace Sys2Proof.Machine

/-- The two-bit code of a lifecycle state (10 R34). -/
def Life.code : Life → BitVec 2
  | .unconf => 0
  | .ready => 1
  | .active => 2
  | .inblock => 3

/-- `STATUS` (10 R36), bit 31 first: the reserved bits 31:11, 7 and 3 read 0. -/
def Core.status (c : Core) : BitVec 32 :=
  (0 : BitVec 21) ++ BitVec.ofBool c.proto ++ BitVec.ofBool c.rsfault ++ BitVec.ofBool c.nonfin ++ (0 : BitVec 1)
    ++ BitVec.ofBool c.decayW ++ BitVec.ofBool c.xhiW ++ BitVec.ofBool c.xloW ++ (0 : BitVec 1)
    ++ BitVec.ofBool c.latchg ++ c.life.code

/-- The request line `irq_latchg`: the level of `STATUS.LATCHG` at all times (60 R306). -/
def State.irqLatchg (s : State) : Bool := s.core.latchg

/-- Whether the pending mode differs from the active mode (40 R108): what sets `LATCHG`. -/
def Core.modeDiffers (c : Core) : Bool := c.pending.os != c.active.os || c.pending.phase != c.active.phase

/-- Whether every value of a list is finite: the check of 40 R118 over the values it lists. -/
def allFinite (ws : List Word) : Bool := ws.all isFinite

end Sys2Proof.Machine
end

