-- ==== Sys2Proof/Machine/Operands.lean ====
section
/-! DEFINITION. Operand forms: stream formats, sample conversion, legal ranges (30_encoding.md R83 to R85, 41_parameter_commands.md R130). -/

namespace Sys2Proof.Machine

/-- How many channels a stream has (10 R38). -/
def Channels.count : Channels → Nat
  | .mono => 1
  | .stereo => 2

/-- The channel count that `imm[3:0]` names, if it is supported (30 R83). -/
def channelsOf (nch : BitVec 4) : Option Channels :=
  if nch = 1 then some .mono else if nch = 2 then some .stereo else none

/-- The sample format that `imm[7:4]` names, if it is supported (30 R83). -/
def formatOf (fmt : BitVec 4) : Option SampleFormat :=
  if fmt = 0 then some .b32 else if fmt = 1 then some .b64 else none

/-- The input sample of an operand word (30 R84, 40 R111): with binary32, bits 31:0 widened and bits 63:32 ignored. -/
def sampleIn (fmt : SampleFormat) (opd : Word) : Word :=
  match fmt with
  | .b64 => opd
  | .b32 => widen (opd.setWidth 32)

/-- The result word of an output sample (30 R84): with binary32, bits 31:0 narrowed and bits 63:32 zero. -/
def sampleOut (fmt : SampleFormat) (y : Word) : Word :=
  match fmt with
  | .b64 => y
  | .b32 => (narrow y).setWidth 64

/-- Whether the converted output is finite (40 R118). -/
def outFinite (fmt : SampleFormat) (y : Word) : Bool :=
  match fmt with
  | .b64 => isFinite y
  | .b32 => isFinite32 (narrow y)

/-- The legal range of `MIX` and `CURVE` (41 R133, R134): 0.0 ≤ v ≤ 1.0, which no NaN meets. -/
def inUnitRange (v : Word) : Bool := fle cZero v && fle v cOne

/-- The legal range of `XLO`, `XHI`, `DECAY` and the rate (41 R139, 40 R102 check 4): finite and above 0.0. -/
def isPositiveFinite (v : Word) : Bool := isFinite v && flt cZero v

/-- The oversampling factor f = 2^code (10 R20 register 6). -/
def factor (os : BitVec 2) : Nat := 2 ^ os.toNat

end Sys2Proof.Machine
end

