-- ==== Sys2Proof/Machine/Ops.lean ====
section
/-! DEFINITION. Shared operations: ending a command, refusing it (the core's only exception entry, 60_exceptions.md R300, R301,
R309), the sticky faults, free values, the clears of START and STOP. -/

namespace Sys2Proof.Machine

/-! ### Ending a command (00 R10) -/

/-- Replaces the core. -/
def State.setCore (s : State) (c : Core) : State := { s with core := c }

/-- `respond(code, results)`: the response goes out last (30 R80). -/
def State.respond (s : State) (code : RespCode) (results : List Word) : State :=
  { s with port := { s.port with responses := s.port.responses ++ [⟨code, results⟩] } }

/-- Whether a refusal code also sets the sticky `STATUS.PROTO` (60 R301). -/
def RespCode.setsProto : RespCode → Bool
  | .eIllegal | .eState => true
  | .ok | .eFormat | .eConfig | .eRange => false

/-- `refuse(code)` (60 R301): the core's exception entry. No result word, every piece of state as before, but that
`E_ILLEGAL` and `E_STATE` set `PROTO`. Nothing is saved and there is no return (60 R309, R310). -/
def State.refuse (s : State) (code : RespCode) : State :=
  (s.setCore { s.core with proto := s.core.proto || code.setsProto }).respond code []

/-- Ends a command with `OK`, the core as given and the result words. -/
def State.finish (s : State) (c : Core) (results : List Word) : State := (s.setCore c).respond .ok results

/-- The 32 bits of `RSP` (30 R81, R90). -/
def Response.rsp (r : Response) : BitVec 32 :=
  match r.code with
  | .ok => 0
  | .eIllegal => 1
  | .eState => 2
  | .eFormat => 3
  | .eConfig => 4
  | .eRange => 5

/-! ### Free values (93 U1, U4, U7) -/

/-- `len` fresh unspecified values, the first of them number `n` (log 11, log 13). -/
def freshWords (free : Nat → Word) (n len : Nat) : List Word := (List.range len).map fun i => free (n + i)

/-- Each history of a file replaced by as many fresh values; the number of values used. -/
def scrambleStages (free : Nat → Word) (n : Nat) (t : PerStage (List Word)) : PerStage (List Word) × Nat :=
  (⟨freshWords free n t.k1.length, freshWords free (n + t.k1.length) t.k2.length,
    freshWords free (n + t.k1.length + t.k2.length) t.k3.length⟩,
   t.k1.length + t.k2.length + t.k3.length)

/-- The channel's state after `NonFinite` (40 R118, 93 U1): every element of the listed files is a fresh unspecified value,
the lengths stay, and the Resampler instances are as the calls left them. Gives the values used. -/
def scrambleChannel (free : Nat → Word) (n : Nat) (ch : Channel) : Channel × Nat :=
  let (hup, n1) := scrambleStages free (n + 6) ch.hup
  let (hdn, n2) := scrambleStages free (n + 6 + n1) ch.hdn
  ({ ch with
      lps := free n, lpy := free (n + 1), hps := free (n + 2), hpy := free (n + 3),
      envIn := free (n + 4), envOut := free (n + 5),
      hup := hup, hdn := hdn, lq := freshWords free (n + 6 + n1 + n2) ch.lq.length },
   6 + n1 + n2 + ch.lq.length)

/-! ### Clears (10 R44, R46, 40 R105) -/

/-- n copies of +0.0 (00 R9). -/
def zeros (n : Nat) : List Word := List.replicate n cZero

/-- Every history element +0.0, the lengths as they are. -/
def clearStages (t : PerStage (List Word)) : PerStage (List Word) :=
  ⟨zeros t.k1.length, zeros t.k2.length, zeros t.k3.length⟩

/-- The clears of START and STOP on one channel: histories and band-split running values (40 R105). -/
def Channel.clearFilters (ch : Channel) : Channel :=
  { ch with hup := clearStages ch.hup, hdn := clearStages ch.hdn, lps := cZero, lpy := cZero, hps := cZero, hpy := cZero }

/-- The successor of `BLKCNT`, saturating at 2^32 − 1 (49 R281). -/
def satIncr (n : BitVec 32) : BitVec 32 := if n = BitVec.allOnes 32 then n else n + 1

/-- An element of an internal array; every index the rules use is in range (20 R60), and +0.0 stands outside it (log 19). -/
def memRead (a : List Word) (i : Nat) : Word := a.getD i cZero

end Sys2Proof.Machine
end

