-- ==== Sys2Proof/Machine/Aligner.lean ====
section
/-! DEFINITION. LatencyAligner: the delay queue, the wet/dry mix, the resize (47_latency_aligner.md R250 to R253). -/

namespace Sys2Proof.Machine

/-- `Align(ch, d)` (47 R250): pushes d at the tail; gives the oldest sample and the queue without it. -/
def align (lq : List Word) (d : Word) : Word × List Word :=
  let q := lq ++ [d]
  (memRead q 0, q.tail)

/-- `Mix(w, dd)` (47 R251). -/
def mixWetDry (mix w dd : Word) : Word := fadd (fmul mix w) (fmul (fsub cOne mix) dd)

/-- `Resize(Q, L')` (47 R253): zeros at the tail, or the oldest dropped from the head. -/
def resize (q : List Word) (len : Nat) : List Word :=
  if q.length < len then q ++ zeros (len - q.length) else q.drop (q.length - len)

end Sys2Proof.Machine
end

