-- ==== Sys2Proof/Machine/Envelope.lean ====
section
/-! DEFINITION. EnvelopeFollower: coefficients, the dB-domain update, the read-out (48_envelope_follower.md R260 to R265). -/

namespace Sys2Proof.Machine

open Sys2Proof.Config (Cfg)

/-- The smoothing coefficient of a time constant, `f_exp(fl(−1.0 / fl(rate × T)))` (48 R260). -/
def envCoef (cfg : Cfg) (rate time : Word) : Word := cfg.fExp (fdiv cMinusOne (fmul rate time))

/-- `EnvCoefs(rate, decay)` = (`AATT`, `AREL`) (48 R260). -/
def envCoefs (cfg : Cfg) (rate decay : Word) : Word × Word :=
  (envCoef cfg rate (fmul cHundredth decay), envCoef cfg rate decay)

/-- `NewDb(x)` (48 R261): 20·log10 of |x| or x², floored at −100; no logarithm of zero is taken. -/
def newDb (cfg : Cfg) (mode : EnvMode) (x : Word) : Word :=
  let v := match mode with
    | .peak => fabs x
    | .rms => fmul x x
  if feq v cZero then cMinusHundred
  else
    let nd := fmul cTwenty (cfg.fLog10 v)
    if flt nd cMinusHundred then cMinusHundred else nd

/-- The one-pole blend `fl(fl(a × e) + fl(fl(1 − a) × nd))` (48 R262). -/
def envBlend (a e nd : Word) : Word := fadd (fmul a e) (fmul (fsub cOne a) nd)

/-- `EnvUpdate` (48 R262): the attack coefficient where the new value exceeds the state, else the release coefficient. -/
def envUpdate (cfg : Cfg) (c : Core) (e x : Word) : Word :=
  let nd := newDb cfg c.active.envm x
  envBlend (if flt e nd then c.aatt else c.arel) e nd

/-- `Level(e)` (48 R265). -/
def level (cfg : Cfg) (mode : EnvMode) (e : Word) : Word :=
  let lin := cfg.fPow10 (fdiv e cTwenty)
  match mode with
  | .peak => lin
  | .rms => fsqrt lin

end Sys2Proof.Machine
end

