-- ==== Sys2Proof/Machine/Designer.lean ====
section
/-! DEFINITION. FilterDesigner: Kaiser-windowed half-band tables (42_filter_designer.md R160 to R169). -/

namespace Sys2Proof.Machine

open Sys2Proof.Config (Cfg)

/-- `Ideal(n)` (42 R161): 0.5 at the centre, +0.0 at the other even offsets, ±1/(PI·n) at the odd ones. -/
def ideal (n : Nat) : Word :=
  if n = 0 then cHalf
  else if n % 2 = 0 then cZero
  else if n % 4 = 1 then fdiv cOne (fmul cPi (ofNat64 n))
  else fdiv cMinusOne (fmul cPi (ofNat64 n))

/-- The loop of 42 R162 for at most `fuel` passes; `none` if it has not ended by then. -/
def i0Loop (x : Word) : (fuel : Nat) → (d ds s : Word) → Option Word
  | 0, _, _, _ => none
  | fuel + 1, d, ds, s =>
    let d := fadd d cTwo
    let ds := fdiv (fmul ds (fmul x x)) (fmul d d)
    let s := fadd s ds
    if flt ds (fmul s cMillionth) then some s else i0Loop x fuel d ds s

/-- `I0(x)` (42 R162). Where a term or the sum overflows, which it does from about x = 704 on, the loop of the rule has no end
and the value is a free one: DESIGN CHOICE, safe (log 15). Below that it ends within 420 passes. -/
def i0 (cfg : Cfg) (x : Word) : Word := (i0Loop x 1024 cZero cOne cOne).getD (cfg.i0Endless x)

/-- `KaiserBeta(att)` with the default constants (42 R163). -/
def kaiserBetaDefault (cfg : Cfg) (att : Word) : Word :=
  if flt att c21 then cZero
  else if fle att c50 then
    let a := fsub att c21
    fadd (fmul c0_5842 (cfg.fPow a c0_4)) (fmul c0_07886 a)
  else fmul c0_1102 (fsub att c8_7)

/-- `KaiserBeta(att)`: the replacement of `CFG` if there is one, else the default (42 R163, 92 D25; log 22). -/
def kaiserBeta (cfg : Cfg) (att : Word) : Word := (cfg.kaiserBeta.getD (kaiserBetaDefault cfg)) att

/-- `wnum(n)` for 0 ≤ n ≤ c (42 R164): the window's numerator, I0(0) = 1 at the outermost tap n = c. -/
def windowNum (cfg : Cfg) (beta : Word) (c n : Nat) : Word :=
  if n = c then i0 cfg cZero
  else
    let q := fdiv (fmul (ofNat64 n) (ofNat64 n)) (fmul (ofNat64 c) (ofNat64 c))
    i0 cfg (fmul beta (fsqrt (fsub cOne q)))

/-- The coefficient at offset n from the centre (42 R167): `fl(fl(Ideal(n) × wnum(n)) / ib)`. -/
def coefAt (cfg : Cfg) (beta ib : Word) (c n : Nat) : Word := fdiv (fmul (ideal n) (windowNum cfg beta c n)) ib

/-- `Design(N, att)` (42 R167): coef[c + n] = coef[c − n] = the coefficient at offset n. -/
def design (cfg : Cfg) (n : Nat) (att : Word) : List Word :=
  let c := (n - 1) / 2
  let beta := kaiserBeta cfg att
  let half := (List.range (c + 1)).map (coefAt cfg beta (i0 cfg beta) c)
  half.tail.reverse ++ half

/-- The doubled table of an up stage (42 R169). -/
def doubled (t : List Word) : List Word := t.map (fmul cTwo)

/-- The descriptor of a tap count (10 R40). -/
def Desc.ofTaps (n : Nat) : Desc :=
  let c := (n - 1) / 2
  let thh := c / 2
  let start := if n % 4 = 1 then 1 else 0
  { n := n, c := c, thh := thh, pc := n % 4, start := start, np := thh + (1 - start) }

end Sys2Proof.Machine
end

