-- ==== Sys2Proof/Machine/HalfBand.lean ====
section
/-! DEFINITION. HalfBandStage: one step of an up or a down stage (43_halfband_stage.md R180 to R190). -/

namespace Sys2Proof.Machine

/-- The accumulator `acc` after each term, starting from `acc`: `acc = fl(acc + term)`. -/
def runningSums : (acc : Word) → (terms : List Word) → List Word
  | _, [] => []
  | acc, t :: ts => fadd acc t :: runningSums (fadd acc t) ts

/-- The accumulator after the last term (43 R182, R186). -/
def accumulate (terms : List Word) : Word := terms.foldl fadd cZero

/-- What a step of a stage gives: its outputs, its new history, and the values 40 R118 checks (inputs, outputs, and the
intermediate sums: those of the pairs and the accumulator after every term; log 20). -/
structure StageStep where
  out : List Word
  hist : List Word
  seen : List Word
deriving DecidableEq, Repr

/-- The window `U = [x] ++ HUP` (43 R182). -/
def upWindow (hist : List Word) (x : Word) : List Word := x :: hist

/-- The pair sums `fl(U[i + START] + U[C − i])`, i = 0 .. NP − 1 (43 R182). -/
def upPairs (d : Desc) (u : List Word) : List Word :=
  (List.range d.np).map fun i => fadd (memRead u (i + d.start)) (memRead u (d.c - i))

/-- The terms `fl(g[START + 2i] × pair)` (43 R182, R186). -/
def tapTerms (d : Desc) (table pairs : List Word) : List Word :=
  (List.range d.np).map fun i => fmul (memRead table (d.start + 2 * i)) (memRead pairs i)

/-- `HB_UP` (43 R182, R183): one sample in, two out, the earlier first. -/
def hbUp (d : Desc) (table hist : List Word) (x : Word) : StageStep :=
  let u := upWindow hist x
  let pairs := upPairs d u
  let terms := tapTerms d table pairs
  let acc := accumulate terms
  let cen := fmul (memRead table d.c) (memRead u ((d.c + 1 - d.start) / 2))
  let out := if d.start = 1 then [acc, cen] else [cen, acc]
  { out := out, hist := u.take d.c, seen := x :: (pairs ++ runningSums cZero terms ++ out) }

/-- The window `W = [b, a] ++ HDN` (43 R186). -/
def dnWindow (hist : List Word) (a b : Word) : List Word := b :: a :: hist

/-- The pair sums `fl(W[START + 2i] + W[N − 1 − START − 2i])` (43 R186). -/
def dnPairs (d : Desc) (w : List Word) : List Word :=
  (List.range d.np).map fun i => fadd (memRead w (d.start + 2 * i)) (memRead w (d.n - 1 - d.start - 2 * i))

/-- `HB_DN` (43 R186, R187): two samples in, `a` the earlier, one out. -/
def hbDn (d : Desc) (table hist : List Word) (a b : Word) : StageStep :=
  let w := dnWindow hist a b
  let pairs := dnPairs d w
  let terms := tapTerms d table pairs
  let r := fadd (accumulate terms) (fmul (memRead table d.c) (memRead w d.c))
  { out := [r], hist := w.take (d.n - 2), seen := a :: b :: (pairs ++ runningSums cZero terms ++ [r]) }

end Sys2Proof.Machine
end

