-- ==== Sys2Proof/Machine/Network.lean ====
section
/-! DEFINITION. OversamplingNetwork: the half-band cascade, its latency, and the calls of the external Resampler
(44_oversampling_network.md R200 to R211). -/

namespace Sys2Proof.Machine

open Sys2Proof.Config (Cfg Stage RsState)

/-- The stages in use, k = 1 .. K with K = log2 f = the oversampling code (44 R200). -/
def stagesOf (os : BitVec 2) : List Stage := [Stage.k1, Stage.k2, Stage.k3].take os.toNat

/-- The steps of one up stage over its inputs of a frame, earliest first (44 R202). -/
def upStage (d : Desc) (table : List Word) : (hist : List Word) → (inputs : List Word) → StageStep
  | hist, [] => ⟨[], hist, []⟩
  | hist, x :: xs =>
    let s := hbUp d table hist x
    let r := upStage d table s.hist xs
    ⟨s.out ++ r.out, r.hist, s.seen ++ r.seen⟩

/-- The steps of one down stage over its inputs of a frame, pair by pair, earliest first (44 R203). -/
def dnStage (d : Desc) (table : List Word) : (hist : List Word) → (inputs : List Word) → StageStep
  | hist, a :: b :: xs =>
    let s := hbDn d table hist a b
    let r := dnStage d table s.hist xs
    ⟨s.out ++ r.out, r.hist, s.seen ++ r.seen⟩
  | hist, _ => ⟨[], hist, []⟩

/-- What a cascade gives: its outputs, the histories after it, the values 40 R118 checks. -/
structure CascadeRun where
  out : List Word
  hist : PerStage (List Word)
  seen : List Word
deriving DecidableEq, Repr

/-- A cascade through the stages of a list in its order, each stage fed with what the one before gave. -/
def cascade (stage : Desc → List Word → List Word → List Word → StageStep) (descs : PerStage Desc)
    (tables : PerStage (List Word)) : List Stage → PerStage (List Word) → List Word → CascadeRun
  | [], hist, cur => ⟨cur, hist, []⟩
  | k :: ks, hist, cur =>
    let r := stage (descs.get k) (tables.get k) (hist.get k) cur
    let rest := cascade stage descs tables ks (hist.set k r.hist) r.out
    ⟨rest.out, rest.hist, r.seen ++ rest.seen⟩

/-- `CascadeUp(ch, d)` (44 R202): stages 1, 2, .., K. -/
def cascadeUp (c : Core) (hup : PerStage (List Word)) (d : Word) : CascadeRun :=
  cascade upStage c.descUp c.coefUp (stagesOf c.active.os) hup [d]

/-- `CascadeDown(ch, p)` (44 R203): stages K, .., 2, 1. -/
def cascadeDown (c : Core) (hdn : PerStage (List Word)) (p : List Word) : CascadeRun :=
  cascade dnStage c.descDn c.coefDn (stagesOf c.active.os).reverse hdn p

/-- `CascadeLatency(f)` (44 R206) over the stages given in the order K, .., 1, starting from `D`; `none` where a sum is odd. -/
def latencyFrom (descUp descDn : PerStage Desc) : List Stage → (acc : Nat) → Option Nat
  | [], acc => some acc
  | k :: ks, acc =>
    let t := (descUp.get k).c + (descDn.get k).c + acc
    if t % 2 = 1 then none else latencyFrom descUp descDn ks (t / 2)

/-- `CascadeLatency(f)` (44 R206). -/
def cascadeLatency (descUp descDn : PerStage Desc) (os : BitVec 2) : Option Nat :=
  latencyFrom descUp descDn (stagesOf os).reverse 0

/-- What a call of the Resampler gives: the samples the core uses, the instance after the call, whether the count was wrong
(`ResamplerFault`, 60 R305), the values 40 R118 checks, and how many free values were used. -/
structure ResampleRun where
  out : List Word
  inst : Option RsState
  fault : Bool
  seen : List Word
  used : Nat
deriving DecidableEq, Repr

/-- A call of `rsProcess` that must answer `want` samples (44 R211). With a wrong count `want` unspecified values are used
(log 13); an absent instance, which no run reaches, is taken as a wrong count (log 14). -/
def resample (cfg : Cfg) (n : Nat) (inst : Option RsState) (input : List Word) (want : Nat) : ResampleRun :=
  let free := freshWords cfg.freeWord n want
  match inst with
  | none => ⟨free, none, true, input ++ free, want⟩
  | some st =>
    let (st', out) := cfg.rsProcess st input
    if out.length = want then ⟨out, some st', false, input ++ out, 0⟩
    else ⟨free, some st', true, input ++ out ++ free, want⟩

/-- The input and output rates of a Resampler instance (40 R103): up from `RATE` to f × `RATE`, down the other way. -/
def rsCreateUp (cfg : Cfg) (rate : Word) (f : Nat) : Option RsState :=
  cfg.rsCreate rate (fmul (ofNat64 f) rate) cfg.rsMaxBlock cfg.rsQuality

/-- The down instance of `rsCreateUp`. -/
def rsCreateDn (cfg : Cfg) (rate : Word) (f : Nat) : Option RsState :=
  cfg.rsCreate (fmul (ofNat64 f) rate) rate cfg.rsMaxBlock cfg.rsQuality

end Sys2Proof.Machine
end

