-- ==== Sys2Proof/Machine/Plan.lean ====
section
/-! DEFINITION. `PlanMode`: what PREPARE computes for the requested mode before it writes anything (40_lifecycle_commands.md R103). -/

namespace Sys2Proof.Machine

open Sys2Proof.Config (Cfg Stage Dir RsState)

/-- What a successful planning gives: descriptors, tables, the new latency, the Resampler instances of both channels. -/
structure Plan where
  descUp : PerStage Desc
  descDn : PerStage Desc
  coefUp : PerStage (List Word)
  coefDn : PerStage (List Word)
  lat : Nat
  rsUp : Option RsState
  rsDn : Option RsState
deriving DecidableEq, Repr

/-- The plan without stages and without instances: every entry unwritten (log 9). -/
def Plan.bare (lat : Nat) : Plan where
  descUp := ⟨Desc.unwritten, Desc.unwritten, Desc.unwritten⟩
  descDn := ⟨Desc.unwritten, Desc.unwritten, Desc.unwritten⟩
  coefUp := ⟨[], [], []⟩
  coefDn := ⟨[], [], []⟩
  lat := lat
  rsUp := none
  rsDn := none

/-- Whether `stageSpec` gave a usable tap count and attenuation (40 R103). -/
def specOk (cfg : Cfg) (spec : Nat × Word) : Bool :=
  spec.1 % 2 = 1 && 3 ≤ spec.1 && spec.1 ≤ cfg.maxTaps && isFinite spec.2 && !flt spec.2 cZero

/-- The specifications of the stages in use, if all are usable. -/
def specsOk (cfg : Cfg) (rate : Word) (f : Nat) (stages : List Stage) : Bool :=
  stages.all fun k => specOk cfg (cfg.stageSpec rate f k .up) && specOk cfg (cfg.stageSpec rate f k .dn)

/-- The entry of stage k: `v` where the stage is in use, else the unwritten value (40 R102, log 9). -/
def entryOf {α : Type} (stages : List Stage) (unwritten : α) (v : Stage → α) : PerStage α :=
  PerStage.ofFn fun k => if k ∈ stages then v k else unwritten

/-- The descriptors of the stages in use in one direction (10 R40). -/
def planDescs (cfg : Cfg) (rate : Word) (f : Nat) (stages : List Stage) (dir : Dir) : PerStage Desc :=
  entryOf stages Desc.unwritten fun k => Desc.ofTaps (cfg.stageSpec rate f k dir).1

/-- The tables of the stages in use in one direction: designed for DN, doubled for UP (42 R168, R169). -/
def planTables (cfg : Cfg) (rate : Word) (f : Nat) (stages : List Stage) (dir : Dir) : PerStage (List Word) :=
  entryOf stages [] fun k =>
    let t := design cfg (cfg.stageSpec rate f k dir).1 (cfg.stageSpec rate f k dir).2
    match dir with
    | .up => doubled t
    | .dn => t

/-- The MIN branch of `PlanMode` (40 R103). -/
def planMin (cfg : Cfg) (rate : Word) (os : BitVec 2) : Option Plan :=
  let f := factor os
  let stages := stagesOf os
  if specsOk cfg rate f stages then
    let du := planDescs cfg rate f stages .up
    let dd := planDescs cfg rate f stages .dn
    match cascadeLatency du dd os with
    | none => none
    | some lat =>
      if cfg.latMax < lat then none
      else some
        { descUp := du, descDn := dd, coefUp := planTables cfg rate f stages .up,
          coefDn := planTables cfg rate f stages .dn, lat := lat, rsUp := none, rsDn := none }
  else none

/-- The LIN branch of `PlanMode` (40 R103). The instances of the two channels are created alike (44 R210). -/
def planLin (cfg : Cfg) (rate : Word) (os : BitVec 2) : Option Plan :=
  let f := factor os
  match rsCreateUp cfg rate f, rsCreateDn cfg rate f with
  | some up, some dn =>
    if cfg.latMax < cfg.latLin f then none
    else some { Plan.bare (cfg.latLin f) with rsUp := some up, rsDn := some dn }
  | _, _ => none

/-- `PlanMode(rate, f, phase)` (40 R103); with f = 1 there is nothing to plan. -/
def planMode (cfg : Cfg) (rate : Word) (os : BitVec 2) (phase : Phase) : Option Plan :=
  if os = 0 then some (Plan.bare 0)
  else match phase with
    | .min => planMin cfg rate os
    | .lin => planLin cfg rate os

end Sys2Proof.Machine
end

