-- ==== Sys2Proof/Machine/Waveshaper.lean ====
section
/-! DEFINITION. The waveshaper: curve coefficients and transfer function (46_waveshaper.md R240 to R242). -/

namespace Sys2Proof.Machine

/-- `CurveCoefs(curve)` (46 R241). -/
def curveCoefs (curve : Word) : Curve :=
  let cp := fsub curve cHalf
  { ca := fadd cThreeHalves cp
    cb := fmul cMinusTwo cp
    cc := fsub cp cHalf
    cd := fadd (fsub cSixteenth (fmul cQuarter cp)) (fmul cQuarter (fmul cp cp)) }

/-- The taper branch 2s − s² of 46 R242, for 1 < s < 2. -/
def shapeTaper (s : Word) : Word := fsub (fmul cTwo s) (fmul s s)

/-- The polynomial branch of 46 R242, for s ≤ 1. -/
def shapePoly (k : Curve) (s : Word) : Word :=
  let s2 := fmul s s
  let s3 := fmul s2 s
  let s4 := fmul s2 s2
  let q := fadd (fsub s2 (fmul cTwo s3)) s4
  fsub (fadd (fadd (fmul k.ca s) (fmul k.cb s2)) (fmul k.cc s3)) (fmul k.cd q)

/-- The magnitude that 46 R242 gives a sign to. -/
def shapeMag (k : Curve) (s : Word) : Word := if flt cOne s then shapeTaper s else shapePoly k s

/-- `Shape(x)` (46 R242). For a NaN no comparison holds and the result is unspecified: here the NaN of the polynomial branch,
which 40 R118 then catches (log 21). -/
def shape (k : Curve) (x : Word) : Word :=
  let s := fabs x
  if feq x cZero then cZero
  else if fle cTwo s then cZero
  else if flt x cZero then fneg (shapeMag k s)
  else shapeMag k s

end Sys2Proof.Machine
end

