-- ==== Sys2Proof/Machine/Splitter.lean ====
section
/-! DEFINITION. BandSplitter: coefficients, the two first-order sections, the shaped bands (45_band_splitter.md R220 to R226). -/

namespace Sys2Proof.Machine

open Sys2Proof.Config (Cfg)

/-- `coefOf(corner)` at the oversampled rate (45 R220). -/
def splitCoef (cfg : Cfg) (corner wrate : Word) : Word :=
  fadd (fmul cHalf (cfg.fTan (fmul cPi (fsub (fdiv corner wrate) cQuarter)))) cHalf

/-- One section (45 R224): its new output and its new internal state, from its state, its coefficient and the input. -/
def splitSection (state coef v : Word) : Word × Word :=
  let out := fadd state (fmul coef (fsub v state))
  (out, fsub (fmul cTwo out) state)

/-- The three bands of a sub-sample (45 R224). -/
structure Bands where
  low : Word
  mid : Word
  high : Word
deriving DecidableEq, Repr

/-- `SplitStep(ch, v)` (45 R224): the bands, and the channel with its running values updated. -/
def splitStep (c : Core) (ch : Channel) (v : Word) : Bands × Channel :=
  let (lp, lps) := splitSection ch.lps c.cl v
  let (hp, hps) := splitSection ch.hps c.ch v
  (⟨lp, fsub hp lp, fsub v hp⟩, { ch with lps := lps, lpy := lp, hps := hps, hpy := hp })

/-- The three shaped bands `sl`, `sm`, `sh` (45 R226): the mid band scaled by `G` before the waveshaper and by `GR` after. -/
def shapeBands (c : Core) (b : Bands) : Bands :=
  ⟨shape c.curve b.low, fmul c.gr (shape c.curve (fmul c.g b.mid)), shape c.curve b.high⟩

/-- What `NonLin` gives for one sub-sample or for a frame of them: the results, the channel after, the values 40 R118 checks. -/
structure NonLinRun where
  out : List Word
  chan : Channel
  seen : List Word
deriving DecidableEq, Repr

/-- `SplitShape(ch, v)` (45 R226). The argument `fl(G × mid)` of `Shape` is exempt from the finiteness check (40 R118). -/
def splitShape (c : Core) (ch : Channel) (v : Word) : NonLinRun :=
  let (b, ch') := splitStep c ch v
  let t := shapeBands c b
  let r := fadd (fadd t.low t.mid) t.high
  ⟨[r], ch', [ch'.lpy, ch'.hpy, b.low, b.mid, b.high, ch'.lps, ch'.hps, t.low, t.mid, t.high, r]⟩

/-- `NonLin(ch, v)` (40 R114). -/
def nonLin (c : Core) (ch : Channel) (v : Word) : NonLinRun :=
  if c.active.split then splitShape c ch v
  else ⟨[shape c.curve v], ch, [shape c.curve v]⟩

/-- `NonLin` over the sub-samples of a frame, in this order (40 R110). -/
def nonLinAll (c : Core) : Channel → List Word → NonLinRun
  | ch, [] => ⟨[], ch, []⟩
  | ch, v :: vs =>
    let r := nonLin c ch v
    let rest := nonLinAll c r.chan vs
    ⟨r.out ++ rest.out, rest.chan, r.seen ++ rest.seen⟩

end Sys2Proof.Machine
end

