-- ==== Sys2Proof/Machine/Lifecycle.lean ====
section
/-! DEFINITION. The lifecycle commands RESET, PREPARE, START, STOP (40_lifecycle_commands.md R100 to R106). -/

namespace Sys2Proof.Machine

open Sys2Proof.Config (Cfg)

/-! ### RESET -/

/-- Every piece of the core's state at its reset value (40 R101); the port and the count of free values are not the core's. -/
def State.resetCore (s : State) : State := s.setCore Core.reset

/-- RESET (40 R101): allowed in every state. -/
def execReset (s : State) : Host.Outcome State Fault Refusal := .next (s.resetCore.respond .ok [])

/-! ### PREPARE -/

/-- Checks 2 to 6 of PREPARE in their order (40 R102, 60 R308); check 1 is the decoder's. Gives the supported stream format, or
the code of the first check that fails. -/
def prepareChecks (c : Core) (nch fmt : BitVec 4) (rate : Word) : Except RespCode (Channels × SampleFormat) :=
  if c.life = .active ∨ c.life = .inblock then .error .eState
  else match channelsOf nch, formatOf fmt with
    | some chs, some sf =>
      if !isPositiveFinite rate then .error .eRange
      else if !c.xloW || !c.xhiW || !c.decayW then .error .eConfig
      else if !flt c.pending.xlo (fdiv rate cTwo) || !flt c.pending.xhi (fdiv rate cTwo) then .error .eRange
      else .ok (chs, sf)
    | _, _ => .error .eFormat

/-- The active parameters after PREPARE: registers 6 to 11 commit, 0 to 5 stay (40 R102, 10 R20). -/
def commitPrepare (active pending : Params) : Params :=
  { active with
    os := pending.os, phase := pending.phase, xlo := pending.xlo, xhi := pending.xhi,
    envm := pending.envm, decay := pending.decay }

/-- A channel's files after PREPARE (40 R102): histories of +0.0 at their new lengths, running values +0.0, envelopes −100.0,
the queue resized, the planned Resampler instances. -/
def prepareChannel (plan : Plan) (ch : Channel) : Channel where
  hup := PerStage.ofFn fun k => zeros (plan.descUp.get k).c
  hdn := PerStage.ofFn fun k => zeros ((plan.descDn.get k).n - 2)
  lps := cZero
  lpy := cZero
  hps := cZero
  hpy := cZero
  lq := resize ch.lq plan.lat
  envIn := cMinusHundred
  envOut := cMinusHundred
  rsUp := plan.rsUp
  rsDn := plan.rsDn

/-- The core after a successful PREPARE (40 R102), written as one atomic step. -/
def prepareCommit (cfg : Cfg) (c : Core) (chs : Channels) (sf : SampleFormat) (rate : Word) (plan : Plan) : Core :=
  let wrate := fmul (ofNat64 (factor c.pending.os)) rate
  let cl := splitCoef cfg c.pending.xlo wrate
  let ch := splitCoef cfg c.pending.xhi wrate
  let g := cfg.midGain cl ch
  let env := envCoefs cfg rate c.pending.decay
  { c with
    rate := rate, nch := chs, fmt := sf, active := commitPrepare c.active c.pending, wrate := wrate,
    descUp := plan.descUp, descDn := plan.descDn, coefUp := plan.coefUp, coefDn := plan.coefDn,
    cl := cl, ch := ch, g := g, gr := fdiv cOne g, aatt := env.1, arel := env.2,
    chan0 := prepareChannel plan c.chan0, chan1 := prepareChannel plan c.chan1,
    lat := plan.lat, latchg := false, life := .ready }

/-- PREPARE for a configuration (40 R102): the checks in order, then the planning, then the commit. -/
def prepareWith (cfg : Cfg) (nch fmt : BitVec 4) (rate : Word) (s : State) : State :=
  match prepareChecks s.core nch fmt rate with
  | .error code => s.refuse code
  | .ok (chs, sf) =>
    match planMode cfg rate s.core.pending.os s.core.pending.phase with
    | none => s.refuse .eConfig
    | some plan => s.finish (prepareCommit cfg s.core chs sf rate plan) []

/-- PREPARE (40 R102). -/
def execPrepare (nch fmt : BitVec 4) (rate : Word) (s : State) : Host.Outcome State Fault Refusal :=
  .next (prepareWith Config.cfg nch fmt rate s)

/-! ### START and STOP -/

/-- What START and STOP do to a channel (40 R105): the clears, and in LIN mode with f > 1 fresh Resampler instances. -/
def restartChannel (cfg : Cfg) (c : Core) (ch : Channel) : Channel :=
  if c.active.phase = .lin ∧ c.active.os ≠ 0 then
    { ch.clearFilters with
      rsUp := rsCreateUp cfg c.rate (factor c.active.os), rsDn := rsCreateDn cfg c.rate (factor c.active.os) }
  else ch.clearFilters

/-- The core with both channels restarted, in the lifecycle state given (40 R105, R106). -/
def restart (cfg : Cfg) (c : Core) (life : Life) : Core :=
  { c with chan0 := restartChannel cfg c c.chan0, chan1 := restartChannel cfg c c.chan1, life := life }

/-- START for a configuration (40 R105): allowed in READY. -/
def startWith (cfg : Cfg) (s : State) : State :=
  if s.core.life = .ready then s.finish (restart cfg s.core .active) [] else s.refuse .eState

/-- START (40 R105). -/
def execStart (s : State) : Host.Outcome State Fault Refusal := .next (startWith Config.cfg s)

/-- STOP for a configuration (40 R106): allowed in ACTIVE. -/
def stopWith (cfg : Cfg) (s : State) : State :=
  if s.core.life = .active then s.finish (restart cfg s.core .ready) [] else s.refuse .eState

/-- STOP (40 R106). -/
def execStop (s : State) : Host.Outcome State Fault Refusal := .next (stopWith Config.cfg s)

end Sys2Proof.Machine
end

