-- ==== Sys2Proof/Machine/Parameters.lean ====
section
/-! DEFINITION. The twelve SET commands (41_parameter_commands.md R130 to R142): each writes only the pending copy of its register
and, for registers 8, 9 and 11, its written flag; each is allowed in every lifecycle state. -/

namespace Sys2Proof.Machine

/-- A SET whose operand is legal: the core with the register written, `OK`, no result word (41 R130). -/
def State.setParam (s : State) (c : Core) : Host.Outcome State Fault Refusal := .next (s.finish c [])

/-- A SET with an operand range (41 R130): `E_RANGE` outside it, the pending copy as it was. -/
def State.setRanged (s : State) (legal : Bool) (c : Core) : Host.Outcome State Fault Refusal :=
  .next (if legal then s.finish c [] else s.refuse .eRange)

/-- SETIG (41 R131). -/
def execSetig (v : Word) (s : State) : Host.Outcome State Fault Refusal :=
  s.setRanged (isFinite v) { s.core with pending := { s.core.pending with ig := v } }

/-- SETOG (41 R132). -/
def execSetog (v : Word) (s : State) : Host.Outcome State Fault Refusal :=
  s.setRanged (isFinite v) { s.core with pending := { s.core.pending with og := v } }

/-- SETMIX (41 R133). −0.0 is accepted and stored as given. -/
def execSetmix (v : Word) (s : State) : Host.Outcome State Fault Refusal :=
  s.setRanged (inUnitRange v) { s.core with pending := { s.core.pending with mix := v } }

/-- SETCURVE (41 R134). -/
def execSetcurve (v : Word) (s : State) : Host.Outcome State Fault Refusal :=
  s.setRanged (inUnitRange v) { s.core with pending := { s.core.pending with curve := v } }

/-- SETCLIP (41 R135). -/
def execSetclip (b : Bool) (s : State) : Host.Outcome State Fault Refusal :=
  s.setParam { s.core with pending := { s.core.pending with clip := b } }

/-- SETSPLIT (41 R136). -/
def execSetsplit (b : Bool) (s : State) : Host.Outcome State Fault Refusal :=
  s.setParam { s.core with pending := { s.core.pending with split := b } }

/-- SETOS (41 R137): all four codes are legal; the mode itself does not change. -/
def execSetos (code : BitVec 2) (s : State) : Host.Outcome State Fault Refusal :=
  s.setParam { s.core with pending := { s.core.pending with os := code } }

/-- SETPHASE (41 R138). -/
def execSetphase (p : Phase) (s : State) : Host.Outcome State Fault Refusal :=
  s.setParam { s.core with pending := { s.core.pending with phase := p } }

/-- SETXLO (41 R139): sets `XLO_W`. -/
def execSetxlo (v : Word) (s : State) : Host.Outcome State Fault Refusal :=
  s.setRanged (isPositiveFinite v) { s.core with pending := { s.core.pending with xlo := v }, xloW := true }

/-- SETXHI (41 R140): sets `XHI_W`. -/
def execSetxhi (v : Word) (s : State) : Host.Outcome State Fault Refusal :=
  s.setRanged (isPositiveFinite v) { s.core with pending := { s.core.pending with xhi := v }, xhiW := true }

/-- SETENVM (41 R141). -/
def execSetenvm (m : EnvMode) (s : State) : Host.Outcome State Fault Refusal :=
  s.setParam { s.core with pending := { s.core.pending with envm := m } }

/-- SETDECAY (41 R142): sets `DECAY_W`. -/
def execSetdecay (v : Word) (s : State) : Host.Outcome State Fault Refusal :=
  s.setRanged (isPositiveFinite v) { s.core with pending := { s.core.pending with decay := v }, decayW := true }

end Sys2Proof.Machine
end

