-- ==== Sys2Proof/Machine/Processing.lean ====
section
/-! DEFINITION. The processing commands BLKBEGIN, FRAME, BLKEND (40_lifecycle_commands.md R108 to R119). -/

namespace Sys2Proof.Machine

open Sys2Proof.Config (Cfg)

/-! ### BLKBEGIN -/

/-- The active parameters after BLKBEGIN: registers 0 to 5 commit, 6 to 11 stay (40 R108, 10 R20). -/
def commitBlock (active pending : Params) : Params :=
  { active with
    ig := pending.ig, og := pending.og, mix := pending.mix, curve := pending.curve,
    clip := pending.clip, split := pending.split }

/-- The core after BLKBEGIN (40 R108). `LATCHG` is set where the pending mode differs, never cleared here. -/
def beginBlock (c : Core) : Core :=
  { c with
    active := commitBlock c.active c.pending, curve := curveCoefs c.pending.curve,
    latchg := c.latchg || c.modeDiffers, blkcnt := 0, life := .inblock }

/-- BLKBEGIN (40 R108): allowed in ACTIVE. -/
def execBlkbegin (s : State) : Host.Outcome State Fault Refusal :=
  .next (if s.core.life = .active then s.finish (beginBlock s.core) [] else s.refuse .eState)

/-! ### FRAME -/

/-- `GainClip(x)` (40 R112): input gain, then the hard clip where it is on; a NaN passes unchanged. -/
def gainClip (c : Core) (x : Word) : Word :=
  let t := fmul x c.active.ig
  if c.active.clip then
    (if flt clipLimit t then clipLimit else if flt t (fneg clipLimit) then fneg clipLimit else t)
  else t

/-- What a rate conversion of a channel gives: its samples, the channel after, whether the Resampler answered a wrong count,
the values 40 R118 checks, and how many free values were used. -/
structure RateRun where
  out : List Word
  chan : Channel
  fault : Bool
  seen : List Word
  used : Nat
deriving DecidableEq, Repr

/-- `Up(ch, d)` (40 R113). -/
def convertUp (cfg : Cfg) (c : Core) (n : Nat) (ch : Channel) (d : Word) : RateRun :=
  if c.active.os = 0 then ⟨[d], ch, false, [], 0⟩
  else match c.active.phase with
    | .min =>
      let r := cascadeUp c ch.hup d
      ⟨r.out, { ch with hup := r.hist }, false, r.seen, 0⟩
    | .lin =>
      let r := resample cfg n ch.rsUp [d] (factor c.active.os)
      ⟨r.out, { ch with rsUp := r.inst }, r.fault, r.seen, r.used⟩

/-- `Down(ch, p)` (40 R115). -/
def convertDown (cfg : Cfg) (c : Core) (n : Nat) (ch : Channel) (p : List Word) : RateRun :=
  if c.active.os = 0 then ⟨p, ch, false, [], 0⟩
  else match c.active.phase with
    | .min =>
      let r := cascadeDown c ch.hdn p
      ⟨r.out, { ch with hdn := r.hist }, false, r.seen, 0⟩
    | .lin =>
      let r := resample cfg n ch.rsDn p 1
      ⟨r.out, { ch with rsDn := r.inst }, r.fault, r.seen, r.used⟩

/-- What FRAME does on one channel before the finiteness check: the output sample, the channel after, the sticky
`ResamplerFault`, whether every checked value is finite, and how many free values were used. -/
structure ChannelRun where
  y : Word
  chan : Channel
  rsFault : Bool
  finite : Bool
  used : Nat
deriving DecidableEq, Repr

/-- The sample path of one channel (40 R110 to R118), `n` free values being used up. -/
def processChannel (cfg : Cfg) (c : Core) (n : Nat) (ch : Channel) (x : Word) : ChannelRun :=
  let d := gainClip c x
  let up := convertUp cfg c n ch d
  let nl := nonLinAll c up.chan up.out
  let dn := convertDown cfg c (n + up.used) nl.chan nl.out
  let w := memRead dn.out 0
  let al := align dn.chan.lq d
  let m := mixWetDry c.active.mix w al.1
  let y := fmul m c.active.og
  let envIn := envUpdate cfg c dn.chan.envIn al.1
  let envOut := envUpdate cfg c dn.chan.envOut y
  { y := y
    chan := { dn.chan with lq := al.2, envIn := envIn, envOut := envOut }
    rsFault := up.fault || dn.fault
    finite := allFinite ([x, d] ++ up.seen ++ nl.seen ++ dn.seen ++ [w, al.1, m, y, envIn, envOut]) && outFinite c.fmt y
    used := up.used + dn.used }

/-- What FRAME leaves of one channel: its result word, the channel, the two sticky faults, the free values used. -/
structure ChannelResult where
  res : Word
  chan : Channel
  rsFault : Bool
  nonFinite : Bool
  used : Nat
deriving DecidableEq, Repr

/-- One channel of FRAME (40 R110, R118). After `NonFinite` the result word and the channel's files are unspecified (93 U1): free values
(log 11). DESIGN CHOICE: they depend on the number `n` of free values used before and on nothing else of the run (log 32). -/
def frameChannel (cfg : Cfg) (c : Core) (n : Nat) (ch : Channel) (opd : Word) : ChannelResult :=
  let r := processChannel cfg c n ch (sampleIn c.fmt opd)
  if r.finite then ⟨sampleOut c.fmt r.y, r.chan, r.rsFault, false, r.used⟩
  else
    let sc := scrambleChannel cfg.freeWord (n + r.used + 1) r.chan
    ⟨cfg.freeWord (n + r.used), sc.1, r.rsFault, true, r.used + 1 + sc.2⟩

/-- A channel that FRAME does not touch (10 R50). -/
def idleChannel (ch : Channel) : ChannelResult := ⟨cZero, ch, false, false, 0⟩

/-- The two channels of a FRAME, channel 0 first; with `NCH` = 1 channel 1 is left alone (10 R50). -/
def frameChannels (cfg : Cfg) (c : Core) (n : Nat) (samples : List Word) : ChannelResult × ChannelResult :=
  let r0 := frameChannel cfg c n c.chan0 (memRead samples 0)
  match c.nch with
  | .mono => (r0, idleChannel c.chan1)
  | .stereo => (r0, frameChannel cfg c (n + r0.used) c.chan1 (memRead samples 1))

/-- The core after a FRAME whose channels gave `r` (40 R110). -/
def frameCore (c : Core) (r : ChannelResult × ChannelResult) : Core :=
  { c with
    chan0 := r.1.chan, chan1 := r.2.chan,
    nonfin := c.nonfin || r.1.nonFinite || r.2.nonFinite,
    rsfault := c.rsfault || r.1.rsFault || r.2.rsFault,
    blkcnt := satIncr c.blkcnt }

/-- FRAME for a configuration (40 R110): allowed in INBLOCK, where it always answers OK with `NCH` result words. -/
def frameWith (cfg : Cfg) (samples : List Word) (s : State) : State :=
  if s.core.life = .inblock then
    let r := frameChannels cfg s.core s.freeCount samples
    let s' := s.finish (frameCore s.core r) ([r.1.res, r.2.res].take s.core.nch.count)
    { s' with freeCount := s.freeCount + r.1.used + r.2.used }
  else s.refuse .eState

/-- FRAME (40 R110). -/
def execFrame (samples : List Word) (s : State) : Host.Outcome State Fault Refusal :=
  .next (frameWith Config.cfg samples s)

/-! ### BLKEND -/

/-- The meter record of a block (40 R119, 10 R52), `M_GR` being the free value number `n` (93 U7). -/
def meterRecord (cfg : Cfg) (c : Core) (n : Nat) : Meter :=
  let lv := level cfg c.active.envm
  { rate := c.rate, num := c.blkcnt.setWidth 64
    inL := lv c.chan0.envIn, inR := lv c.chan1.envIn, outL := lv c.chan0.envOut, outR := lv c.chan1.envOut
    gr := cfg.grMetric n, stamp := (c.mseq + 1).setWidth 64 }

/-- The core after BLKEND (40 R119). -/
def endBlock (cfg : Cfg) (c : Core) (n : Nat) : Core :=
  { c with mseq := c.mseq + 1, meter := meterRecord cfg c n, life := .active }

/-- BLKEND for a configuration (40 R119): allowed in INBLOCK. -/
def blkendWith (cfg : Cfg) (s : State) : State :=
  if s.core.life = .inblock then
    { s.finish (endBlock cfg s.core s.freeCount) [] with freeCount := s.freeCount + 1 }
  else s.refuse .eState

/-- BLKEND (40 R119). -/
def execBlkend (s : State) : Host.Outcome State Fault Refusal := .next (blkendWith Config.cfg s)

end Sys2Proof.Machine
end

