-- ==== Sys2Proof/Machine/Queries.lean ====
section
/-! DEFINITION. The queries GETLAT, GETSTAT, GETMETER (41_parameter_commands.md R145 to R147): allowed in every lifecycle state,
they change no state of the core. -/

namespace Sys2Proof.Machine

/-- The eight words of the mailbox in order (10 R52). -/
def Meter.words (m : Meter) : List Word := [m.rate, m.num, m.inL, m.inR, m.outL, m.outR, m.gr, m.stamp]

/-- GETLAT (41 R145): `zext_64(LAT)`, the active latency (a `LAT` of 2^64 or more shows its low 64 bits, log 18). -/
def execGetlat (s : State) : Host.Outcome State Fault Refusal := .next (s.respond .ok [BitVec.ofNat 64 s.core.lat])

/-- GETSTAT (41 R146): `zext_64(STATUS)`; it clears nothing. -/
def execGetstat (s : State) : Host.Outcome State Fault Refusal := .next (s.respond .ok [s.core.status.setWidth 64])

/-- GETMETER (41 R147): the mailbox, word 0 first. -/
def execGetmeter (s : State) : Host.Outcome State Fault Refusal := .next (s.respond .ok s.core.meter.words)

end Sys2Proof.Machine
end

