-- ==== Sys2Proof/Machine/Dispatch.lean ====
section
/-! DEFINITION. The dispatch: one arm per command, in the order of the opcode table (30_encoding.md R86). -/

namespace Sys2Proof.Machine

def exec (i : Instr) (s : State) : Host.Outcome State Fault Refusal :=
  match i with
  | .reset => Sys2Proof.Machine.execReset s
  | .prepare nch fmt rate => Sys2Proof.Machine.execPrepare nch fmt rate s
  | .start => Sys2Proof.Machine.execStart s
  | .stop => Sys2Proof.Machine.execStop s
  | .blkbegin => Sys2Proof.Machine.execBlkbegin s
  | .frame samples => Sys2Proof.Machine.execFrame samples s
  | .blkend => Sys2Proof.Machine.execBlkend s
  | .setig v => Sys2Proof.Machine.execSetig v s
  | .setog v => Sys2Proof.Machine.execSetog v s
  | .setmix v => Sys2Proof.Machine.execSetmix v s
  | .setcurve v => Sys2Proof.Machine.execSetcurve v s
  | .setclip b => Sys2Proof.Machine.execSetclip b s
  | .setsplit b => Sys2Proof.Machine.execSetsplit b s
  | .setos code => Sys2Proof.Machine.execSetos code s
  | .setphase p => Sys2Proof.Machine.execSetphase p s
  | .setxlo v => Sys2Proof.Machine.execSetxlo v s
  | .setxhi v => Sys2Proof.Machine.execSetxhi v s
  | .setenvm m => Sys2Proof.Machine.execSetenvm m s
  | .setdecay v => Sys2Proof.Machine.execSetdecay v s
  | .getlat => Sys2Proof.Machine.execGetlat s
  | .getstat => Sys2Proof.Machine.execGetstat s
  | .getmeter => Sys2Proof.Machine.execGetmeter s

end Sys2Proof.Machine
end

