-- ==== Sys2Proof/WellFormed.lean ====
section
/-! DEFINITION. Which terms of `Instr` are commands the port can carry (30_encoding.md R80, R82). -/

namespace Sys2Proof

/-- FRAME carries `NCH` sample words and `NCH` is at most 2 (30 R82, 00 R6 `NCH_MAX`); none in UNCONF (40 R110).
Every other operand is bounded by its own type. -/
def Instr.wellFormed : Instr → Bool
  | .frame samples => samples.length ≤ 2
  | .reset | .prepare _ _ _ | .start | .stop | .blkbegin | .blkend => true
  | .setig _ | .setog _ | .setmix _ | .setcurve _ | .setclip _ | .setsplit _ | .setos _ | .setphase _ => true
  | .setxlo _ | .setxhi _ | .setenvm _ | .setdecay _ => true
  | .getlat | .getstat | .getmeter => true

/-- The check as a proposition. -/
abbrev WellFormed (i : Instr) : Prop := i.wellFormed = true

end Sys2Proof
end

