-- ==== Sys2Proof/Decode.lean ====
section
/-! DEFINITION. Decoding and encoding of commands (30_encoding.md R80 to R92). -/

namespace Sys2Proof

/-- The 22 opcodes of 30 R86. -/
inductive Op
  | reset | prepare | start | stop | blkbegin | frame | blkend
  | setig | setog | setmix | setcurve | setclip | setsplit | setos | setphase
  | setxlo | setxhi | setenvm | setdecay
  | getlat | getstat | getmeter
deriving DecidableEq, Repr

/-- The formats of 30 R82. -/
inductive Format
  | z | p | f | d | b | o | g
deriving DecidableEq, Repr

/-- Why a command word is not a command (30 R91, R92). -/
inductive Reject
  /-- 30 R91: `op` is not in the opcode map. -/
  | illegalOpcode
  /-- 30 R92: a reserved bit of `imm` is 1. -/
  | reservedBits
  /-- Fewer or more operand words than the format takes; the fetch hands over exactly as many (30 R80). -/
  | operandCount
deriving DecidableEq, Repr

/-- The `op` byte of an opcode: the opcode map of 30 R86. -/
def Op.code : Op → BitVec 8
  | .reset => 0x01 | .prepare => 0x02 | .start => 0x03 | .stop => 0x04
  | .blkbegin => 0x08 | .frame => 0x09 | .blkend => 0x0A
  | .setig => 0x10 | .setog => 0x11 | .setmix => 0x12 | .setcurve => 0x13 | .setclip => 0x14 | .setsplit => 0x15
  | .setos => 0x16 | .setphase => 0x17 | .setxlo => 0x18 | .setxhi => 0x19 | .setenvm => 0x1A | .setdecay => 0x1B
  | .getlat => 0x20 | .getstat => 0x21 | .getmeter => 0x22

/-- Every opcode of 30 R86, in the order of the table. -/
def allOps : List Op :=
  [.reset, .prepare, .start, .stop, .blkbegin, .frame, .blkend,
   .setig, .setog, .setmix, .setcurve, .setclip, .setsplit, .setos, .setphase, .setxlo, .setxhi, .setenvm, .setdecay,
   .getlat, .getstat, .getmeter]

/-- The format of an opcode (30 R86). -/
def Op.format : Op → Format
  | .reset | .start | .stop | .blkbegin | .blkend => .z
  | .prepare => .p
  | .frame => .f
  | .setig | .setog | .setmix | .setcurve | .setxlo | .setxhi | .setdecay => .d
  | .setclip | .setsplit | .setphase | .setenvm => .b
  | .setos => .o
  | .getlat | .getstat | .getmeter => .g

/-- The bits of `imm` that a format names; the others are reserved (30 R82). -/
def Format.usedImm : Format → BitVec 24
  | .p => 0x0000FF
  | .b => 0x000001
  | .o => 0x000003
  | .z | .f | .d | .g => 0

/-- How many operand words a format takes (30 R82), where FRAME takes `frameOperands`. -/
def Format.operandWords (frameOperands : Nat) : Format → Nat
  | .p | .d => 1
  | .f => frameOperands
  | .z | .b | .o | .g => 0

/-- `op` = `CW[31:24]` (30 R81). -/
def opField (cw : CmdWord) : BitVec 8 := cw.extractLsb' 24 8

/-- `imm` = `CW[23:0]` (30 R81). -/
def immField (cw : CmdWord) : BitVec 24 := cw.extractLsb' 0 24

/-- The opcode of a command word, if its `op` is in the map (30 R87). -/
def opOf (cw : CmdWord) : Option Op := allOps.find? fun op => op.code == opField cw

/-- How many operand words the core consumes for a command word: none for an illegal opcode (30 R91), those of the format
otherwise, reserved bits set or not (30 R92). -/
def operandWords (frameOperands : Nat) (cw : CmdWord) : Nat :=
  match opOf cw with
  | none => 0
  | some op => op.format.operandWords frameOperands

/-- The phase mode of `imm[0]` (41 R138). -/
def phaseOf (b : Bool) : Phase := if b then .lin else .min

/-- The envelope mode of `imm[0]` (41 R141). -/
def envModeOf (b : Bool) : EnvMode := if b then .rms else .peak

/-- The command that an opcode, its immediate and its operand words spell (30 R82, R83, R85). -/
def assemble (op : Op) (imm : BitVec 24) (opds : List Word) : Option Instr :=
  match op, opds with
  | .reset, [] => some .reset
  | .prepare, [rate] => some (.prepare (imm.extractLsb' 0 4) (imm.extractLsb' 4 4) rate)
  | .start, [] => some .start
  | .stop, [] => some .stop
  | .blkbegin, [] => some .blkbegin
  | .frame, samples => if samples.length ≤ 2 then some (.frame samples) else none
  | .blkend, [] => some .blkend
  | .setig, [v] => some (.setig v)
  | .setog, [v] => some (.setog v)
  | .setmix, [v] => some (.setmix v)
  | .setcurve, [v] => some (.setcurve v)
  | .setclip, [] => some (.setclip (imm.getLsbD 0))
  | .setsplit, [] => some (.setsplit (imm.getLsbD 0))
  | .setos, [] => some (.setos (imm.extractLsb' 0 2))
  | .setphase, [] => some (.setphase (phaseOf (imm.getLsbD 0)))
  | .setxlo, [v] => some (.setxlo v)
  | .setxhi, [v] => some (.setxhi v)
  | .setenvm, [] => some (.setenvm (envModeOf (imm.getLsbD 0)))
  | .setdecay, [v] => some (.setdecay v)
  | .getlat, [] => some .getlat
  | .getstat, [] => some .getstat
  | .getmeter, [] => some .getmeter
  | _, _ => none

/-- Decoding (30 R87): the opcode first, then the reserved bits of its format, then the operand words. Total: every
command word is exactly one command or is rejected by name. -/
def decode (cw : CmdWord) (opds : List Word) : Except Reject Instr :=
  match opOf cw with
  | none => .error .illegalOpcode
  | some op =>
    if immField cw &&& ~~~op.format.usedImm ≠ 0 then .error .reservedBits
    else match assemble op (immField cw) opds with
      | some i => .ok i
      | none => .error .operandCount

/-! ### The encoder -/

/-- The opcode of a command. -/
def Instr.op : Instr → Op
  | .reset => .reset
  | .prepare _ _ _ => .prepare
  | .start => .start
  | .stop => .stop
  | .blkbegin => .blkbegin
  | .frame _ => .frame
  | .blkend => .blkend
  | .setig _ => .setig
  | .setog _ => .setog
  | .setmix _ => .setmix
  | .setcurve _ => .setcurve
  | .setclip _ => .setclip
  | .setsplit _ => .setsplit
  | .setos _ => .setos
  | .setphase _ => .setphase
  | .setxlo _ => .setxlo
  | .setxhi _ => .setxhi
  | .setenvm _ => .setenvm
  | .setdecay _ => .setdecay
  | .getlat => .getlat
  | .getstat => .getstat
  | .getmeter => .getmeter

/-- The immediate of a command: the named sub-fields of its format in place, every reserved bit 0 (30 R82). -/
def Instr.imm : Instr → BitVec 24
  | .prepare nch fmt _ => ((0 : BitVec 16) ++ fmt ++ nch).setWidth 24
  | .setclip b | .setsplit b => (BitVec.ofBool b).setWidth 24
  | .setos code => code.setWidth 24
  | .setphase p => (BitVec.ofBool (p = .lin)).setWidth 24
  | .setenvm m => (BitVec.ofBool (m = .rms)).setWidth 24
  | .reset | .start | .stop | .blkbegin | .frame _ | .blkend => 0
  | .setig _ | .setog _ | .setmix _ | .setcurve _ | .setxlo _ | .setxhi _ | .setdecay _ => 0
  | .getlat | .getstat | .getmeter => 0

/-- The operand words of a command, `OPD[0]` first (30 R82). -/
def Instr.operands : Instr → List Word
  | .prepare _ _ rate => [rate]
  | .frame samples => samples
  | .setig v | .setog v | .setmix v | .setcurve v | .setxlo v | .setxhi v | .setdecay v => [v]
  | .reset | .start | .stop | .blkbegin | .blkend => []
  | .setclip _ | .setsplit _ | .setos _ | .setphase _ | .setenvm _ => []
  | .getlat | .getstat | .getmeter => []

/-- The words of a command: the command word and its operand words (30 R80, R81). -/
def encode (i : Instr) : CmdWord × List Word := ((i.op.code ++ i.imm).setWidth 32, i.operands)

/-! ### The opcode table's numbering -/

/-- The first `n` operand words held in the bits of a number, 64 bits each, the lowest first. -/
def operandsOfNat : Nat → Nat → List Word
  | 0, _ => []
  | n + 1, w => BitVec.ofNat 64 w :: operandsOfNat n (w / 2 ^ 64)

/-- The command word in the low 32 bits of a table word of `nbits` bits. -/
def tableCmdWord (nbits w : Nat) : CmdWord := BitVec.ofNat 32 (w % 2 ^ nbits)

/-- The operand words of a table word: the bits above 31, 64 each, zero above `nbits`. -/
def tableOperands (n nbits w : Nat) : List Word := operandsOfNat n (w % 2 ^ nbits / 2 ^ 32)

/-- What the decoder reads from a table word of `nbits` bits. The number of operand words is the format's; FRAME's depends on
the state (30 R87) and the table gives it no bits, so FRAME has as many here as `nbits` leaves room for: none for 32 bits, as
right after reset (40 R110). -/
def decodeTableWord (nbits w : Nat) : Option Instr :=
  (decode (tableCmdWord nbits w)
    (tableOperands (operandWords ((nbits - 32) / 64) (tableCmdWord nbits w)) nbits w)).toOption

end Sys2Proof
end

