-- ==== Sys2Proof/Machine/Fetch.lean ====
section
/-! DEFINITION. The command port's input side: what the next move of the environment is, and the moves that are no command
(30_encoding.md R80, R91, R92, 70_reset_and_hazards.md R331, R338, R341). -/

namespace Sys2Proof.Machine

/-- How many operand words FRAME takes: `NCH`, or none in UNCONF, where `NCH` is unwritten (40 R110). -/
def Core.frameOperands (c : Core) : Nat :=
  match c.life with
  | .unconf => 0
  | .ready | .active | .inblock => c.nch.count

/-- How many operand words the core consumes for a command word in its present state (30 R82, R91, R92). -/
def State.operandsFor (s : State) (cw : CmdWord) : Nat := operandWords s.core.frameOperands cw

/-- The state after the port has handed over the command word at its head and `n` operand words. -/
def State.popCommand (s : State) (n : Nat) : State :=
  { s with port := { s.port with moves := s.port.moves.tail, operands := s.port.operands.drop n } }

/-- The state after a move that takes no operand word. -/
def State.popMove (s : State) : State := { s with port := { s.port with moves := s.port.moves.tail } }

/-- What the port holds for the core. -/
inductive Fetched
  /-- No move is left, or the command at the head lacks operand words: the core waits. -/
  | wait
  /-- A command, and the state with its words consumed. -/
  | run (i : Instr) (s : State)
  /-- An illegal command (30 R91, R92), and the state with its words consumed. -/
  | illegal (s : State)
  /-- The reset pin (70 R331), and the state with the pulse consumed. -/
  | pin (s : State)
  /-- The meter observer reads (70 R338), and the state with the move consumed. -/
  | observe (s : State)
deriving DecidableEq, Repr

/-- Takes the next move from the port (30 R80, R87). A command is taken whole: its command word with all its operand words
(log 1). -/
def fetch (s : State) : Fetched :=
  match s.port.moves with
  | [] => .wait
  | .resetPin :: _ => .pin s.popMove
  | .observe :: _ => .observe s.popMove
  | .command cw :: _ =>
    let n := s.operandsFor cw
    if s.port.operands.length < n then .wait
    else match decode cw (s.port.operands.take n) with
      | .ok i => .run i (s.popCommand n)
      | .error _ => .illegal (s.popCommand n)

/-- A pulse of the reset pin: RESET without a response (40 R101, 70 R330, R331). -/
def State.pulseReset (s : State) : State := s.setCore Core.reset

/-- The meter observer reads the whole record (20 R71, 70 R338): no state of the core changes. -/
def State.readMeter (s : State) : State :=
  { s with port := { s.port with observed := s.port.observed ++ [s.core.meter] } }

/-- An illegal command (30 R91, R92): refused with `E_ILLEGAL`. -/
def State.refuseIllegal (s : State) : State := s.refuse .eIllegal

/-- The state with a command put at the head of the port: its command word the next move, its operand words the next ones
consumed. -/
def State.placeCommand (s : State) (cw : CmdWord) (opds : List Word) : State :=
  { s with port := { s.port with moves := .command cw :: s.port.moves, operands := opds ++ s.port.operands } }

/-- The command of a table word of `nbits` bits (low 32 bits the command word, 64 bits each operand word) put at the head of
the port, with as many operand words as the core consumes for it. -/
def State.placeTableWord (s : State) (nbits w : Nat) : State :=
  s.placeCommand (tableCmdWord nbits w) (tableOperands (s.operandsFor (tableCmdWord nbits w)) nbits w)

end Sys2Proof.Machine
end

