-- ==== Sys2Proof/Machine/Step.lean ====
section
/-! DEFINITION. One step: the core takes the next move of its environment from the port and makes it whole (20_memory.md R66). -/

namespace Sys2Proof.Machine

/-- One step (20 R66, 70 R338). With nothing to take the core waits, its state unchanged (70 R341; log 2). -/
def step (s : State) : Host.Outcome State Fault Refusal :=
  match fetch s with
  | .wait => .next s
  | .run i s' => exec i s'
  | .illegal s' => .next s'.refuseIllegal
  | .pin s' => .next s'.pulseReset
  | .observe s' => .next s'.readMeter

/-- The state in which the very next step takes and runs the command of a table word: the host issues it now (log 3). -/
def State.withFetchWord (s : State) (nbits w : Nat) : State := s.placeTableWord nbits w

end Sys2Proof.Machine
end

