-- ==== Sys2Proof/Safety.lean ====
section
/-! DEFINITION. The terms claims are made in: what a safe run is, the lifecycle table, what every reachable state satisfies, the
constraints on `CFG`, the sample path of FRAME and the filter design as their rules write them, the numbers that words stand for. -/

namespace Sys2Proof.Machine

open Sys2Proof.Config (Cfg Stage RsState)

/-! ### Safe states -/

/-- No sticky fault and no protocol error so far (49 R286: claims take `NONFIN` = 0 as a premise). -/
def State.faultFree (s : State) : Bool := !s.core.nonfin && !s.core.rsfault && !s.core.proto

/-! ### The lifecycle table (40 R100) -/

/-- Whether a command is accepted in a lifecycle state: the cells of 40 R100 that are not "—". -/
def accepts : Instr → Life → Bool
  | .prepare _ _ _, l => l = .unconf || l = .ready
  | .start, l => l = .ready
  | .stop, l => l = .active
  | .blkbegin, l => l = .active
  | .frame _, l => l = .inblock
  | .blkend, l => l = .inblock
  | .reset, _ => true
  | .setig _, _ => true
  | .setog _, _ => true
  | .setmix _, _ => true
  | .setcurve _, _ => true
  | .setclip _, _ => true
  | .setsplit _, _ => true
  | .setos _, _ => true
  | .setphase _, _ => true
  | .setxlo _, _ => true
  | .setxhi _, _ => true
  | .setenvm _, _ => true
  | .setdecay _, _ => true
  | .getlat, _ => true
  | .getstat, _ => true
  | .getmeter, _ => true

/-- The lifecycle state a command leaves when it answers `OK`: the arrows of 40 R100. -/
def lifeAfter : Instr → Life → Life
  | .reset, _ => .unconf
  | .prepare _ _ _, _ => .ready
  | .start, _ => .active
  | .stop, _ => .ready
  | .blkbegin, _ => .inblock
  | .blkend, _ => .active
  | .frame _, l => l
  | .setig _, l => l
  | .setog _, l => l
  | .setmix _, l => l
  | .setcurve _, l => l
  | .setclip _, l => l
  | .setsplit _, l => l
  | .setos _, l => l
  | .setphase _, l => l
  | .setxlo _, l => l
  | .setxhi _, l => l
  | .setenvm _, l => l
  | .setdecay _, l => l
  | .getlat, l => l
  | .getstat, l => l
  | .getmeter, l => l

/-- The opcode bytes that name no command, as 30 R91 lists them. -/
def illegalOp (op : BitVec 8) : Bool :=
  op = 0 || (5 ≤ op && op ≤ 7) || (0x0B ≤ op && op ≤ 0x0F) || (0x1C ≤ op && op ≤ 0x1F) || 0x23 ≤ op

/-- Whether a command is one of the twelve setters (41 R130). -/
def isSet (i : Instr) : Bool := 0x10 ≤ i.op.code && i.op.code ≤ 0x1B

/-- The response a state shows last. -/
def State.lastResponse (s : State) : Option Response := s.port.responses.getLast?

/-- The code of the response a state shows last. -/
def State.lastCode (s : State) : Option RespCode := s.lastResponse.map Response.code

/-! ### What every reachable state satisfies -/

/-- The latency queues of both channels hold `LAT` samples (10 R47). -/
def Core.QueuesInStep (c : Core) : Prop := c.chan0.lq.length = c.lat ∧ c.chan1.lq.length = c.lat

/-- The histories of a channel have the lengths of the descriptors (10 R42, R43). -/
def Core.HistoriesFit (c : Core) (ch : Channel) : Prop :=
  ∀ k : Stage, (ch.hup.get k).length = (c.descUp.get k).c ∧ (ch.hdn.get k).length = (c.descDn.get k).n - 2

/-- The histories of both channels fit (10 R42, R43). -/
def Core.HistoriesInStep (c : Core) : Prop := c.HistoriesFit c.chan0 ∧ c.HistoriesFit c.chan1

/-- The curve coefficients are those of the active curve control (10 R31). -/
def Core.CurveInStep (c : Core) : Prop := c.curve = curveCoefs c.active.curve

/-- Registers 0 to 3 of a copy are in their legal ranges (10 R20). -/
def Params.BlockLegal (p : Params) : Prop :=
  isFinite p.ig = true ∧ isFinite p.og = true ∧ inUnitRange p.mix = true ∧ inUnitRange p.curve = true

/-- Registers 8, 9 and 11 of a copy are in their legal ranges (10 R20). -/
def Params.PrepareLegal (p : Params) : Prop :=
  isPositiveFinite p.xlo = true ∧ isPositiveFinite p.xhi = true ∧ isPositiveFinite p.decay = true

/-- Every written parameter register is in its legal range (10 R20, R29, R30). -/
def Core.ParamsLegal (c : Core) : Prop :=
  c.pending.BlockLegal ∧ c.active.BlockLegal
    ∧ (c.xloW = true → isPositiveFinite c.pending.xlo = true)
    ∧ (c.xhiW = true → isPositiveFinite c.pending.xhi = true)
    ∧ (c.decayW = true → isPositiveFinite c.pending.decay = true)

/-- Outside UNCONF the three written flags are set, the stream format and the active corners and decay time are legal (40 R102,
70 R332). -/
def Core.PreparedLegal (c : Core) : Prop :=
  c.life ≠ .unconf →
    c.xloW = true ∧ c.xhiW = true ∧ c.decayW = true ∧ isPositiveFinite c.rate = true ∧ c.active.PrepareLegal
      ∧ c.wrate = fmul (ofNat64 (factor c.active.os)) c.rate

/-- Outside UNCONF the descriptors, tables and `LAT` are those of the plan of the active mode, whole (20 R70, 44 R207). -/
def Core.PlanInStep (cfg : Cfg) (c : Core) : Prop :=
  c.life ≠ .unconf →
    ∃ p, planMode cfg c.rate c.active.os c.active.phase = some p
      ∧ c.descUp = p.descUp ∧ c.descDn = p.descDn ∧ c.coefUp = p.coefUp ∧ c.coefDn = p.coefDn ∧ c.lat = p.lat

/-- Outside UNCONF the band-split and envelope coefficients are those of the active corners and decay time (20 R70). -/
def Core.CoefsInStep (cfg : Cfg) (c : Core) : Prop :=
  c.life ≠ .unconf →
    c.cl = splitCoef cfg c.active.xlo c.wrate ∧ c.ch = splitCoef cfg c.active.xhi c.wrate
      ∧ c.g = cfg.midGain c.cl c.ch ∧ c.gr = fdiv cOne c.g
      ∧ (c.aatt, c.arel) = envCoefs cfg c.rate c.active.decay

/-- Whether the Resampler is in use: LIN mode and f > 1 (10 R51). -/
def Core.usesResampler (c : Core) : Bool := c.active.phase = .lin && c.active.os != 0

/-- Resampler instances are present exactly while the Resampler is in use (10 R51). -/
def Core.InstancesInStep (c : Core) : Prop :=
  c.chan0.rsUp.isSome = c.usesResampler ∧ c.chan0.rsDn.isSome = c.usesResampler
    ∧ c.chan1.rsUp.isSome = c.usesResampler ∧ c.chan1.rsDn.isSome = c.usesResampler

/-- In UNCONF no mode is active and the latency is 0 (10 R55). -/
def Core.UnconfiguredBare (c : Core) : Prop := c.life = .unconf → c.lat = 0 ∧ c.active.os = 0 ∧ c.active.phase = .min

/-- Every clause above, for a configuration. -/
def Core.InvFor (cfg : Cfg) (c : Core) : Prop :=
  c.QueuesInStep ∧ c.HistoriesInStep ∧ c.CurveInStep ∧ c.ParamsLegal ∧ c.PreparedLegal
    ∧ c.PlanInStep cfg ∧ c.CoefsInStep cfg ∧ c.InstancesInStep ∧ c.UnconfiguredBare

/-- The invariant of the core: every clause above, for the machine's configuration. -/
def Core.Inv (c : Core) : Prop := c.InvFor Config.cfg

/-- What 10 R48 states of the envelopes: none below `ENV_FLOOR_DB` while `NONFIN` = 0. No clause of `Core.Inv`: the rounding of
48 R262 can carry an envelope below the floor (log 31). -/
def Core.EnvelopesAboveFloor (c : Core) : Prop :=
  c.nonfin = false → ∀ e ∈ [c.chan0.envIn, c.chan0.envOut, c.chan1.envIn, c.chan1.envOut], fle cMinusHundred e = true

/-! ### The constraints the spec names on `CFG` -/

/-- The constraints of 00 R6 and 44 R207 on the open fields. No definition of the model assumes them. -/
structure CfgLegal (cfg : Cfg) : Prop where
  maxTaps_odd : cfg.maxTaps % 2 = 1 ∧ 3 ≤ cfg.maxTaps
  latLin_le : ∀ f, cfg.latLin f ≤ cfg.latMax
  latLin_differs : ∀ rate os lat, os ≠ 0 →
    cascadeLatency (planDescs cfg rate (factor os) (stagesOf os) .up) (planDescs cfg rate (factor os) (stagesOf os) .dn) os
      = some lat → cfg.latLin (factor os) ≠ lat
  rsMaxBlock_ge : 8 ≤ cfg.rsMaxBlock
  midGain_ok : ∀ cl ch, isFinite (cfg.midGain cl ch) = true ∧ feq (cfg.midGain cl ch) cZero = false
  kaiserBeta_ok : ∀ att, isFinite att = true → fle cZero att = true →
    isFinite (kaiserBeta cfg att) = true ∧ fle cZero (kaiserBeta cfg att) = true

/-- The named properties of 49 R287 on the transcendental functions, whose arguments are binary64 words. π/4 is `PI` / 4.
DESIGN CHOICE, unsafe (log 30): in `tan_range`, "has the sign of x" is read in the order of values, as 0 < x ⇒ 0 < `f_tan(x)` and
x < 0 ⇒ `f_tan(x)` < 0, and not as equal sign bits. So `f_tan` of a non-zero x is not a zero, and `f_tan(−0.0)` may be either
zero; the rule's words do not say which reading holds. -/
structure CfgNumerics (cfg : Cfg) : Prop where
  tan_zero : cfg.fTan cZero = cZero
  tan_range : ∀ x, flt (fneg (fdiv cPi 0x4010000000000000)) x = true → flt x (fdiv cPi 0x4010000000000000) = true →
    fle cMinusOne (cfg.fTan x) = true ∧ fle (cfg.fTan x) cOne = true
      ∧ flt (cfg.fTan x) cZero = flt x cZero ∧ flt cZero (cfg.fTan x) = flt cZero x
  exp_range : ∀ x, fle x cZero = true → fle cZero (cfg.fExp x) = true ∧ fle (cfg.fExp x) cOne = true
  exp_bottom : cfg.fExp (infWord true) = cZero
  exp_zero : cfg.fExp cZero = cOne ∧ cfg.fExp (fneg cZero) = cOne
  log10_one : cfg.fLog10 cOne = cZero
  log10_finite : ∀ v, isPositiveFinite v = true → isFinite (cfg.fLog10 v) = true
  pow10_nonneg : ∀ x, isFinite x = true → fle cZero (cfg.fPow10 x) = true
  pow_finite : ∀ a, isFinite a = true → fle cZero a = true →
    isFinite (cfg.fPow a c0_4) = true ∧ fle cZero (cfg.fPow a c0_4) = true
  pow_zero : cfg.fPow cZero c0_4 = cZero

/-! ### The sample path of FRAME, written from its rules

The statements on FRAME and on the components compare the model's operations with these. -/

/-- The pair sum of pass i of 43 R182 over the window `u`. -/
def upSum (d : Desc) (u : List Word) (i : Nat) : Word := fadd (memRead u (i + d.start)) (memRead u (d.c - i))

/-- `acc` of 43 R182 after its first i passes, `g` being the doubled table. -/
def upAcc (d : Desc) (g u : List Word) : Nat → Word
  | 0 => cZero
  | i + 1 => fadd (upAcc d g u i) (fmul (memRead g (d.start + 2 * i)) (upSum d u i))

/-- `cen` of 43 R182. -/
def upCentre (d : Desc) (g u : List Word) : Word := fmul (memRead g d.c) (memRead u ((d.c + 1 - d.start) / 2))

/-- (o0, o1) of 43 R182, the earlier sample first. -/
def upOutputs (d : Desc) (g hist : List Word) (x : Word) : Word × Word :=
  let u := x :: hist
  if d.start = 1 then (upAcc d g u d.np, upCentre d g u) else (upCentre d g u, upAcc d g u d.np)

/-- Whether every value that 40 R118 lists of one up step is finite: input, outputs, the intermediate sums (log 20). -/
def upFinite (d : Desc) (g hist : List Word) (x : Word) : Bool :=
  let u := x :: hist
  isFinite x && isFinite (upCentre d g u)
    && (List.range d.np).all fun i => isFinite (upSum d u i) && isFinite (upAcc d g u (i + 1))

/-- The pair sum of pass i of 43 R186 over the window `w`. -/
def dnSum (d : Desc) (w : List Word) (i : Nat) : Word :=
  fadd (memRead w (d.start + 2 * i)) (memRead w (d.n - 1 - d.start - 2 * i))

/-- `acc` of 43 R186 after its first i passes, `h` being the table. -/
def dnAcc (d : Desc) (h w : List Word) : Nat → Word
  | 0 => cZero
  | i + 1 => fadd (dnAcc d h w i) (fmul (memRead h (d.start + 2 * i)) (dnSum d w i))

/-- r of 43 R186. -/
def dnOutput (d : Desc) (h hist : List Word) (a b : Word) : Word :=
  let w := b :: a :: hist
  fadd (dnAcc d h w d.np) (fmul (memRead h d.c) (memRead w d.c))

/-- Whether every value that 40 R118 lists of one down step is finite (log 20). -/
def dnFinite (d : Desc) (h hist : List Word) (a b : Word) : Bool :=
  let w := b :: a :: hist
  isFinite a && isFinite b && isFinite (dnOutput d h hist a b)
    && (List.range d.np).all fun i => isFinite (dnSum d w i) && isFinite (dnAcc d h w (i + 1))

/-- What a stage gives over a frame: its outputs, its history, whether every checked value is finite. -/
structure StagePath where
  out : List Word
  hist : List Word
  finite : Bool
deriving DecidableEq, Repr

/-- The inner loop of 44 R202: `HB_UP` for each sample, earliest first, the history moving on by 43 R183. -/
def upPath (d : Desc) (g : List Word) : (hist inputs : List Word) → StagePath
  | hist, [] => ⟨[], hist, true⟩
  | hist, x :: xs =>
    let o := upOutputs d g hist x
    let rest := upPath d g ((x :: hist).take d.c) xs
    ⟨o.1 :: o.2 :: rest.out, rest.hist, upFinite d g hist x && rest.finite⟩

/-- The inner loop of 44 R203: `HB_DN` for each pair, earliest first, the history moving on by 43 R187. -/
def dnPath (d : Desc) (h : List Word) : (hist inputs : List Word) → StagePath
  | hist, a :: b :: xs =>
    let rest := dnPath d h ((b :: a :: hist).take (d.n - 2)) xs
    ⟨dnOutput d h hist a b :: rest.out, rest.hist, dnFinite d h hist a b && rest.finite⟩
  | hist, _ => ⟨[], hist, true⟩

/-- What a cascade gives: its outputs, its histories, whether every checked value is finite. -/
structure NetworkPath where
  out : List Word
  hist : PerStage (List Word)
  finite : Bool
deriving DecidableEq, Repr

/-- The outer loops of 44 R202 and R203 over the stages of a list. -/
def networkPath (path : Desc → List Word → List Word → List Word → StagePath) (descs : PerStage Desc)
    (tables : PerStage (List Word)) : List Stage → PerStage (List Word) → List Word → NetworkPath
  | [], hist, cur => ⟨cur, hist, true⟩
  | k :: ks, hist, cur =>
    let r := path (descs.get k) (tables.get k) (hist.get k) cur
    let rest := networkPath path descs tables ks (hist.set k r.hist) r.out
    ⟨rest.out, rest.hist, r.finite && rest.finite⟩

/-- What `NonLin` gives: the results, the channel with its running values, whether every checked value is finite. -/
structure ShapePath where
  out : List Word
  chan : Channel
  finite : Bool
deriving DecidableEq, Repr

/-- `SplitStep` and `SplitShape` on one sub-sample (45 R224, R226). The argument `fl(G × mid)` is not among the checked values
(40 R118). -/
def splitPath (c : Core) (ch : Channel) (v : Word) : ShapePath :=
  let lp := fadd ch.lps (fmul c.cl (fsub v ch.lps))
  let lps := fsub (fmul cTwo lp) ch.lps
  let hp := fadd ch.hps (fmul c.ch (fsub v ch.hps))
  let hps := fsub (fmul cTwo hp) ch.hps
  let mid := fsub hp lp
  let high := fsub v hp
  let sl := shape c.curve lp
  let sm := fmul c.gr (shape c.curve (fmul c.g mid))
  let sh := shape c.curve high
  let r := fadd (fadd sl sm) sh
  { out := [r]
    chan := { ch with lps := lps, lpy := lp, hps := hps, hpy := hp }
    finite := [lp, hp, mid, high, lps, hps, sl, sm, sh, r].all isFinite }

/-- `NonLin` over the sub-samples of a frame, in their order (40 R110, R114). -/
def shapePath (c : Core) : Channel → List Word → ShapePath
  | ch, [] => ⟨[], ch, true⟩
  | ch, v :: vs =>
    let r := if c.active.split then splitPath c ch v else ⟨[shape c.curve v], ch, isFinite (shape c.curve v)⟩
    let rest := shapePath c r.chan vs
    ⟨r.out ++ rest.out, rest.chan, r.finite && rest.finite⟩

/-- What a Resampler instance answers, and the instance after the call (44 R211); an absent one answers nothing (log 14). -/
def rsAnswer (cfg : Cfg) (inst : Option RsState) (input : List Word) : List Word × Option RsState :=
  match inst with
  | some st => ((cfg.rsProcess st input).2, some (cfg.rsProcess st input).1)
  | none => ([], none)

/-- What 40 R110 computes for one channel where every Resampler call answers the right count: the output y, the channel after,
whether the counts were right, and whether every value that 40 R118 lists is finite. -/
structure FramePath where
  y : Word
  chan : Channel
  rightCounts : Bool
  finite : Bool
deriving DecidableEq, Repr

/-- The lines of 40 R110 for one channel, by R111 to R118. -/
def framePath (cfg : Cfg) (c : Core) (ch : Channel) (opd : Word) : FramePath :=
  let x := sampleIn c.fmt opd
  let t := fmul x c.active.ig
  let d := if c.active.clip then (if flt cOne t then cOne else if flt t cMinusOne then cMinusOne else t) else t
  let up := networkPath upPath c.descUp c.coefUp (stagesOf c.active.os) ch.hup [d]
  let rsUp := rsAnswer cfg ch.rsUp [d]
  let u := if c.usesResampler then rsUp.1 else up.out
  let nl := shapePath c ch u
  let dn := networkPath dnPath c.descDn c.coefDn (stagesOf c.active.os).reverse ch.hdn nl.out
  let rsDn := rsAnswer cfg ch.rsDn nl.out
  let w := if c.usesResampler then rsDn.1.headD 0 else dn.out.headD 0
  let dd := (ch.lq ++ [d]).headD 0
  let m := fadd (fmul c.active.mix w) (fmul (fsub cOne c.active.mix) dd)
  let y := fmul m c.active.og
  let envIn := envUpdate cfg c ch.envIn dd
  let envOut := envUpdate cfg c ch.envOut y
  { y := y
    chan :=
      { nl.chan with
        hup := if c.usesResampler then ch.hup else up.hist, hdn := if c.usesResampler then ch.hdn else dn.hist
        rsUp := if c.usesResampler then rsUp.2 else ch.rsUp, rsDn := if c.usesResampler then rsDn.2 else ch.rsDn
        lq := (ch.lq ++ [d]).tail, envIn := envIn, envOut := envOut }
    rightCounts := !c.usesResampler || (rsUp.1.length == 2 ^ c.active.os.toNat && rsDn.1.length == 1)
    finite :=
      isFinite x && isFinite d && nl.finite
        && (if c.usesResampler then rsUp.1.all isFinite && rsDn.1.all isFinite else up.finite && dn.finite)
        && [w, dd, m, y, envIn, envOut].all isFinite && outFinite c.fmt y }

/-! ### The filter design and the cascade's delay, written from their rules -/

/-- The registers of the loop of 42 R162. -/
structure BesselSum where
  d : Word
  ds : Word
  s : Word
deriving DecidableEq, Repr

/-- d, ds and s of 42 R162 after the first k passes of its loop. -/
def besselSum (x : Word) : (k : Nat) → BesselSum
  | 0 => ⟨cZero, cOne, cOne⟩
  | k + 1 =>
    let b := besselSum x k
    let d := fadd b.d cTwo
    let ds := fdiv (fmul b.ds (fmul x x)) (fmul d d)
    ⟨d, ds, fadd b.s ds⟩

/-- The `until` of 42 R162, asked after a pass. -/
def BesselSum.ends (b : BesselSum) : Bool := flt b.ds (fmul b.s cMillionth)

/-- beta of 42 R163: the replacement of `CFG` if there is one, else the three regions. -/
def betaRule (cfg : Cfg) (att : Word) : Word :=
  match cfg.kaiserBeta with
  | some f => f att
  | none =>
    if flt att c21 then cZero
    else if fle att c50 then
      fadd (fmul c0_5842 (cfg.fPow (fsub att c21) c0_4)) (fmul c0_07886 (fsub att c21))
    else fmul c0_1102 (fsub att c8_7)

/-- `Ideal(n)` of 42 R161. -/
def idealRule (n : Nat) : Word :=
  if n = 0 then cHalf
  else if n % 4 = 1 then fdiv cOne (fmul cPi (ofNat64 n))
  else if n % 4 = 3 then fdiv cMinusOne (fmul cPi (ofNat64 n))
  else cZero

/-- wnum of 42 R164, `bessel` being `I0`. -/
def wnumRule (bessel : Word → Word) (beta : Word) (c n : Nat) : Word :=
  if n = c then bessel cZero
  else
    bessel (fmul beta
      (fsqrt (fsub cOne (fdiv (fmul (ofNat64 n) (ofNat64 n)) (fmul (ofNat64 c) (ofNat64 c))))))

/-- What 40 R103 asks of a stage's tap count and attenuation. -/
def UsableSpec (cfg : Cfg) (spec : Nat × Word) : Prop :=
  spec.1 % 2 = 1 ∧ 3 ≤ spec.1 ∧ spec.1 ≤ cfg.maxTaps ∧ isFinite spec.2 = true ∧ flt spec.2 cZero = false

/-- The partial sum t of stage k in the loop of 44 R206, the stages in use being 1 to log2 f = `os`. -/
def delaySum (descUp descDn : PerStage Desc) (os : BitVec 2) (k : Stage) : Nat :=
  let t3 := descUp.k3.c + descDn.k3.c
  let t2 := descUp.k2.c + descDn.k2.c + if os = 3 then t3 / 2 else 0
  let t1 := descUp.k1.c + descDn.k1.c + if os = 2 ∨ os = 3 then t2 / 2 else 0
  match k with
  | .k1 => t1
  | .k2 => t2
  | .k3 => t3

/-! ### Runs of the latency queue -/

/-- The delayed samples a latency queue gives for the dry samples of a run of frames, and the queue after it (47 R250). -/
def alignRun : List Word → List Word → List Word × List Word
  | q, [] => ([], q)
  | q, d :: ds => ((align q d).1 :: (alignRun (align q d).2 ds).1, (alignRun (align q d).2 ds).2)

/-! ### The real numbers that words stand for (49 R283, R284) -/

/-- The value of a finite binary64 word; 0 stands for the others. -/
def wordVal (w : Word) : ℚ :=
  match unpack w with
  | .fin neg m e => (if neg then -1 else 1) * m * (2 : ℚ) ^ e
  | .inf _ => 0
  | .nan => 0

/-- The value of a binary32 word that is no infinity and no NaN, from its sign, exponent and fraction fields (20 R62). -/
def wordVal32 (v : BitVec 32) : ℚ :=
  let e := (v.extractLsb' 23 8).toNat
  let frac := (v.extractLsb' 0 23).toNat
  (if v.msb then -1 else 1) * if e = 0 then (frac : ℚ) * 2 ^ (-149 : ℤ) else (2 ^ 23 + frac : ℚ) * 2 ^ ((e : ℤ) - 150)

/-- `r` is the real number `x` rounded once (00 R8, 49 R284): a finite word nearest to x, even where another is as near, or the
infinity of x's sign where x lies half a unit of the last place or more beyond the greatest finite word. -/
def RoundsTo (x : ℝ) (r : Word) : Prop :=
  (isFinite r = true ∧ |x| < 2 ^ 1024 - 2 ^ 970
    ∧ ∀ c, isFinite c = true →
        |(wordVal r : ℝ) - x| ≤ |(wordVal c : ℝ) - x|
          ∧ (|(wordVal r : ℝ) - x| = |(wordVal c : ℝ) - x| → wordVal c = wordVal r ∨ r.getLsbD 0 = false))
  ∨ (r = infWord (decide (x < 0)) ∧ 2 ^ 1024 - 2 ^ 970 ≤ |x|)

/-- `r` is the real number `x` rounded once to binary32 (49 R283, R289), in the same words as `RoundsTo`. -/
def RoundsTo32 (x : ℝ) (r : BitVec 32) : Prop :=
  (isFinite32 r = true ∧ |x| < 2 ^ 128 - 2 ^ 103
    ∧ ∀ c, isFinite32 c = true →
        |(wordVal32 r : ℝ) - x| ≤ |(wordVal32 c : ℝ) - x|
          ∧ (|(wordVal32 r : ℝ) - x| = |(wordVal32 c : ℝ) - x| → wordVal32 c = wordVal32 r ∨ r.getLsbD 0 = false))
  ∨ (r = (if x < 0 then 0xFF800000 else 0x7F800000) ∧ 2 ^ 128 - 2 ^ 103 ≤ |x|)

end Sys2Proof.Machine
end

