-- ==== Sys2Proof/Certificates/Slice0/Obligations.lean ====
section
/-! DEFINITION. The statements handed to the provers, one `def Obligations.<Name> : Prop` each, in the order of OBLIGATIONS.json. -/

section Slice0Statements

open Sys2Proof Sys2Proof.Machine
open Sys2Proof.Config (Cfg Stage Dir RsState)

/-! ### Encoding (30_encoding.md) -/

/-- 30 R82, R87: decoding the words of a well-formed command gives the command back, every operand at every value. -/
def Obligations.DecodeOfEncode : Prop :=
  ∀ i : Instr, WellFormed i → decode (encode i).1 (encode i).2 = .ok i

/-- 30 R87: words that decode are the words the encoder writes for what they decode to: no bit is dropped. -/
def Obligations.EncodeOfDecode : Prop :=
  ∀ (cw : CmdWord) (opds : List Word) (i : Instr), decode cw opds = .ok i → encode i = (cw, opds) ∧ WellFormed i

/-- 30 R87, whole: the opcode is looked up first, then the reserved bits are checked; every word is exactly one command or
illegal; only the operand count of FRAME (op 0x09) depends on the state, and it is `NCH`. -/
def Obligations.DecoderCoversEveryWord : Prop :=
  (∀ (cw : CmdWord) (opds : List Word),
    ((∀ op : Op, op.code ≠ opField cw) ∧ decode cw opds = .error .illegalOpcode)
    ∨ ∃ op : Op, op.code = opField cw ∧ (∀ op' : Op, op'.code = opField cw → op' = op)
        ∧ (immField cw &&& ~~~op.format.usedImm ≠ 0 → decode cw opds = .error .reservedBits)
        ∧ (immField cw &&& ~~~op.format.usedImm = 0 →
            ∀ n ≤ 2, opds.length = op.format.operandWords n →
              ∃ i, decode cw opds = .ok i ∧ i.op = op ∧ i.imm = immField cw ∧ i.operands = opds))
  ∧ (∀ (cw : CmdWord) (s s' : State), opField cw ≠ 0x09 → s.operandsFor cw = s'.operandsFor cw)
  ∧ ∀ (cw : CmdWord) (s : State), opField cw = 0x09 → s.core.life ≠ .unconf → s.operandsFor cw = s.core.nch.count

/-- 30 R81, R82 and the examples of 40 and 41: some words written out from the encoding decode to their commands. -/
def Obligations.WrittenWordsDecode : Prop :=
  decode 0x01000000 [] = .ok .reset
    ∧ decode 0x02000012 [0x40E7700000000000] = .ok (.prepare 2 1 0x40E7700000000000)
    ∧ decode 0x09000000 [0x3FD0000000000000, 0xBFE0000000000000] = .ok (.frame [0x3FD0000000000000, 0xBFE0000000000000])
    ∧ decode 0x10000000 [0x3FE0000000000000] = .ok (.setig 0x3FE0000000000000)
    ∧ decode 0x14000001 [] = .ok (.setclip true)
    ∧ decode 0x16000003 [] = .ok (.setos 3)
    ∧ decode 0x17000001 [] = .ok (.setphase .lin)
    ∧ decode 0x22000000 [] = .ok .getmeter

/-- 30 R91, whole: the opcode bytes in no row of the map are exactly the listed ones, 0x00 among them; a command word with one
of them consumes no operand word and is refused with `E_ILLEGAL`: `PROTO` is set and nothing else of the core changes. -/
def Obligations.IllegalOpcodesRefused : Prop :=
  (∀ b : BitVec 8, illegalOp b = true ↔ ∀ op : Op, op.code ≠ b)
  ∧ illegalOp (opField 0x00000000) = true
  ∧ ∀ (s : State) (cw : CmdWord) (rest : List Move), s.port.moves = .command cw :: rest → illegalOp (opField cw) = true →
      step s = .next
        { s with
          core := { s.core with proto := true }
          port := { s.port with moves := rest, responses := s.port.responses ++ [⟨.eIllegal, []⟩] } }

/-- 30 R92, whole: a legal opcode with a reserved bit set is refused as 30 R91 says after the operand words of its format are
consumed; unsupported values of `nch` and `fmt` are no reserved encodings: they decode, and PREPARE refuses them with
`E_FORMAT`. -/
def Obligations.ReservedBitsRefused : Prop :=
  (∀ (s : State) (cw : CmdWord) (rest : List Move) (op : Op), s.port.moves = .command cw :: rest → op.code = opField cw →
    immField cw &&& ~~~op.format.usedImm ≠ 0 → op.format.operandWords s.core.frameOperands ≤ s.port.operands.length →
      step s = .next
        { s with
          core := { s.core with proto := true }
          port :=
            { s.port with
              moves := rest, operands := s.port.operands.drop (op.format.operandWords s.core.frameOperands)
              responses := s.port.responses ++ [⟨.eIllegal, []⟩] } })
  ∧ ∀ (nch fmt : BitVec 4) (rate : Word) (s : State),
      decode (0x02000000 ||| (fmt.setWidth 32 <<< 4) ||| nch.setWidth 32) [rate] = .ok (.prepare nch fmt rate)
      ∧ (s.core.life = .unconf ∨ s.core.life = .ready → (nch ≠ 1 ∧ nch ≠ 2) ∨ (fmt ≠ 0 ∧ fmt ≠ 1) →
          exec (.prepare nch fmt rate) s = .next (s.respond .eFormat []))

/-! ### The step (20_memory.md R66, 70_reset_and_hazards.md R331, R338 to R341) -/

/-- 20 R66, 30 R80: when the command at the head of the port decodes to `i`, the step is `exec i` on the state with the command
word and its operand words taken from the port. -/
def Obligations.StepRunsDecoded : Prop :=
  ∀ (s : State) (cw : CmdWord) (rest : List Move) (i : Instr), s.port.moves = .command cw :: rest →
    s.operandsFor cw ≤ s.port.operands.length → decode cw (s.port.operands.take (s.operandsFor cw)) = .ok i →
      step s = exec i
        { s with port := { s.port with moves := rest, operands := s.port.operands.drop (s.operandsFor cw) } }

/-- 30 R80: the words of any well-formed command, put at the head of the port, make the next step run exactly that command
(FRAME with as many samples as the state's `NCH` asks for). -/
def Obligations.PlacedCommandRuns : Prop :=
  ∀ (i : Instr) (s : State), WellFormed i → i.operands.length = i.op.format.operandWords s.core.frameOperands →
    step (s.placeCommand (encode i).1 (encode i).2) = exec i s

/-- 70 R340, R341, 30 R80: every state has a next state, and every command word whose operand words are there, legal or not, is
answered with exactly one response, consuming exactly its words. -/
def Obligations.EveryCommandAnswered : Prop :=
  (∀ s : State, ∃ t, step s = .next t)
  ∧ ∀ (s : State) (cw : CmdWord) (rest : List Move), s.port.moves = .command cw :: rest →
      s.operandsFor cw ≤ s.port.operands.length →
        ∃ t r, step s = .next t ∧ t.port =
          { s.port with
            moves := rest, operands := s.port.operands.drop (s.operandsFor cw), responses := s.port.responses ++ [r] }

/-- 70 R341. The model's choice (log 1, log 2): with no move left, or with operand words still missing, the core waits and no
state changes. -/
def Obligations.WaitsForTheHost : Prop :=
  (∀ s : State, s.port.moves = [] → step s = .next s)
  ∧ ∀ (s : State) (cw : CmdWord) (rest : List Move), s.port.moves = .command cw :: rest →
      s.port.operands.length < s.operandsFor cw → step s = .next s

/-- 70 R330, R331, 20 R64, R71. The model's choice (log 5, log 6): a pulse of the reset pin between two commands reaches the core's
reset state without a response; the meter observer gets the whole record and changes no state of the core. -/
def Obligations.PinAndObserver : Prop :=
  (∀ (s : State) (rest : List Move), s.port.moves = .resetPin :: rest →
    step s = .next { s with core := State.reset.core, port := { s.port with moves := rest } })
  ∧ ∀ (s : State) (rest : List Move), s.port.moves = .observe :: rest →
      step s = .next { s with port := { s.port with moves := rest, observed := s.port.observed ++ [s.core.meter] } }

/-! ### What every reachable state satisfies -/

/-- 10 R55 and the model's values of unwritten registers (log 8): the invariant holds right after reset. -/
def Obligations.InvHoldsAtReset : Prop := State.reset.core.Inv

/-- The invariant (10 R20, R31, R37, R42, R43, R47, R51, 20 R70, 44 R207) holds after every step from a state that meets it,
whatever the host, the pin and the observer do. -/
def Obligations.InvKeptByStep : Prop :=
  ∀ s t : State, s.core.Inv → step s = .next t → t.core.Inv

/-! ### Reset and the status register (10_state.md R36, R55) -/

/-- 40 R101, 10 R55: RESET completes in every state with `OK` and leaves every value that 10 R55 gives (the values of unwritten
registers are the model's choice, log 8, and are not stated); the port beyond the response and the model's count of free values
stay (log 12). -/
def Obligations.ResetRestores : Prop :=
  ∀ s : State, ∃ t, exec .reset s = .next t
    ∧ t.core.life = .unconf ∧ t.core.blkcnt = 0 ∧ t.core.status = 0 ∧ t.irqLatchg = false ∧ t.core.lat = 0 ∧ t.core.mseq = 0
    ∧ t.core.meter.words = List.replicate 8 0
    ∧ (∀ p ∈ [t.core.pending, t.core.active],
        p.ig = cOne ∧ p.og = cOne ∧ p.mix = cOne ∧ p.curve = cHalf ∧ p.clip = false ∧ p.split = false ∧ p.os = 0
          ∧ p.phase = .min ∧ p.envm = .peak)
    ∧ t.core.curve = ⟨0x3FF8000000000000, 0x8000000000000000, 0xBFE0000000000000, 0x3FB0000000000000⟩
    ∧ (∀ ch ∈ [t.core.chan0, t.core.chan1],
        (∀ k : Stage, (∀ w ∈ ch.hup.get k, w = 0) ∧ ∀ w ∈ ch.hdn.get k, w = 0)
          ∧ ch.lps = 0 ∧ ch.lpy = 0 ∧ ch.hps = 0 ∧ ch.hpy = 0 ∧ ch.lq = []
          ∧ ch.envIn = cMinusHundred ∧ ch.envOut = cMinusHundred ∧ ch.rsUp = none ∧ ch.rsDn = none)
    ∧ t.port = { s.port with responses := s.port.responses ++ [⟨.ok, []⟩] } ∧ t.freeCount = s.freeCount

/-- 10 R36, whole: the layout of `STATUS`, its reset value, its zero-extended read-out, and the only commands that set or clear
each of its bits. -/
def Obligations.StatusRegister : Prop :=
  (∀ c : Core,
    c.status.extractLsb' 0 2 = c.life.code ∧ c.status.getLsbD 2 = c.latchg ∧ c.status.getLsbD 3 = false
      ∧ c.status.getLsbD 4 = c.xloW ∧ c.status.getLsbD 5 = c.xhiW ∧ c.status.getLsbD 6 = c.decayW
      ∧ c.status.getLsbD 7 = false ∧ c.status.getLsbD 8 = c.nonfin ∧ c.status.getLsbD 9 = c.rsfault
      ∧ c.status.getLsbD 10 = c.proto ∧ c.status.extractLsb' 11 21 = 0)
  ∧ State.reset.core.status = 0
  ∧ (∀ s : State, exec .getstat s = .next (s.respond .ok [s.core.status.setWidth 64]))
  ∧ (∀ (i : Instr) (s t : State), exec i s = .next t →
      (t.core.life ≠ s.core.life → i.op ∈ [Op.reset, Op.prepare, Op.start, Op.stop, Op.blkbegin, Op.blkend])
      ∧ (s.core.latchg = false → t.core.latchg = true → i = .blkbegin ∧ s.core.modeDiffers = true)
      ∧ (s.core.latchg = true → t.core.latchg = false → i = .reset ∨ (i.op = .prepare ∧ t.lastCode = some .ok))
      ∧ (s.core.xloW = false → t.core.xloW = true → i.op = .setxlo) ∧ (s.core.xloW = true → t.core.xloW = false → i = .reset)
      ∧ (s.core.xhiW = false → t.core.xhiW = true → i.op = .setxhi) ∧ (s.core.xhiW = true → t.core.xhiW = false → i = .reset)
      ∧ (s.core.decayW = false → t.core.decayW = true → i.op = .setdecay)
      ∧ (s.core.decayW = true → t.core.decayW = false → i = .reset)
      ∧ (s.core.nonfin = false → t.core.nonfin = true → i.op = .frame)
      ∧ (s.core.nonfin = true → t.core.nonfin = false → i = .reset)
      ∧ (s.core.rsfault = false → t.core.rsfault = true → i.op = .frame)
      ∧ (s.core.rsfault = true → t.core.rsfault = false → i = .reset)
      ∧ (s.core.proto = false → t.core.proto = true → t.lastCode = some .eState)
      ∧ (s.core.proto = true → t.core.proto = false → i = .reset))

/-! ### Lifecycle and refusals (40_lifecycle_commands.md R100, 60_exceptions.md) -/

/-- 40 R100, whole (`accepts` and `lifeAfter` are its table): a cell "—" refuses with `E_STATE` and changes nothing but
`PROTO`; an accepted command that answers `OK` leaves the state of its cell, one that answers another code stays. -/
def Obligations.LifecycleTable : Prop :=
  ∀ (i : Instr) (s : State), ∃ t, exec i s = .next t
    ∧ (accepts i s.core.life = false →
        t = { s with
              core := { s.core with proto := true }
              port := { s.port with responses := s.port.responses ++ [⟨.eState, []⟩] } })
    ∧ (accepts i s.core.life = true → t.lastCode ≠ some .eState
        ∧ (t.lastCode = some .ok → t.core.life = lifeAfter i s.core.life)
        ∧ (t.lastCode ≠ some .ok → t.core.life = s.core.life))

/-- 60 R301, whole: a refusal answers its code with no result word; every piece of the core's state keeps its value, but that
`E_ILLEGAL` and `E_STATE` set `PROTO`; only RESET (the command or the pin) clears `PROTO`. -/
def Obligations.RefusalsArePrecise : Prop :=
  (∀ (s t : State) (cw : CmdWord) (rest : List Move) (code : RespCode) (results : List Word),
    s.port.moves = .command cw :: rest → s.operandsFor cw ≤ s.port.operands.length → step s = .next t →
    t.port.responses = s.port.responses ++ [⟨code, results⟩] → code ≠ .ok →
      results = [] ∧ t.core = { s.core with proto := s.core.proto || code == .eIllegal || code == .eState }
        ∧ t.freeCount = s.freeCount ∧ t.port.observed = s.port.observed)
  ∧ (∀ s t : State, step s = .next t → s.core.proto = true → t.core.proto = false →
      s.port.moves.head? = some (.command 0x01000000) ∨ s.port.moves.head? = some .resetPin)
  ∧ ([RespCode.eIllegal, .eState, .eFormat, .eConfig, .eRange].map fun code => (⟨code, []⟩ : Response).rsp) = [1, 2, 3, 4, 5]

/-- 60 R302, whole: these commands answer `OK` in every state, and FRAME, BLKBEGIN, BLKEND, START and STOP in the state that
allows them. -/
def Obligations.NeverRefused : Prop :=
  (∀ (i : Instr) (s : State),
    i.op ∈ [Op.reset, .setclip, .setsplit, .setos, .setphase, .setenvm, .getlat, .getstat, .getmeter] →
      ∃ t, exec i s = .next t ∧ t.lastCode = some .ok)
  ∧ ∀ (i : Instr) (s : State), i.op ∈ [Op.frame, .blkbegin, .blkend, .start, .stop] → accepts i s.core.life = true →
      ∃ t, exec i s = .next t ∧ t.lastCode = some .ok

/-- 60 R306, 40 R108: the level of `irq_latchg` is the bit `LATCHG`; BLKBEGIN sets it where the pending mode differs and never
clears it, a successful PREPARE and RESET clear it, every other command leaves it. -/
def Obligations.RequestLine : Prop :=
  ∀ (i : Instr) (s t : State), exec i s = .next t →
    t.irqLatchg = t.core.status.getLsbD 2
      ∧ t.irqLatchg =
        if i = .reset ∨ (i.op = .prepare ∧ t.lastCode = some .ok) then false
        else if i = .blkbegin ∧ s.core.life = .active then
          s.irqLatchg || decide (s.core.pending.os ≠ s.core.active.os ∨ s.core.pending.phase ≠ s.core.active.phase)
        else s.irqLatchg

/-- 20 R68: BLKBEGIN commits registers 0 to 5, PREPARE registers 6 to 11, nothing else writes an active copy but RESET;
and FRAME uses the active copies only: with any other pending copies it gives the same next state. That its unspecified values
(93 U1, U4) are then the same too is the model's choice (log 32), not the rule's. -/
def Obligations.CommitPoints : Prop :=
  (∀ s t : State, s.core.life = .active → exec .blkbegin s = .next t →
    t.core.active =
      { s.core.active with
        ig := s.core.pending.ig, og := s.core.pending.og, mix := s.core.pending.mix, curve := s.core.pending.curve
        clip := s.core.pending.clip, split := s.core.pending.split })
  ∧ (∀ (i : Instr) (s t : State), i.op = .prepare → exec i s = .next t → t.lastCode = some .ok →
      t.core.active =
        { s.core.active with
          os := s.core.pending.os, phase := s.core.pending.phase, xlo := s.core.pending.xlo, xhi := s.core.pending.xhi
          envm := s.core.pending.envm, decay := s.core.pending.decay })
  ∧ (∀ (i : Instr) (s t : State), exec i s = .next t → i.op ∉ [Op.reset, .prepare, .blkbegin] → t.core.active = s.core.active)
  ∧ ∀ (samples : List Word) (s t : State) (p : Params), exec (.frame samples) s = .next t →
      exec (.frame samples) { s with core := { s.core with pending := p } }
        = .next { t with core := { t.core with pending := p } }

/-- 20 R70, 10 R37, R38, R52: only a successful PREPARE and RESET change the stream format, `WRATE`, `LAT`, the descriptors, the
tables and the coefficients; PREPARE is refused while processing is possible; only BLKEND and RESET change the mailbox. -/
def Obligations.TablesAndMeterKept : Prop :=
  (∀ (i : Instr) (s t : State), exec i s = .next t → i ≠ .reset → ¬(i.op = .prepare ∧ t.lastCode = some .ok) →
    t.core.rate = s.core.rate ∧ t.core.nch = s.core.nch ∧ t.core.fmt = s.core.fmt ∧ t.core.wrate = s.core.wrate
      ∧ t.core.lat = s.core.lat ∧ t.core.descUp = s.core.descUp ∧ t.core.descDn = s.core.descDn
      ∧ t.core.coefUp = s.core.coefUp ∧ t.core.coefDn = s.core.coefDn ∧ t.core.cl = s.core.cl ∧ t.core.ch = s.core.ch
      ∧ t.core.g = s.core.g ∧ t.core.gr = s.core.gr ∧ t.core.aatt = s.core.aatt ∧ t.core.arel = s.core.arel)
  ∧ (∀ (i : Instr) (s t : State), i.op = .prepare → exec i s = .next t → s.core.life = .active ∨ s.core.life = .inblock →
      t.lastCode = some .eState)
  ∧ ∀ (i : Instr) (s t : State), exec i s = .next t → i ≠ .reset → i ≠ .blkend →
      t.core.meter = s.core.meter ∧ t.core.mseq = s.core.mseq

/-! ### PREPARE (40_lifecycle_commands.md R102, R103) -/

/-- 40 R102 checks 2 to 7, 60 R308: PREPARE answers with the code of the first check that fails, else `OK`; it always answers. -/
def Obligations.PrepareChecksInOrder : Prop :=
  ∀ (nch fmt : BitVec 4) (rate : Word) (s : State), ∃ t, exec (.prepare nch fmt rate) s = .next t
    ∧ t.lastCode = some
      (if s.core.life = .active ∨ s.core.life = .inblock then .eState
       else if ¬(nch = 1 ∨ nch = 2) ∨ ¬(fmt = 0 ∨ fmt = 1) then .eFormat
       else if ¬(isFinite rate = true ∧ flt cZero rate = true) then .eRange
       else if s.core.xloW = false ∨ s.core.xhiW = false ∨ s.core.decayW = false then .eConfig
       else if ¬(flt s.core.pending.xlo (fdiv rate cTwo) = true) ∨ ¬(flt s.core.pending.xhi (fdiv rate cTwo) = true) then .eRange
       else if (planMode Config.cfg rate s.core.pending.os s.core.pending.phase).isNone then .eConfig
       else .ok)

/-- 40 R102, R103 with `P_OS` = 0, where there is nothing to plan: PREPARE completes, in either phase mode, with every register
as listed and everything else as before. The entries of `DESC` and `COEF` become unwritten, for which the model's value stands
(log 9). -/
def Obligations.PrepareCompletesAtUnity : Prop :=
  ∀ (nch fmt : BitVec 4) (rate : Word) (chs : Channels) (sf : SampleFormat) (s : State),
    s.core.life = .unconf ∨ s.core.life = .ready →
    (nch = 1 ∧ chs = .mono) ∨ (nch = 2 ∧ chs = .stereo) → (fmt = 0 ∧ sf = .b32) ∨ (fmt = 1 ∧ sf = .b64) →
    isFinite rate = true → flt cZero rate = true → s.core.xloW = true → s.core.xhiW = true → s.core.decayW = true →
    flt s.core.pending.xlo (fdiv rate cTwo) = true → flt s.core.pending.xhi (fdiv rate cTwo) = true → s.core.pending.os = 0 →
      let wrate := fmul (ofNat64 1) rate
      let cl := splitCoef Config.cfg s.core.pending.xlo wrate
      let ch := splitCoef Config.cfg s.core.pending.xhi wrate
      let files : Channel :=
        { hup := ⟨[], [], []⟩, hdn := ⟨[], [], []⟩, lps := 0, lpy := 0, hps := 0, hpy := 0, lq := []
          envIn := cMinusHundred, envOut := cMinusHundred, rsUp := none, rsDn := none }
      exec (.prepare nch fmt rate) s = .next
        { s with
          core :=
            { s.core with
              rate := rate, nch := chs, fmt := sf, wrate := wrate
              active :=
                { s.core.active with
                  os := 0, phase := s.core.pending.phase, xlo := s.core.pending.xlo, xhi := s.core.pending.xhi
                  envm := s.core.pending.envm, decay := s.core.pending.decay }
              descUp := State.reset.core.descUp, descDn := State.reset.core.descDn
              coefUp := State.reset.core.coefUp, coefDn := State.reset.core.coefDn
              cl := cl, ch := ch, g := Config.cfg.midGain cl ch, gr := fdiv cOne (Config.cfg.midGain cl ch)
              aatt := (envCoefs Config.cfg rate s.core.pending.decay).1, arel := (envCoefs Config.cfg rate s.core.pending.decay).2
              chan0 := files, chan1 := files, lat := 0, latchg := false, life := .ready }
          port := { s.port with responses := s.port.responses ++ [⟨.ok, []⟩] } }

/-- 40 R102, R103, 44 R207, for every configuration: a PREPARE whose checks pass and whose planning succeeds writes the plan, the
stream format, the active mode and every coefficient, clears histories, running values and envelopes, resizes both queues to the
new `LAT`, clears `LATCHG`, and leaves registers 0 to 5, `CA..CD`, the counters, the mailbox and the sticky faults. In LIN mode with
f > 1 both channels get the Resampler instances that `rsCreate` gives for the rates of R103; else they have none. `exec` is this
with the machine's own configuration. -/
def Obligations.PrepareCommits : Prop :=
  (∀ (nch fmt : BitVec 4) (rate : Word) (s : State),
    exec (.prepare nch fmt rate) s = .next (prepareWith Config.cfg nch fmt rate s))
  ∧ ∀ (cfg : Cfg) (nch fmt : BitVec 4) (rate : Word) (chs : Channels) (sf : SampleFormat) (plan : Plan) (s : State),
    prepareChecks s.core nch fmt rate = .ok (chs, sf) →
    planMode cfg rate s.core.pending.os s.core.pending.phase = some plan →
      let t := prepareWith cfg nch fmt rate s
      t.core.rate = rate ∧ t.core.nch = chs ∧ t.core.fmt = sf ∧ t.core.life = .ready ∧ t.core.latchg = false
      ∧ t.core.active =
          { s.core.active with
            os := s.core.pending.os, phase := s.core.pending.phase, xlo := s.core.pending.xlo, xhi := s.core.pending.xhi
            envm := s.core.pending.envm, decay := s.core.pending.decay }
      ∧ t.core.wrate = fmul (ofNat64 (2 ^ s.core.pending.os.toNat)) rate
      ∧ t.core.descUp = plan.descUp ∧ t.core.descDn = plan.descDn ∧ t.core.coefUp = plan.coefUp ∧ t.core.coefDn = plan.coefDn
      ∧ t.core.cl = splitCoef cfg s.core.pending.xlo t.core.wrate ∧ t.core.ch = splitCoef cfg s.core.pending.xhi t.core.wrate
      ∧ t.core.g = cfg.midGain t.core.cl t.core.ch ∧ t.core.gr = fdiv cOne t.core.g
      ∧ (t.core.aatt, t.core.arel) = envCoefs cfg rate s.core.pending.decay
      ∧ (∀ f : Core → Channel, f = Core.chan0 ∨ f = Core.chan1 →
          (f t.core).lps = 0 ∧ (f t.core).lpy = 0 ∧ (f t.core).hps = 0 ∧ (f t.core).hpy = 0
          ∧ (f t.core).envIn = cMinusHundred ∧ (f t.core).envOut = cMinusHundred
          ∧ (f t.core).lq = resize (f s.core).lq t.core.lat ∧ (f t.core).lq.length = t.core.lat
          ∧ (f t.core).rsUp = plan.rsUp ∧ (f t.core).rsDn = plan.rsDn
          ∧ (s.core.pending.os = 0 ∨ s.core.pending.phase = .min → (f t.core).rsUp = none ∧ (f t.core).rsDn = none)
          ∧ (s.core.pending.os ≠ 0 → s.core.pending.phase = .lin →
              let high := fmul (ofNat64 (2 ^ s.core.pending.os.toNat)) rate
              (f t.core).rsUp = cfg.rsCreate rate high cfg.rsMaxBlock cfg.rsQuality
                ∧ (f t.core).rsDn = cfg.rsCreate high rate cfg.rsMaxBlock cfg.rsQuality
                ∧ (f t.core).rsUp.isSome = true ∧ (f t.core).rsDn.isSome = true)
          ∧ ∀ k : Stage, (f t.core).hup.get k = List.replicate (t.core.descUp.get k).c 0
              ∧ (f t.core).hdn.get k = List.replicate ((t.core.descDn.get k).n - 2) 0)
      ∧ (s.core.pending.os = 0 → t.core.lat = 0)
      ∧ (s.core.pending.os ≠ 0 → s.core.pending.phase = .min →
          cascadeLatency t.core.descUp t.core.descDn s.core.pending.os = some t.core.lat)
      ∧ (s.core.pending.os ≠ 0 → s.core.pending.phase = .lin → t.core.lat = cfg.latLin (2 ^ s.core.pending.os.toNat))
      ∧ t.core.pending = s.core.pending ∧ t.core.curve = s.core.curve ∧ t.core.blkcnt = s.core.blkcnt
      ∧ t.core.meter = s.core.meter ∧ t.core.mseq = s.core.mseq ∧ t.core.nonfin = s.core.nonfin
      ∧ t.core.rsfault = s.core.rsfault ∧ t.core.proto = s.core.proto ∧ t.core.xloW = s.core.xloW
      ∧ t.core.xhiW = s.core.xhiW ∧ t.core.decayW = s.core.decayW ∧ t.freeCount = s.freeCount
      ∧ t.port = { s.port with responses := s.port.responses ++ [⟨.ok, []⟩] }

/-- 10 R44, whole: START, STOP and a successful PREPARE set every element of every `HUP` and `HDN` to +0.0. -/
def Obligations.HistoriesCleared : Prop :=
  ∀ (i : Instr) (s t : State), i.op ∈ [Op.start, .stop, .prepare] → exec i s = .next t → t.lastCode = some .ok →
    ∀ ch ∈ [t.core.chan0, t.core.chan1], ∀ k : Stage, (∀ w ∈ ch.hup.get k, w = 0) ∧ ∀ w ∈ ch.hdn.get k, w = 0

/-! ### START, STOP, BLKBEGIN, BLKEND (40_lifecycle_commands.md R105 to R108, R119) -/

/-- 40 R105: START in READY completes: histories and running values +0.0, in LIN mode with f > 1 fresh Resampler instances,
`ACTIVE`, everything else as before, the queues and envelopes among it; in any other state `E_STATE`. -/
def Obligations.StartResult : Prop :=
  ∀ s : State,
    let restarted := fun ch : Channel =>
      let f := ofNat64 (2 ^ s.core.active.os.toNat)
      let fresh := s.core.active.phase = .lin ∧ s.core.active.os ≠ 0
      { ch with
        hup := ⟨zeros ch.hup.k1.length, zeros ch.hup.k2.length, zeros ch.hup.k3.length⟩
        hdn := ⟨zeros ch.hdn.k1.length, zeros ch.hdn.k2.length, zeros ch.hdn.k3.length⟩
        lps := cZero, lpy := cZero, hps := cZero, hpy := cZero
        rsUp := if fresh then Config.cfg.rsCreate s.core.rate (fmul f s.core.rate) Config.cfg.rsMaxBlock Config.cfg.rsQuality
                else ch.rsUp
        rsDn := if fresh then Config.cfg.rsCreate (fmul f s.core.rate) s.core.rate Config.cfg.rsMaxBlock Config.cfg.rsQuality
                else ch.rsDn }
    (s.core.life = .ready →
      exec .start s = .next
        { s with
          core := { s.core with chan0 := restarted s.core.chan0, chan1 := restarted s.core.chan1, life := .active }
          port := { s.port with responses := s.port.responses ++ [⟨.ok, []⟩] } })
    ∧ (s.core.life ≠ .ready → exec .start s = .next (s.refuse .eState))

/-- 40 R106: STOP in ACTIVE completes with the same clears as START and `READY`; in any other state `E_STATE`. -/
def Obligations.StopResult : Prop :=
  ∀ s : State,
    let restarted := fun ch : Channel =>
      let f := ofNat64 (2 ^ s.core.active.os.toNat)
      let fresh := s.core.active.phase = .lin ∧ s.core.active.os ≠ 0
      { ch with
        hup := ⟨zeros ch.hup.k1.length, zeros ch.hup.k2.length, zeros ch.hup.k3.length⟩
        hdn := ⟨zeros ch.hdn.k1.length, zeros ch.hdn.k2.length, zeros ch.hdn.k3.length⟩
        lps := cZero, lpy := cZero, hps := cZero, hpy := cZero
        rsUp := if fresh then Config.cfg.rsCreate s.core.rate (fmul f s.core.rate) Config.cfg.rsMaxBlock Config.cfg.rsQuality
                else ch.rsUp
        rsDn := if fresh then Config.cfg.rsCreate (fmul f s.core.rate) s.core.rate Config.cfg.rsMaxBlock Config.cfg.rsQuality
                else ch.rsDn }
    (s.core.life = .active →
      exec .stop s = .next
        { s with
          core := { s.core with chan0 := restarted s.core.chan0, chan1 := restarted s.core.chan1, life := .ready }
          port := { s.port with responses := s.port.responses ++ [⟨.ok, []⟩] } })
    ∧ (s.core.life ≠ .active → exec .stop s = .next (s.refuse .eState))

/-- 40 R108, whole: BLKBEGIN in ACTIVE completes: registers 0 to 5 commit, `CA..CD` are those of the new `A_CURVE`, `LATCHG` is
set where the pending mode differs and never cleared, `BLKCNT` is 0, `INBLOCK`; everything else as before, the mode among it. -/
def Obligations.BlkbeginResult : Prop :=
  decode 0x08000000 [] = .ok .blkbegin
  ∧ ∀ s : State,
    (s.core.life = .active →
      exec .blkbegin s = .next
        { s with
          core :=
            { s.core with
              active :=
                { s.core.active with
                  ig := s.core.pending.ig, og := s.core.pending.og, mix := s.core.pending.mix
                  curve := s.core.pending.curve, clip := s.core.pending.clip, split := s.core.pending.split }
              curve := curveCoefs s.core.pending.curve
              latchg :=
                if s.core.pending.os ≠ s.core.active.os ∨ s.core.pending.phase ≠ s.core.active.phase then true
                else s.core.latchg
              blkcnt := 0, life := .inblock }
          port := { s.port with responses := s.port.responses ++ [⟨.ok, []⟩] } })
    ∧ (s.core.life ≠ .active → exec .blkbegin s = .next (s.refuse .eState))

/-- 40 R119, whole: BLKEND in INBLOCK completes: `M_SEQ` counts, the mailbox is replaced as a whole with `M_GR` any value (93 U7),
`ACTIVE`; every other register as before. That the model's own count of free values moves on by one, since `M_GR` takes one, is
the model's choice (log 12, log 17). -/
def Obligations.BlkendResult : Prop :=
  decode 0x0A000000 [] = .ok .blkend
  ∧ ∀ s : State,
    (s.core.life = .inblock → ∃ gr : Word,
      exec .blkend s = .next
        { core :=
            { s.core with
              mseq := BitVec.ofNat 32 ((s.core.mseq.toNat + 1) % 2 ^ 32)
              meter :=
                { rate := s.core.rate, num := s.core.blkcnt.setWidth 64
                  inL := level Config.cfg s.core.active.envm s.core.chan0.envIn
                  inR := level Config.cfg s.core.active.envm s.core.chan1.envIn
                  outL := level Config.cfg s.core.active.envm s.core.chan0.envOut
                  outR := level Config.cfg s.core.active.envm s.core.chan1.envOut
                  gr := gr, stamp := BitVec.ofNat 64 ((s.core.mseq.toNat + 1) % 2 ^ 32) }
              life := .active }
          port := { s.port with responses := s.port.responses ++ [⟨.ok, []⟩] }
          freeCount := s.freeCount + 1 })
    ∧ (s.core.life ≠ .inblock → exec .blkend s = .next (s.refuse .eState))

/-! ### FRAME (40_lifecycle_commands.md R110 to R118) -/

/-- 40 R110, 60 R302: FRAME in INBLOCK completes with `OK` and `NCH` result words for every sample, counts the frame, and of the
core's state changes only the channels and the two sticky faults, which it never clears. -/
def Obligations.FrameCompletes : Prop :=
  ∀ (samples : List Word) (s : State), s.core.life = .inblock →
    ∃ t results, exec (.frame samples) s = .next t ∧ results.length = s.core.nch.count
      ∧ t.port = { s.port with responses := s.port.responses ++ [⟨.ok, results⟩] }
      ∧ t.core =
          { s.core with
            chan0 := t.core.chan0, chan1 := t.core.chan1, nonfin := t.core.nonfin, rsfault := t.core.rsfault
            blkcnt := if s.core.blkcnt = BitVec.allOnes 32 then s.core.blkcnt else s.core.blkcnt + 1 }
      ∧ (s.core.nonfin = true → t.core.nonfin = true) ∧ (s.core.rsfault = true → t.core.rsfault = true)

/-- 40 R110 to R118, 44 R211, R212, for every configuration and every Resampler, in every mode, LIN with f > 1 among them: where
each Resampler call answers the right count and every value that 40 R118 lists is finite, FRAME in INBLOCK gives for each channel
in use the sample of the chain that the rules write (`framePath`: gain and clip, rate conversion up, non-linearity, rate
conversion down, alignment and mix, output gain) and updates exactly the files of that chain; no fault is raised and nothing else
changes. `exec` is this with the machine's own configuration. -/
def Obligations.FrameResult : Prop :=
  (∀ (samples : List Word) (s : State), exec (.frame samples) s = .next (frameWith Config.cfg samples s))
  ∧ ∀ (cfg : Cfg) (x0 x1 : Word) (s : State),
    let c := s.core
    let r0 := framePath cfg c c.chan0 x0
    let r1 := framePath cfg c c.chan1 x1
    let counted := if c.blkcnt = BitVec.allOnes 32 then c.blkcnt else c.blkcnt + 1
    c.life = .inblock → r0.rightCounts = true → r0.finite = true →
      (c.nch = .mono →
        frameWith cfg [x0] s =
          { s with
            core := { c with chan0 := r0.chan, blkcnt := counted }
            port := { s.port with responses := s.port.responses ++ [⟨.ok, [sampleOut c.fmt r0.y]⟩] } })
      ∧ (c.nch = .stereo → r1.rightCounts = true → r1.finite = true →
        frameWith cfg [x0, x1] s =
          { s with
            core := { c with chan0 := r0.chan, chan1 := r1.chan, blkcnt := counted }
            port :=
              { s.port with
                responses := s.port.responses ++ [⟨.ok, [sampleOut c.fmt r0.y, sampleOut c.fmt r1.y]⟩] } })

/-- 60 R304, 40 R118, 93 U1, for every configuration: with right counts of the Resampler, a FRAME in INBLOCK raises `NONFIN` exactly
where, in a channel in use, a value that 40 R118 lists is not finite: the sample, d, an input, output or intermediate sum of a stage
step, an input or output of a Resampler call, a band or state or shaped band or result of the non-linearity, w, dd, m, y, the
converted output, a new envelope state (`framePath`). The two exempt values, the gained sample before the clip and `fl(G × mid)`,
are not among them. Whatever the counts, a sample or d that is not finite raises it, and a raised flag stays. FRAME still answers
`OK`, and the queues keep their lengths. -/
def Obligations.NonFiniteSampleFlagged : Prop :=
  ∀ (cfg : Cfg) (samples : List Word) (s : State), s.core.life = .inblock →
    let t := frameWith cfg samples s
    let r0 := framePath cfg s.core s.core.chan0 (memRead samples 0)
    let r1 := framePath cfg s.core s.core.chan1 (memRead samples 1)
    let rejected := fun opd : Word =>
      isFinite (sampleIn s.core.fmt opd) = false ∨ isFinite (gainClip s.core (sampleIn s.core.fmt opd)) = false
    (r0.rightCounts = true → r0.finite = false → t.core.nonfin = true)
    ∧ (s.core.nch = .stereo → r1.rightCounts = true → r1.finite = false → t.core.nonfin = true)
    ∧ (r0.rightCounts = true → r0.finite = true →
        (s.core.nch = .stereo → r1.rightCounts = true ∧ r1.finite = true) → t.core.nonfin = s.core.nonfin)
    ∧ (rejected (memRead samples 0) ∨ (s.core.nch = .stereo ∧ rejected (memRead samples 1)) → t.core.nonfin = true)
    ∧ (s.core.nonfin = true → t.core.nonfin = true)
    ∧ exec (.frame samples) s = .next (frameWith Config.cfg samples s) ∧ t.lastCode = some .ok
    ∧ t.core.chan0.lq.length = s.core.chan0.lq.length ∧ t.core.chan1.lq.length = s.core.chan1.lq.length

/-- 10 R50: with `NCH` = 1 FRAME touches only channel 0's state; channel 1 keeps every value. -/
def Obligations.MonoLeavesChannelOne : Prop :=
  ∀ (samples : List Word) (s t : State), s.core.nch = .mono → exec (.frame samples) s = .next t → t.core.chan1 = s.core.chan1

/-- 49 R290, 60 R315, 40 R110, 93 U1, for every configuration: the channels share no state. What a FRAME gives for channel 0 does not
depend on channel 1's sample and files. What it gives for channel 1 does not depend on channel 0's, whatever becomes of channel 0,
a non-finite value or a wrong count among it, where channel 1 itself uses no free value (the free values of a frame are numbered
across both channels, log 11). Where channel 0 itself uses free values, after a non-finite value or a wrong count, the spec says
nothing of its values in two runs: that they are equal is the model's choice (log 32), not a rule. -/
def Obligations.ChannelsIndependent : Prop :=
  ∀ (cfg : Cfg) (s : State) (x0 x1 y : Word) (other : Channel), s.core.life = .inblock → s.core.nch = .stereo →
    let t := frameWith cfg [x0, x1] s
    let u0 := frameWith cfg [x0, y] { s with core := { s.core with chan1 := other } }
    let u1 := frameWith cfg [y, x1] { s with core := { s.core with chan0 := other } }
    let r1 := framePath cfg s.core s.core.chan1 x1
    (t.core.chan0 = u0.core.chan0
      ∧ (t.lastResponse.map fun r => r.results[0]?) = u0.lastResponse.map fun r => r.results[0]?)
    ∧ (r1.rightCounts = true → r1.finite = true →
        t.core.chan1 = u1.core.chan1
        ∧ (t.lastResponse.map fun r => r.results[1]?) = u1.lastResponse.map fun r => r.results[1]?)

/-- 49 R281, whole: `BLKCNT` saturates at 2^32 − 1, `M_SEQ` wraps modulo 2^32, GETLAT returns `zext_64(LAT)`. -/
def Obligations.Counters : Prop :=
  (∀ (samples : List Word) (s t : State), s.core.life = .inblock → exec (.frame samples) s = .next t →
    t.core.blkcnt.toNat = min (s.core.blkcnt.toNat + 1) (2 ^ 32 - 1))
  ∧ (∀ s t : State, s.core.life = .inblock → exec .blkend s = .next t →
      t.core.mseq.toNat = (s.core.mseq.toNat + 1) % 2 ^ 32)
  ∧ ∀ s t : State, s.core.lat < 2 ^ 64 → exec .getlat s = .next t →
      ∃ w : Word, t.lastResponse = some ⟨.ok, [w]⟩ ∧ w.toNat = s.core.lat

/-- 60 R305, 44 R211, for every Resampler: at f = 1 and in MIN mode FRAME never raises `RSFAULT`. In LIN mode with f > 1 it raises it
exactly where a call of a channel in use, the up one or the down one, of channel 0 or with `NCH` = 2 of channel 1, answers a wrong
count (an absent instance counts as a wrong one, log 14); a raised flag stays, and the command still answers `OK`. -/
def Obligations.ResamplerFaultRaised : Prop :=
  (∀ (cfg : Cfg) (samples : List Word) (s : State), s.core.active.phase = .min ∨ s.core.active.os = 0 →
    (frameWith cfg samples s).core.rsfault = s.core.rsfault)
  ∧ ∀ (cfg : Cfg) (samples : List Word) (s : State), s.core.life = .inblock → s.core.active.phase = .lin → s.core.active.os ≠ 0 →
      let wrong := fun (ch : Channel) (opd : Word) =>
        let d := gainClip s.core (sampleIn s.core.fmt opd)
        let up := rsAnswer cfg ch.rsUp [d]
        up.1.length ≠ 2 ^ s.core.active.os.toNat ∨ (rsAnswer cfg ch.rsDn (shapePath s.core ch up.1).out).1.length ≠ 1
      ((frameWith cfg samples s).core.status.getLsbD 9 = true ↔
        s.core.rsfault = true ∨ wrong s.core.chan0 (memRead samples 0)
          ∨ (s.core.nch = .stereo ∧ wrong s.core.chan1 (memRead samples 1)))
      ∧ (frameWith cfg samples s).lastCode = some .ok

/-- 44 R211, for every Resampler: the instance moves on with each call; with the right count the answer is used as it is, with a
wrong one the conversion reports the fault (`RSFAULT` itself is in `ResamplerFaultRaised`) and f (up) or one (down) values are
used, which are the model's free values (log 13). -/
def Obligations.ResamplerCalls : Prop :=
  ∀ (cfg : Cfg) (c : Core) (n : Nat) (ch : Channel) (st st' : RsState) (out : List Word),
    c.active.phase = .lin → c.active.os ≠ 0 →
      (∀ d : Word, ch.rsUp = some st → cfg.rsProcess st [d] = (st', out) →
        let r := convertUp cfg c n ch d
        r.chan = { ch with rsUp := some st' } ∧ r.out.length = 2 ^ c.active.os.toNat
          ∧ (out.length = 2 ^ c.active.os.toNat → r.out = out ∧ r.fault = false)
          ∧ (out.length ≠ 2 ^ c.active.os.toNat → r.fault = true))
      ∧ (∀ p : List Word, ch.rsDn = some st → cfg.rsProcess st p = (st', out) →
        let r := convertDown cfg c n ch p
        r.chan = { ch with rsDn := some st' } ∧ r.out.length = 1
          ∧ (out.length = 1 → r.out = out ∧ r.fault = false) ∧ (out.length ≠ 1 → r.fault = true))

/-! ### Parameter and query commands (41_parameter_commands.md) -/

/-- 41 R131, R132, whole: SETIG and SETOG write their pending copy where the operand is finite, else `E_RANGE` and nothing
changes. -/
def Obligations.SetGains : Prop :=
  ∀ (v : Word) (s : State),
    decode 0x10000000 [v] = .ok (.setig v) ∧ decode 0x11000000 [v] = .ok (.setog v)
    ∧ (isFinite v = true →
        exec (.setig v) s = .next
            { s with
              core := { s.core with pending := { s.core.pending with ig := v } }
              port := { s.port with responses := s.port.responses ++ [⟨.ok, []⟩] } }
        ∧ exec (.setog v) s = .next
            { s with
              core := { s.core with pending := { s.core.pending with og := v } }
              port := { s.port with responses := s.port.responses ++ [⟨.ok, []⟩] } })
    ∧ (isFinite v = false →
        exec (.setig v) s = .next (s.respond .eRange []) ∧ exec (.setog v) s = .next (s.respond .eRange []))

/-- 41 R133, R134, whole: SETMIX and SETCURVE write their pending copy, as given, where 0.0 ≤ v and v ≤ 1.0, which −0.0 meets and
no NaN does; else `E_RANGE`. `CA..CD` do not change. -/
def Obligations.SetMixAndCurve : Prop :=
  (∀ (v : Word) (s : State),
    decode 0x12000000 [v] = .ok (.setmix v) ∧ decode 0x13000000 [v] = .ok (.setcurve v)
    ∧ (fle cZero v = true → fle v cOne = true →
        exec (.setmix v) s = .next
            { s with
              core := { s.core with pending := { s.core.pending with mix := v } }
              port := { s.port with responses := s.port.responses ++ [⟨.ok, []⟩] } }
        ∧ exec (.setcurve v) s = .next
            { s with
              core := { s.core with pending := { s.core.pending with curve := v } }
              port := { s.port with responses := s.port.responses ++ [⟨.ok, []⟩] } })
    ∧ (fle cZero v = false ∨ fle v cOne = false ∨ isNan v = true →
        exec (.setmix v) s = .next (s.respond .eRange []) ∧ exec (.setcurve v) s = .next (s.respond .eRange [])))
  ∧ fle cZero (fneg cZero) = true ∧ fle (fneg cZero) cOne = true

/-- 41 R135 to R138, R141: SETCLIP, SETSPLIT, SETOS, SETPHASE and SETENVM always complete and change only their pending copy: the
active mode, `LATCHG` and `LAT` stay. -/
def Obligations.SetModes : Prop :=
  ∀ (b : Bool) (code : BitVec 2) (p : Phase) (m : EnvMode) (s : State),
    let with_ := fun q : Params => (Host.Outcome.next
      { s with
        core := { s.core with pending := q }
        port := { s.port with responses := s.port.responses ++ [⟨.ok, []⟩] } } : Host.Outcome State Fault Refusal)
    decode (0x14000000 ||| (BitVec.ofBool b).setWidth 32) [] = .ok (.setclip b)
    ∧ exec (.setclip b) s = with_ { s.core.pending with clip := b }
    ∧ decode (0x15000000 ||| (BitVec.ofBool b).setWidth 32) [] = .ok (.setsplit b)
    ∧ exec (.setsplit b) s = with_ { s.core.pending with split := b }
    ∧ exec (.setos code) s = with_ { s.core.pending with os := code }
    ∧ exec (.setphase p) s = with_ { s.core.pending with phase := p }
    ∧ exec (.setenvm m) s = with_ { s.core.pending with envm := m }

/-- 41 R139, R140, R142: SETXLO, SETXHI and SETDECAY write their pending copy and set its written flag where the operand is finite
and above 0.0; else `E_RANGE` and nothing changes. -/
def Obligations.SetCornersAndDecay : Prop :=
  ∀ (v : Word) (s : State),
    let answered := { s.port with responses := s.port.responses ++ [⟨RespCode.ok, []⟩] }
    decode 0x18000000 [v] = .ok (.setxlo v) ∧ decode 0x19000000 [v] = .ok (.setxhi v)
    ∧ decode 0x1B000000 [v] = .ok (.setdecay v)
    ∧ (isFinite v = true → flt cZero v = true →
        exec (.setxlo v) s = .next
            { s with core := { s.core with pending := { s.core.pending with xlo := v }, xloW := true }, port := answered }
        ∧ exec (.setxhi v) s = .next
            { s with core := { s.core with pending := { s.core.pending with xhi := v }, xhiW := true }, port := answered }
        ∧ exec (.setdecay v) s = .next
            { s with core := { s.core with pending := { s.core.pending with decay := v }, decayW := true }, port := answered })
    ∧ (isFinite v = false ∨ flt cZero v = false →
        exec (.setxlo v) s = .next (s.respond .eRange []) ∧ exec (.setxhi v) s = .next (s.respond .eRange [])
        ∧ exec (.setdecay v) s = .next (s.respond .eRange []))

/-- 41 R130, 70 R333: a setter changes, of the core, only the pending copies and the written flags, in whatever lifecycle state; of
two setters of one register the last accepted one wins, whatever the first answered. -/
def Obligations.LastEventWins : Prop :=
  (∀ (i : Instr) (s : State), isSet i = true → ∃ t, exec i s = .next t
    ∧ t.core =
        { s.core with
          pending := t.core.pending, xloW := t.core.xloW, xhiW := t.core.xhiW, decayW := t.core.decayW }
    ∧ (t.lastCode ≠ some .ok → t.core = s.core))
  ∧ ∀ (i j : Instr) (s t u u' : State), isSet i = true → i.op = j.op → exec i s = .next t → exec j t = .next u →
      exec j s = .next u' → u'.lastCode = some .ok → u.core = u'.core

/-- 41 R145 to R147: GETLAT, GETSTAT and GETMETER complete in every state, answer their register, and change no state of the
core; GETLAT returns 0 in UNCONF in every state that meets the invariant. For a `LAT` of 2^64 or more the low 64 bits that GETLAT
gives are the model's choice (log 18). -/
def Obligations.Queries : Prop :=
  (∀ s : State,
    exec .getlat s = .next
        { s with port := { s.port with responses := s.port.responses ++ [⟨.ok, [BitVec.ofNat 64 s.core.lat]⟩] } }
    ∧ exec .getstat s = .next
        { s with port := { s.port with responses := s.port.responses ++ [⟨.ok, [s.core.status.setWidth 64]⟩] } }
    ∧ exec .getmeter s = .next
        { s with
          port :=
            { s.port with
              responses := s.port.responses ++
                [⟨.ok,
                  [s.core.meter.rate, s.core.meter.num, s.core.meter.inL, s.core.meter.inR, s.core.meter.outL,
                    s.core.meter.outR, s.core.meter.gr, s.core.meter.stamp]⟩] } })
  ∧ ∀ s t : State, s.core.Inv → s.core.life = .unconf → exec .getlat s = .next t → t.lastResponse = some ⟨.ok, [0]⟩

/-! ### The components -/

/-- 40 R112, whole: with the clip on, the gained sample is held between −1.0 and +1.0, an infinite one too, and passes unchanged in
between or as a NaN; with it off it passes unchanged. -/
def Obligations.GainClipBounds : Prop :=
  ∀ (c : Core) (x : Word),
    (c.active.clip = false → gainClip c x = fmul x c.active.ig)
    ∧ (c.active.clip = true →
        (isNan (fmul x c.active.ig) = true → gainClip c x = fmul x c.active.ig)
        ∧ (isNan (fmul x c.active.ig) = false →
            fle cMinusOne (gainClip c x) = true ∧ fle (gainClip c x) cOne = true ∧ isFinite (gainClip c x) = true)
        ∧ (fle cMinusOne (fmul x c.active.ig) = true → fle (fmul x c.active.ig) cOne = true →
            gainClip c x = fmul x c.active.ig)
        ∧ (flt cOne (fmul x c.active.ig) = true → gainClip c x = cOne)
        ∧ (flt (fmul x c.active.ig) cMinusOne = true → gainClip c x = cMinusOne))

/-- 46 R241, R242, and R244 where it and R242 agree: the four curve coefficients; `Shape` is +0.0 at ±0 and from |x| = 2 on, the
infinities included; for 0 < x ≤ 1 it is the polynomial, in the rule's order of operations; for 1 < x < 2 it is the taper 2x − x²,
which lies between 0 and 1; it is odd bit for bit for 0 < |x| < 2. -/
def Obligations.ShapeOddAndBounded : Prop :=
  (∀ v : Word,
    let cp := fsub v cHalf
    curveCoefs v =
      ⟨fadd cThreeHalves cp, fmul cMinusTwo cp, fsub cp cHalf,
        fadd (fsub cSixteenth (fmul cQuarter cp)) (fmul cQuarter (fmul cp cp))⟩)
  ∧ ∀ (k : Curve) (x : Word),
    (feq x cZero = true ∨ fle cTwo (fabs x) = true → shape k x = cZero)
    ∧ (flt cZero x = true → fle x cOne = true →
        let s2 := fmul x x
        let s3 := fmul s2 x
        let s4 := fmul s2 s2
        let q := fadd (fsub s2 (fmul cTwo s3)) s4
        shape k x = fsub (fadd (fadd (fmul k.ca x) (fmul k.cb s2)) (fmul k.cc s3)) (fmul k.cd q))
    ∧ (flt cOne x = true → flt x cTwo = true →
        shape k x = fsub (fmul cTwo x) (fmul x x) ∧ fle cZero (shape k x) = true ∧ fle (shape k x) cOne = true)
    ∧ (flt cZero (fabs x) = true → flt (fabs x) cTwo = true → shape k (fneg x) = fneg (shape k x))

/-- 10 R40, 43 R182, R186, 49 R280: for every odd tap count N ≥ 3 the descriptor has the tabulated fields, and every index that a
step of a stage uses is in range; the two entries of a pair are distinct. -/
def Obligations.DescriptorIndices : Prop :=
  ∀ n : Nat, n % 2 = 1 → 3 ≤ n →
    let d := Desc.ofTaps n
    d.n = n ∧ 2 * d.c + 1 = n ∧ d.c = n / 2 ∧ d.thh = n / 2 / 2 ∧ d.pc = n % 4 ∧ (d.pc = 1 ∨ d.pc = 3)
      ∧ (d.pc = 1 → d.start = 1) ∧ (d.pc = 3 → d.start = 0) ∧ d.np = d.thh + (1 - d.start)
      ∧ (d.c + 1 - d.start) % 2 = 0 ∧ (d.c + 1 - d.start) / 2 ≤ d.c
      ∧ ∀ i < d.np, i ≤ d.c ∧ i + d.start < d.c - i ∧ d.start + 2 * i < d.c ∧ d.c < n - 1 - d.start - 2 * i
          ∧ d.start + 2 * i ≤ n - 1

/-- 40 R103, 10 R41, 44 R206, 42 R161 to R169, for every configuration. `PlanMode` succeeds at f = 1; in MIN mode with f > 1 exactly
where every stage in use has an odd tap count from 3 to `MAX_TAPS` and a finite attenuation not below 0, and `CascadeLatency` is
defined and fits `LAT_MAX`; in LIN mode with f > 1 exactly where both `rsCreate` calls answer an instance and `LAT_LIN[f]` fits
`LAT_MAX`. In MIN mode each stage in use has its descriptor and two symmetric tables with one coefficient per tap, designed for DN,
doubled for UP. `Design` gives `fl(fl(Ideal(n) × wnum(n)) / I0(beta))` at the distance n on both sides of the centre. `I0` is the sum
where its loop first ends (within the model's 1024 passes, log 15), which is never below 1, and 1.0 at 0.0. Where the values of `I0`
are finite and not below 1, the centre tap is 0.5 (for a finite beta) and the taps at an even distance are +0.0, the end taps for
`PC` = 1 among them. -/
def Obligations.PlannedTables : Prop :=
  (∀ (cfg : Cfg) (rate : Word) (os : BitVec 2) (p : Plan), planMode cfg rate os .min = some p →
    p.lat ≤ cfg.latMax
    ∧ ∀ k ∈ stagesOf os,
      let su := cfg.stageSpec rate (2 ^ os.toNat) k .up
      let sd := cfg.stageSpec rate (2 ^ os.toNat) k .dn
      su.1 % 2 = 1 ∧ 3 ≤ su.1 ∧ su.1 ≤ cfg.maxTaps ∧ sd.1 % 2 = 1 ∧ 3 ≤ sd.1 ∧ sd.1 ≤ cfg.maxTaps
        ∧ p.descUp.get k = Desc.ofTaps su.1 ∧ p.descDn.get k = Desc.ofTaps sd.1
        ∧ (p.descUp.get k).n = su.1 ∧ (p.descDn.get k).n = sd.1
        ∧ p.coefUp.get k = (design cfg su.1 su.2).map (fmul cTwo) ∧ p.coefDn.get k = design cfg sd.1 sd.2
        ∧ (p.coefUp.get k).length = su.1 ∧ (p.coefDn.get k).length = sd.1
        ∧ (∀ j < su.1, (p.coefUp.get k)[j]? = (p.coefUp.get k)[su.1 - 1 - j]?)
        ∧ ∀ j < sd.1, (p.coefDn.get k)[j]? = (p.coefDn.get k)[sd.1 - 1 - j]?)
  ∧ (∀ (cfg : Cfg) (rate : Word) (phase : Phase), planMode cfg rate 0 phase = some (Plan.bare 0))
  ∧ (∀ (cfg : Cfg) (rate : Word) (os : BitVec 2), os ≠ 0 →
      let spec := fun (k : Stage) (dir : Dir) => cfg.stageSpec rate (2 ^ os.toNat) k dir
      let descs := fun dir : Dir =>
        (⟨Desc.ofTaps (spec .k1 dir).1, Desc.ofTaps (spec .k2 dir).1, Desc.ofTaps (spec .k3 dir).1⟩ : PerStage Desc)
      ((planMode cfg rate os .min).isSome = true ↔
        (∀ k ∈ stagesOf os, ∀ dir : Dir, UsableSpec cfg (spec k dir))
          ∧ ∃ lat, cascadeLatency (descs .up) (descs .dn) os = some lat ∧ lat ≤ cfg.latMax)
      ∧ ∀ p : Plan, planMode cfg rate os .lin = some p ↔
          ∃ up dn, cfg.rsCreate rate (fmul (ofNat64 (2 ^ os.toNat)) rate) cfg.rsMaxBlock cfg.rsQuality = some up
            ∧ cfg.rsCreate (fmul (ofNat64 (2 ^ os.toNat)) rate) rate cfg.rsMaxBlock cfg.rsQuality = some dn
            ∧ cfg.latLin (2 ^ os.toNat) ≤ cfg.latMax
            ∧ p = { Plan.bare (cfg.latLin (2 ^ os.toNat)) with rsUp := some up, rsDn := some dn })
  ∧ (∀ (cfg : Cfg) (x : Word) (k : Nat), 1 ≤ k → k ≤ 1024 → (besselSum x k).ends = true →
      (∀ j, 1 ≤ j → j < k → (besselSum x j).ends = false) → i0 cfg x = (besselSum x k).s)
  ∧ (∀ (x : Word) (k : Nat), (besselSum x k).ends = true → fle cOne (besselSum x k).s = true)
  ∧ (∀ cfg : Cfg, i0 cfg cZero = cOne)
  ∧ ∀ (cfg : Cfg) (n : Nat) (att : Word), n % 2 = 1 → 3 ≤ n →
      let c := (n - 1) / 2
      let beta := betaRule cfg att
      let ib := i0 cfg beta
      let wnum := wnumRule (i0 cfg) beta c
      (design cfg n att).length = n
      ∧ (∀ j ≤ c, (design cfg n att)[c + j]? = some (fdiv (fmul (idealRule j) (wnum j)) ib)
          ∧ (design cfg n att)[c - j]? = some (fdiv (fmul (idealRule j) (wnum j)) ib))
      ∧ (isFinite ib = true → fle cOne ib = true →
          (isFinite beta = true → (design cfg n att)[c]? = some cHalf)
          ∧ (∀ j ≤ c, j % 2 = 0 → j ≠ 0 → isFinite (wnum j) = true → fle cOne (wnum j) = true →
              (design cfg n att)[c + j]? = some cZero ∧ (design cfg n att)[c - j]? = some cZero)
          ∧ (n % 4 = 1 → (design cfg n att)[0]? = some cZero ∧ (design cfg n att)[n - 1]? = some cZero))

/-- 43 R182, R183, R186, R187: an up step gives the accumulator and the centre sample, the accumulator first where START = 1 and
the centre first else; then the new input is element 0 of the history and the oldest element has fallen off. A down step gives the
accumulator and the centre product added last; then b is element 0, a element 1, and the two oldest have fallen off. -/
def Obligations.HistoryShift : Prop :=
  (∀ (d : Desc) (table hist : List Word) (x : Word),
    (hbUp d table hist x).out = [(upOutputs d table hist x).1, (upOutputs d table hist x).2]
    ∧ (hist.length = d.c →
        (hbUp d table hist x).hist.length = d.c
        ∧ ∀ j < d.c, (hbUp d table hist x).hist[j]? = if j = 0 then some x else hist[j - 1]?))
  ∧ ∀ (d : Desc) (table hist : List Word) (a b : Word),
      (hbDn d table hist a b).out = [dnOutput d table hist a b]
      ∧ (hist.length = d.n - 2 →
          (hbDn d table hist a b).hist.length = d.n - 2
          ∧ ∀ j < d.n - 2, (hbDn d table hist a b).hist[j]? =
              if j = 0 then some b else if j = 1 then some a else hist[j - 2]?)

/-- 44 R202, R203, 40 R113, R115: the cascades are the rules' loops over stages 1 to K and K to 1, each stage fed with what the one
before gave; the up cascade gives f sub-samples for one sample, the down cascade one sample for f. -/
def Obligations.CascadeCounts : Prop :=
  ∀ (c : Core) (hup hdn : PerStage (List Word)) (d : Word) (p : List Word),
    let up := networkPath upPath c.descUp c.coefUp (stagesOf c.active.os) hup [d]
    let dn := networkPath dnPath c.descDn c.coefDn (stagesOf c.active.os).reverse hdn p
    (cascadeUp c hup d).out = up.out ∧ (cascadeUp c hup d).hist = up.hist
    ∧ (cascadeDown c hdn p).out = dn.out ∧ (cascadeDown c hdn p).hist = dn.hist
    ∧ (cascadeUp c hup d).out.length = 2 ^ c.active.os.toNat
    ∧ (p.length = 2 ^ c.active.os.toNat → (cascadeDown c hdn p).out.length = 1)

/-- 44 R206: `CascadeLatency(f)` is none exactly where the partial sum of a stage in use is odd, else half the partial sum of stage 1
(0 at f = 1); and where it is defined it is the sum of the stages' delays, each counted in samples of its own working rate:
L × f = Σ (C_up,k + C_dn,k) × f / 2^k. -/
def Obligations.CascadeLatencySum : Prop :=
  ∀ (descUp descDn : PerStage Desc) (os : BitVec 2),
    (cascadeLatency descUp descDn os = none ↔ ∃ k ∈ stagesOf os, delaySum descUp descDn os k % 2 = 1)
    ∧ ∀ latency : Nat, cascadeLatency descUp descDn os = some latency →
        latency = (if os = 0 then 0 else delaySum descUp descDn os .k1 / 2)
        ∧ latency * 2 ^ os.toNat =
            ((stagesOf os).map fun k => ((descUp.get k).c + (descDn.get k).c) * 2 ^ (os.toNat - k.toNat)).sum

/-- 45 R220, R224, R226, R336, 40 R114: with `A_SPLIT` = 0 the non-linearity is `Shape` of each sub-sample and the split sections keep
their running values. With `A_SPLIT` = 1 each sub-sample updates `LPS`, `LPY`, `HPS`, `HPY`, splits into the three bands and gives
`fl(fl(sl + sm) + sh)`; over a frame it does so sub-sample by sub-sample, in order. With it on or off there is one result for each
sub-sample. A section's coefficient is that of R220. -/
def Obligations.SplitOffKeepsSections : Prop :=
  (∀ (c : Core) (ch : Channel) (v : Word), c.active.split = true →
    let lp := fadd ch.lps (fmul c.cl (fsub v ch.lps))
    let hp := fadd ch.hps (fmul c.ch (fsub v ch.hps))
    let sl := shape c.curve lp
    let sm := fmul c.gr (shape c.curve (fmul c.g (fsub hp lp)))
    let sh := shape c.curve (fsub v hp)
    (nonLin c ch v).out = [fadd (fadd sl sm) sh]
    ∧ (nonLin c ch v).chan =
        { ch with lps := fsub (fmul cTwo lp) ch.lps, lpy := lp, hps := fsub (fmul cTwo hp) ch.hps, hpy := hp })
  ∧ (∀ (c : Core) (ch : Channel) (vs : List Word),
    (nonLinAll c ch vs).out.length = vs.length
    ∧ (nonLinAll c ch vs).out = (shapePath c ch vs).out ∧ (nonLinAll c ch vs).chan = (shapePath c ch vs).chan
    ∧ (∀ v : Word, (nonLinAll c ch (v :: vs)).out = (nonLin c ch v).out ++ (nonLinAll c (nonLin c ch v).chan vs).out
        ∧ (nonLinAll c ch (v :: vs)).chan = (nonLinAll c (nonLin c ch v).chan vs).chan)
    ∧ (c.active.split = false → (nonLinAll c ch vs).chan = ch ∧ (nonLinAll c ch vs).out = vs.map (shape c.curve)))
  ∧ ∀ (cfg : Cfg) (corner wrate : Word),
      splitCoef cfg corner wrate = fadd (fmul cHalf (cfg.fTan (fmul cPi (fsub (fdiv corner wrate) cQuarter)))) cHalf

/-- 47 R250: over a run of frames the queue gives first what it held, then the dry samples in their order, each delayed by the
queue's length, and keeps the last of them; its length stays. -/
def Obligations.AlignDelays : Prop :=
  ∀ q ds : List Word,
    (alignRun q ds).1 = (q ++ ds).take ds.length ∧ (alignRun q ds).2 = (q ++ ds).drop ds.length
      ∧ (alignRun q ds).2.length = q.length

/-- 47 R251: `A_MIX` = 1.0 gives the wet sample for a finite dry one, `A_MIX` = 0.0 the dry sample for a finite wet one (equal as
numbers; the sign of a zero may differ). -/
def Obligations.MixEnds : Prop :=
  ∀ w dd : Word, isFinite w = true → isFinite dd = true →
    feq (mixWetDry cOne w dd) w = true ∧ feq (mixWetDry cZero w dd) dd = true

/-- 47 R253, R254: `Resize` gives exactly the new length: zeros at the tail, or the oldest dropped; no sample is duplicated, and
none is dropped beyond the difference. -/
def Obligations.ResizeKeepsSamples : Prop :=
  ∀ (q : List Word) (len : Nat),
    (resize q len).length = len
    ∧ (q.length ≤ len → resize q len = q ++ List.replicate (len - q.length) 0)
    ∧ (len ≤ q.length → ∃ old, q = old ++ resize q len ∧ old.length = q.length - len)

/-- 48 R261, R262: the new dB value is 20 times the logarithm of |x| or x², held at the floor, and the floor itself for ±0; the update
blends with the attack coefficient exactly where the new value exceeds the state, else with the release coefficient. -/
def Obligations.EnvelopeFloor : Prop :=
  ∀ (cfg : Cfg) (c : Core) (mode : EnvMode) (e x : Word),
    let v := if mode = .peak then fabs x else fmul x x
    let nd := fmul cTwenty (cfg.fLog10 v)
    (isNan (newDb cfg mode x) = false → fle cMinusHundred (newDb cfg mode x) = true)
    ∧ (feq x cZero = true → newDb cfg mode x = cMinusHundred)
    ∧ (feq v cZero = true → newDb cfg mode x = cMinusHundred)
    ∧ (feq v cZero = false → newDb cfg mode x = if flt nd cMinusHundred then cMinusHundred else nd)
    ∧ (flt e (newDb cfg c.active.envm x) = true →
        envUpdate cfg c e x
          = fadd (fmul c.aatt e) (fmul (fsub cOne c.aatt) (newDb cfg c.active.envm x)))
    ∧ (flt e (newDb cfg c.active.envm x) = false →
        envUpdate cfg c e x
          = fadd (fmul c.arel e) (fmul (fsub cOne c.arel) (newDb cfg c.active.envm x)))

/-- 10 R48: "Invariant: `ENV_FLOOR_DB` ≤ `ENV[ch][p]` whenever `NONFIN` = 0", as a FRAME keeps it from every state that meets every
other invariant, for every configuration with the constraints of 00 R6, 44 R207 and 49 R287. Expected to FAIL: 48 R262 keeps the new
state between the old one and the new dB value over the reals, but its roundings can carry it one place below the floor (log 31). -/
def Obligations.EnvelopeFloorKept : Prop :=
  ∀ (cfg : Cfg) (samples : List Word) (s : State), CfgLegal cfg → CfgNumerics cfg → s.core.InvFor cfg →
    s.core.EnvelopesAboveFloor → (frameWith cfg samples s).core.EnvelopesAboveFloor

/-- 48 R260, R265, 10 R49: the smoothing coefficients and the level by their formulas; and for transcendental functions with the
properties of 49 R287 (the reading of log 30), both coefficients lie in the closed interval from 0 to 1 for every legal rate and
decay time, and a level is never negative. -/
def Obligations.EnvelopeRanges : Prop :=
  (∀ (cfg : Cfg) (rate decay e : Word),
    envCoefs cfg rate decay =
        (cfg.fExp (fdiv cMinusOne (fmul rate (fmul cHundredth decay))), cfg.fExp (fdiv cMinusOne (fmul rate decay)))
    ∧ level cfg .peak e = cfg.fPow10 (fdiv e cTwenty) ∧ level cfg .rms e = fsqrt (cfg.fPow10 (fdiv e cTwenty)))
  ∧ ∀ cfg : Cfg, CfgNumerics cfg →
    (∀ rate decay : Word, isPositiveFinite rate = true → isPositiveFinite decay = true →
      fle cZero (envCoefs cfg rate decay).1 = true ∧ fle (envCoefs cfg rate decay).1 cOne = true
        ∧ fle cZero (envCoefs cfg rate decay).2 = true ∧ fle (envCoefs cfg rate decay).2 cOne = true)
    ∧ ∀ (mode : EnvMode) (e : Word), isFinite e = true → fle cZero (level cfg mode e) = true

/-! ### Numerics (49_numerics.md) and the sample port (30_encoding.md R84) -/

/-- 30 R84, 49 R289, R283: the binary64 port passes words as they are; the binary32 port widens bits 31:0 and ignores the rest, and
answers the narrowed output under 32 zero bits. Widening is exact: a finite binary32 keeps its value and sign, an infinity stays
that infinity, a NaN stays a NaN. Narrowing rounds once to nearest even, overflow to an infinity, keeps sign, infinities and NaNs,
and undoes widening for every binary32 that is no NaN. -/
def Obligations.SamplePort : Prop :=
  let nan32 := fun v : BitVec 32 => v.extractLsb' 23 8 = 0xFF ∧ v.extractLsb' 0 23 ≠ 0
  (∀ w : Word, sampleIn .b64 w = w ∧ sampleOut .b64 w = w)
  ∧ (∀ (hi lo : BitVec 32), sampleIn .b32 (hi ++ lo) = widen lo)
  ∧ (∀ y : Word, (sampleOut .b32 y).extractLsb' 0 32 = narrow y ∧ (sampleOut .b32 y).extractLsb' 32 32 = 0)
  ∧ (∀ v : BitVec 32,
      (v.extractLsb' 23 8 ≠ 0xFF →
        isFinite (widen v) = true ∧ wordVal (widen v) = wordVal32 v ∧ (widen v).msb = v.msb)
      ∧ (v.extractLsb' 23 8 = 0xFF → v.extractLsb' 0 23 = 0 → widen v = infWord v.msb)
      ∧ (nan32 v → isNan (widen v) = true)
      ∧ (¬nan32 v → narrow (widen v) = v))
  ∧ (∀ y : Word, isFinite y = true → RoundsTo32 (wordVal y) (narrow y) ∧ (narrow y).msb = y.msb)
  ∧ narrow (infWord false) = 0x7F800000 ∧ narrow (infWord true) = 0xFF800000
  ∧ ∀ y : Word, isNan y = true → nan32 (narrow y)

/-- 49 R285, whole: every comparison with a NaN is false, the two zeros are equal, comparisons of finite words are those of their
values, −∞ is below and +∞ above every finite word, each infinity is equal to itself and −∞ is below +∞; `|x|` clears the sign bit
and no other; `isFinite` is false for the infinities and every NaN. -/
def Obligations.ComparisonsFollowValues : Prop :=
  (∀ a b : Word, isNan a = true ∨ isNan b = true → flt a b = false ∧ fle a b = false ∧ feq a b = false)
  ∧ feq (zeroWord false) (zeroWord true) = true
  ∧ (∀ a b : Word, isFinite a = true → isFinite b = true →
      (flt a b = true ↔ wordVal a < wordVal b) ∧ (fle a b = true ↔ wordVal a ≤ wordVal b)
        ∧ (feq a b = true ↔ wordVal a = wordVal b))
  ∧ (∀ a : Word, isFinite a = true ∨ a = infWord false →
      flt (infWord true) a = true ∧ fle (infWord true) a = true ∧ feq (infWord true) a = false
        ∧ flt a (infWord true) = false ∧ fle a (infWord true) = false ∧ feq a (infWord true) = false)
  ∧ (∀ a : Word, isFinite a = true ∨ a = infWord true →
      flt a (infWord false) = true ∧ fle a (infWord false) = true ∧ feq a (infWord false) = false
        ∧ flt (infWord false) a = false ∧ fle (infWord false) a = false ∧ feq (infWord false) a = false)
  ∧ (∀ neg : Bool, flt (infWord neg) (infWord neg) = false ∧ fle (infWord neg) (infWord neg) = true
      ∧ feq (infWord neg) (infWord neg) = true)
  ∧ (∀ a : Word, (fabs a).getLsbD 63 = false ∧ ∀ j < 63, (fabs a).getLsbD j = a.getLsbD j)
  ∧ ∀ a : Word, isFinite a = false ↔ isNan a = true ∨ a = infWord false ∨ a = infWord true

/-- 49 R284, R283: the five basic operations are correctly rounded: the exact result of finite operands, rounded once to nearest,
ties to even, gradual underflow, overflow to an infinity. Signed zeros, infinities and NaNs follow IEEE 754: an exact zero sum is
+0.0 but for two negative zeros, the sign of a product or quotient is that of its operands together, a zero or an infinite result
too; ∞ − ∞, 0 × ∞, 0 / 0, ∞ / ∞, the root of a negative number and every operation on a NaN give a NaN. -/
def Obligations.BasicOperationsRoundOnce : Prop :=
  (∀ a b : Word, isFinite a = true → isFinite b = true →
    RoundsTo (wordVal a + wordVal b) (fadd a b) ∧ RoundsTo (wordVal a - wordVal b) (fsub a b)
      ∧ RoundsTo (wordVal a * wordVal b) (fmul a b) ∧ (fmul a b).msb = (a.msb ^^ b.msb)
      ∧ (wordVal b ≠ 0 → RoundsTo (wordVal a / wordVal b) (fdiv a b) ∧ (fdiv a b).msb = (a.msb ^^ b.msb))
      ∧ (0 ≤ wordVal a → RoundsTo (Real.sqrt (wordVal a)) (fsqrt a))
      ∧ (wordVal a + wordVal b = 0 → fadd a b = zeroWord (a.msb && b.msb))
      ∧ (wordVal a - wordVal b = 0 → fsub a b = zeroWord (a.msb && !b.msb))
      ∧ (wordVal b = 0 → wordVal a ≠ 0 → fdiv a b = infWord (a.msb ^^ b.msb))
      ∧ (wordVal b = 0 → wordVal a = 0 → isNan (fdiv a b) = true)
      ∧ (wordVal a = 0 → fsqrt a = a) ∧ (wordVal a < 0 → isNan (fsqrt a) = true))
  ∧ (∀ (a : Word) (neg : Bool), isFinite a = true →
      fadd (infWord neg) a = infWord neg ∧ fadd a (infWord neg) = infWord neg
      ∧ fsub (infWord neg) a = infWord neg ∧ fsub a (infWord neg) = infWord (!neg)
      ∧ (wordVal a ≠ 0 → fmul (infWord neg) a = infWord (neg ^^ a.msb) ∧ fmul a (infWord neg) = infWord (neg ^^ a.msb))
      ∧ (wordVal a = 0 → isNan (fmul (infWord neg) a) = true ∧ isNan (fmul a (infWord neg)) = true)
      ∧ fdiv (infWord neg) a = infWord (neg ^^ a.msb) ∧ fdiv a (infWord neg) = zeroWord (neg ^^ a.msb))
  ∧ (∀ n m : Bool,
      fadd (infWord n) (infWord n) = infWord n ∧ isNan (fadd (infWord n) (infWord (!n))) = true
      ∧ fsub (infWord n) (infWord (!n)) = infWord n ∧ isNan (fsub (infWord n) (infWord n)) = true
      ∧ fmul (infWord n) (infWord m) = infWord (n ^^ m) ∧ isNan (fdiv (infWord n) (infWord m)) = true
      ∧ fsqrt (infWord false) = infWord false ∧ isNan (fsqrt (infWord true)) = true)
  ∧ (∀ a b : Word, isNan a = true ∨ isNan b = true →
      isNan (fadd a b) = true ∧ isNan (fsub a b) = true ∧ isNan (fmul a b) = true ∧ isNan (fdiv a b) = true)
  ∧ ∀ a : Word, isNan a = true → isNan (fsqrt a) = true

end Slice0Statements
end

