-- ==== Sys2Proof/Laws/State.lean ====
section
/-! SUPPORT. What each named update of the state does to each field: one lemma per field, true by `rfl`. -/

namespace Sys2Proof.Machine

open Sys2Proof.Config (Cfg)


/-! ### Updates of the state -/

@[simp] theorem setCore_core (s : State) (c : Core) :
    (s.setCore c).core = c := rfl
@[simp] theorem setCore_port (s : State) (c : Core) :
    (s.setCore c).port = s.port := rfl
@[simp] theorem setCore_freeCount (s : State) (c : Core) :
    (s.setCore c).freeCount = s.freeCount := rfl
@[simp] theorem respond_core (s : State) (code : RespCode) (rs : List Word) :
    (s.respond code rs).core = s.core := rfl
@[simp] theorem respond_freeCount (s : State) (code : RespCode) (rs : List Word) :
    (s.respond code rs).freeCount = s.freeCount := rfl
@[simp] theorem respond_moves (s : State) (code : RespCode) (rs : List Word) :
    (s.respond code rs).port.moves = s.port.moves := rfl
@[simp] theorem respond_operands (s : State) (code : RespCode) (rs : List Word) :
    (s.respond code rs).port.operands = s.port.operands := rfl
@[simp] theorem respond_responses (s : State) (code : RespCode) (rs : List Word) :
    (s.respond code rs).port.responses = s.port.responses ++ [⟨code, rs⟩] := rfl
@[simp] theorem respond_observed (s : State) (code : RespCode) (rs : List Word) :
    (s.respond code rs).port.observed = s.port.observed := rfl
@[simp] theorem finish_core (s : State) (c : Core) (rs : List Word) :
    (s.finish c rs).core = c := rfl
@[simp] theorem finish_freeCount (s : State) (c : Core) (rs : List Word) :
    (s.finish c rs).freeCount = s.freeCount := rfl
@[simp] theorem finish_moves (s : State) (c : Core) (rs : List Word) :
    (s.finish c rs).port.moves = s.port.moves := rfl
@[simp] theorem finish_operands (s : State) (c : Core) (rs : List Word) :
    (s.finish c rs).port.operands = s.port.operands := rfl
@[simp] theorem finish_responses (s : State) (c : Core) (rs : List Word) :
    (s.finish c rs).port.responses = s.port.responses ++ [⟨.ok, rs⟩] := rfl
@[simp] theorem finish_observed (s : State) (c : Core) (rs : List Word) :
    (s.finish c rs).port.observed = s.port.observed := rfl
@[simp] theorem refuse_life (s : State) (code : RespCode) :
    (s.refuse code).core.life = s.core.life := rfl
@[simp] theorem refuse_blkcnt (s : State) (code : RespCode) :
    (s.refuse code).core.blkcnt = s.core.blkcnt := rfl
@[simp] theorem refuse_latchg (s : State) (code : RespCode) :
    (s.refuse code).core.latchg = s.core.latchg := rfl
@[simp] theorem refuse_xloW (s : State) (code : RespCode) :
    (s.refuse code).core.xloW = s.core.xloW := rfl
@[simp] theorem refuse_xhiW (s : State) (code : RespCode) :
    (s.refuse code).core.xhiW = s.core.xhiW := rfl
@[simp] theorem refuse_decayW (s : State) (code : RespCode) :
    (s.refuse code).core.decayW = s.core.decayW := rfl
@[simp] theorem refuse_nonfin (s : State) (code : RespCode) :
    (s.refuse code).core.nonfin = s.core.nonfin := rfl
@[simp] theorem refuse_rsfault (s : State) (code : RespCode) :
    (s.refuse code).core.rsfault = s.core.rsfault := rfl
@[simp] theorem refuse_proto (s : State) (code : RespCode) :
    (s.refuse code).core.proto = (s.core.proto || code.setsProto) := rfl
@[simp] theorem refuse_lat (s : State) (code : RespCode) :
    (s.refuse code).core.lat = s.core.lat := rfl
@[simp] theorem refuse_rate (s : State) (code : RespCode) :
    (s.refuse code).core.rate = s.core.rate := rfl
@[simp] theorem refuse_nch (s : State) (code : RespCode) :
    (s.refuse code).core.nch = s.core.nch := rfl
@[simp] theorem refuse_fmt (s : State) (code : RespCode) :
    (s.refuse code).core.fmt = s.core.fmt := rfl
@[simp] theorem refuse_wrate (s : State) (code : RespCode) :
    (s.refuse code).core.wrate = s.core.wrate := rfl
@[simp] theorem refuse_mseq (s : State) (code : RespCode) :
    (s.refuse code).core.mseq = s.core.mseq := rfl
@[simp] theorem refuse_pending (s : State) (code : RespCode) :
    (s.refuse code).core.pending = s.core.pending := rfl
@[simp] theorem refuse_active (s : State) (code : RespCode) :
    (s.refuse code).core.active = s.core.active := rfl
@[simp] theorem refuse_curve (s : State) (code : RespCode) :
    (s.refuse code).core.curve = s.core.curve := rfl
@[simp] theorem refuse_descUp (s : State) (code : RespCode) :
    (s.refuse code).core.descUp = s.core.descUp := rfl
@[simp] theorem refuse_descDn (s : State) (code : RespCode) :
    (s.refuse code).core.descDn = s.core.descDn := rfl
@[simp] theorem refuse_coefUp (s : State) (code : RespCode) :
    (s.refuse code).core.coefUp = s.core.coefUp := rfl
@[simp] theorem refuse_coefDn (s : State) (code : RespCode) :
    (s.refuse code).core.coefDn = s.core.coefDn := rfl
@[simp] theorem refuse_cl (s : State) (code : RespCode) :
    (s.refuse code).core.cl = s.core.cl := rfl
@[simp] theorem refuse_ch (s : State) (code : RespCode) :
    (s.refuse code).core.ch = s.core.ch := rfl
@[simp] theorem refuse_g (s : State) (code : RespCode) :
    (s.refuse code).core.g = s.core.g := rfl
@[simp] theorem refuse_gr (s : State) (code : RespCode) :
    (s.refuse code).core.gr = s.core.gr := rfl
@[simp] theorem refuse_aatt (s : State) (code : RespCode) :
    (s.refuse code).core.aatt = s.core.aatt := rfl
@[simp] theorem refuse_arel (s : State) (code : RespCode) :
    (s.refuse code).core.arel = s.core.arel := rfl
@[simp] theorem refuse_chan0 (s : State) (code : RespCode) :
    (s.refuse code).core.chan0 = s.core.chan0 := rfl
@[simp] theorem refuse_chan1 (s : State) (code : RespCode) :
    (s.refuse code).core.chan1 = s.core.chan1 := rfl
@[simp] theorem refuse_meter (s : State) (code : RespCode) :
    (s.refuse code).core.meter = s.core.meter := rfl
@[simp] theorem refuse_freeCount (s : State) (code : RespCode) :
    (s.refuse code).freeCount = s.freeCount := rfl
@[simp] theorem refuse_moves (s : State) (code : RespCode) :
    (s.refuse code).port.moves = s.port.moves := rfl
@[simp] theorem refuse_operands (s : State) (code : RespCode) :
    (s.refuse code).port.operands = s.port.operands := rfl
@[simp] theorem refuse_responses (s : State) (code : RespCode) :
    (s.refuse code).port.responses = s.port.responses ++ [⟨code, []⟩] := rfl
@[simp] theorem refuse_observed (s : State) (code : RespCode) :
    (s.refuse code).port.observed = s.port.observed := rfl
@[simp] theorem popCommand_core (s : State) (n : Nat) :
    (s.popCommand n).core = s.core := rfl
@[simp] theorem popCommand_freeCount (s : State) (n : Nat) :
    (s.popCommand n).freeCount = s.freeCount := rfl
@[simp] theorem popCommand_moves (s : State) (n : Nat) :
    (s.popCommand n).port.moves = s.port.moves.tail := rfl
@[simp] theorem popCommand_operands (s : State) (n : Nat) :
    (s.popCommand n).port.operands = s.port.operands.drop n := rfl
@[simp] theorem popCommand_responses (s : State) (n : Nat) :
    (s.popCommand n).port.responses = s.port.responses := rfl
@[simp] theorem popCommand_observed (s : State) (n : Nat) :
    (s.popCommand n).port.observed = s.port.observed := rfl
@[simp] theorem popMove_core (s : State) :
    s.popMove.core = s.core := rfl
@[simp] theorem popMove_freeCount (s : State) :
    s.popMove.freeCount = s.freeCount := rfl
@[simp] theorem popMove_moves (s : State) :
    s.popMove.port.moves = s.port.moves.tail := rfl
@[simp] theorem popMove_operands (s : State) :
    s.popMove.port.operands = s.port.operands := rfl
@[simp] theorem popMove_responses (s : State) :
    s.popMove.port.responses = s.port.responses := rfl
@[simp] theorem popMove_observed (s : State) :
    s.popMove.port.observed = s.port.observed := rfl
@[simp] theorem readMeter_core (s : State) :
    s.readMeter.core = s.core := rfl
@[simp] theorem readMeter_freeCount (s : State) :
    s.readMeter.freeCount = s.freeCount := rfl
@[simp] theorem readMeter_moves (s : State) :
    s.readMeter.port.moves = s.port.moves := rfl
@[simp] theorem readMeter_operands (s : State) :
    s.readMeter.port.operands = s.port.operands := rfl
@[simp] theorem readMeter_responses (s : State) :
    s.readMeter.port.responses = s.port.responses := rfl
@[simp] theorem readMeter_observed (s : State) :
    s.readMeter.port.observed = s.port.observed ++ [s.core.meter] := rfl
@[simp] theorem placeCommand_core (s : State) (cw : CmdWord) (opds : List Word) :
    (s.placeCommand cw opds).core = s.core := rfl
@[simp] theorem placeCommand_freeCount (s : State) (cw : CmdWord) (opds : List Word) :
    (s.placeCommand cw opds).freeCount = s.freeCount := rfl
@[simp] theorem placeCommand_moves (s : State) (cw : CmdWord) (opds : List Word) :
    (s.placeCommand cw opds).port.moves = .command cw :: s.port.moves := rfl
@[simp] theorem placeCommand_operands (s : State) (cw : CmdWord) (opds : List Word) :
    (s.placeCommand cw opds).port.operands = opds ++ s.port.operands := rfl
@[simp] theorem placeCommand_responses (s : State) (cw : CmdWord) (opds : List Word) :
    (s.placeCommand cw opds).port.responses = s.port.responses := rfl
@[simp] theorem placeCommand_observed (s : State) (cw : CmdWord) (opds : List Word) :
    (s.placeCommand cw opds).port.observed = s.port.observed := rfl

/-! ### Updates of the parameter registers -/

@[simp] theorem commitBlock_ig (a p : Params) :
    (commitBlock a p).ig = p.ig := rfl
@[simp] theorem commitBlock_og (a p : Params) :
    (commitBlock a p).og = p.og := rfl
@[simp] theorem commitBlock_mix (a p : Params) :
    (commitBlock a p).mix = p.mix := rfl
@[simp] theorem commitBlock_curve (a p : Params) :
    (commitBlock a p).curve = p.curve := rfl
@[simp] theorem commitBlock_clip (a p : Params) :
    (commitBlock a p).clip = p.clip := rfl
@[simp] theorem commitBlock_split (a p : Params) :
    (commitBlock a p).split = p.split := rfl
@[simp] theorem commitBlock_os (a p : Params) :
    (commitBlock a p).os = a.os := rfl
@[simp] theorem commitBlock_phase (a p : Params) :
    (commitBlock a p).phase = a.phase := rfl
@[simp] theorem commitBlock_xlo (a p : Params) :
    (commitBlock a p).xlo = a.xlo := rfl
@[simp] theorem commitBlock_xhi (a p : Params) :
    (commitBlock a p).xhi = a.xhi := rfl
@[simp] theorem commitBlock_envm (a p : Params) :
    (commitBlock a p).envm = a.envm := rfl
@[simp] theorem commitBlock_decay (a p : Params) :
    (commitBlock a p).decay = a.decay := rfl
@[simp] theorem commitPrepare_ig (a p : Params) :
    (commitPrepare a p).ig = a.ig := rfl
@[simp] theorem commitPrepare_og (a p : Params) :
    (commitPrepare a p).og = a.og := rfl
@[simp] theorem commitPrepare_mix (a p : Params) :
    (commitPrepare a p).mix = a.mix := rfl
@[simp] theorem commitPrepare_curve (a p : Params) :
    (commitPrepare a p).curve = a.curve := rfl
@[simp] theorem commitPrepare_clip (a p : Params) :
    (commitPrepare a p).clip = a.clip := rfl
@[simp] theorem commitPrepare_split (a p : Params) :
    (commitPrepare a p).split = a.split := rfl
@[simp] theorem commitPrepare_os (a p : Params) :
    (commitPrepare a p).os = p.os := rfl
@[simp] theorem commitPrepare_phase (a p : Params) :
    (commitPrepare a p).phase = p.phase := rfl
@[simp] theorem commitPrepare_xlo (a p : Params) :
    (commitPrepare a p).xlo = p.xlo := rfl
@[simp] theorem commitPrepare_xhi (a p : Params) :
    (commitPrepare a p).xhi = p.xhi := rfl
@[simp] theorem commitPrepare_envm (a p : Params) :
    (commitPrepare a p).envm = p.envm := rfl
@[simp] theorem commitPrepare_decay (a p : Params) :
    (commitPrepare a p).decay = p.decay := rfl

/-! ### Updates of the core -/

@[simp] theorem beginBlock_life (c : Core) :
    (beginBlock c).life = .inblock := rfl
@[simp] theorem beginBlock_blkcnt (c : Core) :
    (beginBlock c).blkcnt = 0 := rfl
@[simp] theorem beginBlock_latchg (c : Core) :
    (beginBlock c).latchg = (c.latchg || c.modeDiffers) := rfl
@[simp] theorem beginBlock_xloW (c : Core) :
    (beginBlock c).xloW = c.xloW := rfl
@[simp] theorem beginBlock_xhiW (c : Core) :
    (beginBlock c).xhiW = c.xhiW := rfl
@[simp] theorem beginBlock_decayW (c : Core) :
    (beginBlock c).decayW = c.decayW := rfl
@[simp] theorem beginBlock_nonfin (c : Core) :
    (beginBlock c).nonfin = c.nonfin := rfl
@[simp] theorem beginBlock_rsfault (c : Core) :
    (beginBlock c).rsfault = c.rsfault := rfl
@[simp] theorem beginBlock_proto (c : Core) :
    (beginBlock c).proto = c.proto := rfl
@[simp] theorem beginBlock_lat (c : Core) :
    (beginBlock c).lat = c.lat := rfl
@[simp] theorem beginBlock_rate (c : Core) :
    (beginBlock c).rate = c.rate := rfl
@[simp] theorem beginBlock_nch (c : Core) :
    (beginBlock c).nch = c.nch := rfl
@[simp] theorem beginBlock_fmt (c : Core) :
    (beginBlock c).fmt = c.fmt := rfl
@[simp] theorem beginBlock_wrate (c : Core) :
    (beginBlock c).wrate = c.wrate := rfl
@[simp] theorem beginBlock_mseq (c : Core) :
    (beginBlock c).mseq = c.mseq := rfl
@[simp] theorem beginBlock_pending (c : Core) :
    (beginBlock c).pending = c.pending := rfl
@[simp] theorem beginBlock_active (c : Core) :
    (beginBlock c).active = commitBlock c.active c.pending := rfl
@[simp] theorem beginBlock_curve (c : Core) :
    (beginBlock c).curve = curveCoefs c.pending.curve := rfl
@[simp] theorem beginBlock_descUp (c : Core) :
    (beginBlock c).descUp = c.descUp := rfl
@[simp] theorem beginBlock_descDn (c : Core) :
    (beginBlock c).descDn = c.descDn := rfl
@[simp] theorem beginBlock_coefUp (c : Core) :
    (beginBlock c).coefUp = c.coefUp := rfl
@[simp] theorem beginBlock_coefDn (c : Core) :
    (beginBlock c).coefDn = c.coefDn := rfl
@[simp] theorem beginBlock_cl (c : Core) :
    (beginBlock c).cl = c.cl := rfl
@[simp] theorem beginBlock_ch (c : Core) :
    (beginBlock c).ch = c.ch := rfl
@[simp] theorem beginBlock_g (c : Core) :
    (beginBlock c).g = c.g := rfl
@[simp] theorem beginBlock_gr (c : Core) :
    (beginBlock c).gr = c.gr := rfl
@[simp] theorem beginBlock_aatt (c : Core) :
    (beginBlock c).aatt = c.aatt := rfl
@[simp] theorem beginBlock_arel (c : Core) :
    (beginBlock c).arel = c.arel := rfl
@[simp] theorem beginBlock_chan0 (c : Core) :
    (beginBlock c).chan0 = c.chan0 := rfl
@[simp] theorem beginBlock_chan1 (c : Core) :
    (beginBlock c).chan1 = c.chan1 := rfl
@[simp] theorem beginBlock_meter (c : Core) :
    (beginBlock c).meter = c.meter := rfl
@[simp] theorem endBlock_life (cfg : Cfg) (c : Core) (n : Nat) :
    (endBlock cfg c n).life = .active := rfl
@[simp] theorem endBlock_blkcnt (cfg : Cfg) (c : Core) (n : Nat) :
    (endBlock cfg c n).blkcnt = c.blkcnt := rfl
@[simp] theorem endBlock_latchg (cfg : Cfg) (c : Core) (n : Nat) :
    (endBlock cfg c n).latchg = c.latchg := rfl
@[simp] theorem endBlock_xloW (cfg : Cfg) (c : Core) (n : Nat) :
    (endBlock cfg c n).xloW = c.xloW := rfl
@[simp] theorem endBlock_xhiW (cfg : Cfg) (c : Core) (n : Nat) :
    (endBlock cfg c n).xhiW = c.xhiW := rfl
@[simp] theorem endBlock_decayW (cfg : Cfg) (c : Core) (n : Nat) :
    (endBlock cfg c n).decayW = c.decayW := rfl
@[simp] theorem endBlock_nonfin (cfg : Cfg) (c : Core) (n : Nat) :
    (endBlock cfg c n).nonfin = c.nonfin := rfl
@[simp] theorem endBlock_rsfault (cfg : Cfg) (c : Core) (n : Nat) :
    (endBlock cfg c n).rsfault = c.rsfault := rfl
@[simp] theorem endBlock_proto (cfg : Cfg) (c : Core) (n : Nat) :
    (endBlock cfg c n).proto = c.proto := rfl
@[simp] theorem endBlock_lat (cfg : Cfg) (c : Core) (n : Nat) :
    (endBlock cfg c n).lat = c.lat := rfl
@[simp] theorem endBlock_rate (cfg : Cfg) (c : Core) (n : Nat) :
    (endBlock cfg c n).rate = c.rate := rfl
@[simp] theorem endBlock_nch (cfg : Cfg) (c : Core) (n : Nat) :
    (endBlock cfg c n).nch = c.nch := rfl
@[simp] theorem endBlock_fmt (cfg : Cfg) (c : Core) (n : Nat) :
    (endBlock cfg c n).fmt = c.fmt := rfl
@[simp] theorem endBlock_wrate (cfg : Cfg) (c : Core) (n : Nat) :
    (endBlock cfg c n).wrate = c.wrate := rfl
@[simp] theorem endBlock_mseq (cfg : Cfg) (c : Core) (n : Nat) :
    (endBlock cfg c n).mseq = c.mseq + 1 := rfl
@[simp] theorem endBlock_pending (cfg : Cfg) (c : Core) (n : Nat) :
    (endBlock cfg c n).pending = c.pending := rfl
@[simp] theorem endBlock_active (cfg : Cfg) (c : Core) (n : Nat) :
    (endBlock cfg c n).active = c.active := rfl
@[simp] theorem endBlock_curve (cfg : Cfg) (c : Core) (n : Nat) :
    (endBlock cfg c n).curve = c.curve := rfl
@[simp] theorem endBlock_descUp (cfg : Cfg) (c : Core) (n : Nat) :
    (endBlock cfg c n).descUp = c.descUp := rfl
@[simp] theorem endBlock_descDn (cfg : Cfg) (c : Core) (n : Nat) :
    (endBlock cfg c n).descDn = c.descDn := rfl
@[simp] theorem endBlock_coefUp (cfg : Cfg) (c : Core) (n : Nat) :
    (endBlock cfg c n).coefUp = c.coefUp := rfl
@[simp] theorem endBlock_coefDn (cfg : Cfg) (c : Core) (n : Nat) :
    (endBlock cfg c n).coefDn = c.coefDn := rfl
@[simp] theorem endBlock_cl (cfg : Cfg) (c : Core) (n : Nat) :
    (endBlock cfg c n).cl = c.cl := rfl
@[simp] theorem endBlock_ch (cfg : Cfg) (c : Core) (n : Nat) :
    (endBlock cfg c n).ch = c.ch := rfl
@[simp] theorem endBlock_g (cfg : Cfg) (c : Core) (n : Nat) :
    (endBlock cfg c n).g = c.g := rfl
@[simp] theorem endBlock_gr (cfg : Cfg) (c : Core) (n : Nat) :
    (endBlock cfg c n).gr = c.gr := rfl
@[simp] theorem endBlock_aatt (cfg : Cfg) (c : Core) (n : Nat) :
    (endBlock cfg c n).aatt = c.aatt := rfl
@[simp] theorem endBlock_arel (cfg : Cfg) (c : Core) (n : Nat) :
    (endBlock cfg c n).arel = c.arel := rfl
@[simp] theorem endBlock_chan0 (cfg : Cfg) (c : Core) (n : Nat) :
    (endBlock cfg c n).chan0 = c.chan0 := rfl
@[simp] theorem endBlock_chan1 (cfg : Cfg) (c : Core) (n : Nat) :
    (endBlock cfg c n).chan1 = c.chan1 := rfl
@[simp] theorem endBlock_meter (cfg : Cfg) (c : Core) (n : Nat) :
    (endBlock cfg c n).meter = meterRecord cfg c n := rfl
@[simp] theorem restart_life (cfg : Cfg) (c : Core) (l : Life) :
    (restart cfg c l).life = l := rfl
@[simp] theorem restart_blkcnt (cfg : Cfg) (c : Core) (l : Life) :
    (restart cfg c l).blkcnt = c.blkcnt := rfl
@[simp] theorem restart_latchg (cfg : Cfg) (c : Core) (l : Life) :
    (restart cfg c l).latchg = c.latchg := rfl
@[simp] theorem restart_xloW (cfg : Cfg) (c : Core) (l : Life) :
    (restart cfg c l).xloW = c.xloW := rfl
@[simp] theorem restart_xhiW (cfg : Cfg) (c : Core) (l : Life) :
    (restart cfg c l).xhiW = c.xhiW := rfl
@[simp] theorem restart_decayW (cfg : Cfg) (c : Core) (l : Life) :
    (restart cfg c l).decayW = c.decayW := rfl
@[simp] theorem restart_nonfin (cfg : Cfg) (c : Core) (l : Life) :
    (restart cfg c l).nonfin = c.nonfin := rfl
@[simp] theorem restart_rsfault (cfg : Cfg) (c : Core) (l : Life) :
    (restart cfg c l).rsfault = c.rsfault := rfl
@[simp] theorem restart_proto (cfg : Cfg) (c : Core) (l : Life) :
    (restart cfg c l).proto = c.proto := rfl
@[simp] theorem restart_lat (cfg : Cfg) (c : Core) (l : Life) :
    (restart cfg c l).lat = c.lat := rfl
@[simp] theorem restart_rate (cfg : Cfg) (c : Core) (l : Life) :
    (restart cfg c l).rate = c.rate := rfl
@[simp] theorem restart_nch (cfg : Cfg) (c : Core) (l : Life) :
    (restart cfg c l).nch = c.nch := rfl
@[simp] theorem restart_fmt (cfg : Cfg) (c : Core) (l : Life) :
    (restart cfg c l).fmt = c.fmt := rfl
@[simp] theorem restart_wrate (cfg : Cfg) (c : Core) (l : Life) :
    (restart cfg c l).wrate = c.wrate := rfl
@[simp] theorem restart_mseq (cfg : Cfg) (c : Core) (l : Life) :
    (restart cfg c l).mseq = c.mseq := rfl
@[simp] theorem restart_pending (cfg : Cfg) (c : Core) (l : Life) :
    (restart cfg c l).pending = c.pending := rfl
@[simp] theorem restart_active (cfg : Cfg) (c : Core) (l : Life) :
    (restart cfg c l).active = c.active := rfl
@[simp] theorem restart_curve (cfg : Cfg) (c : Core) (l : Life) :
    (restart cfg c l).curve = c.curve := rfl
@[simp] theorem restart_descUp (cfg : Cfg) (c : Core) (l : Life) :
    (restart cfg c l).descUp = c.descUp := rfl
@[simp] theorem restart_descDn (cfg : Cfg) (c : Core) (l : Life) :
    (restart cfg c l).descDn = c.descDn := rfl
@[simp] theorem restart_coefUp (cfg : Cfg) (c : Core) (l : Life) :
    (restart cfg c l).coefUp = c.coefUp := rfl
@[simp] theorem restart_coefDn (cfg : Cfg) (c : Core) (l : Life) :
    (restart cfg c l).coefDn = c.coefDn := rfl
@[simp] theorem restart_cl (cfg : Cfg) (c : Core) (l : Life) :
    (restart cfg c l).cl = c.cl := rfl
@[simp] theorem restart_ch (cfg : Cfg) (c : Core) (l : Life) :
    (restart cfg c l).ch = c.ch := rfl
@[simp] theorem restart_g (cfg : Cfg) (c : Core) (l : Life) :
    (restart cfg c l).g = c.g := rfl
@[simp] theorem restart_gr (cfg : Cfg) (c : Core) (l : Life) :
    (restart cfg c l).gr = c.gr := rfl
@[simp] theorem restart_aatt (cfg : Cfg) (c : Core) (l : Life) :
    (restart cfg c l).aatt = c.aatt := rfl
@[simp] theorem restart_arel (cfg : Cfg) (c : Core) (l : Life) :
    (restart cfg c l).arel = c.arel := rfl
@[simp] theorem restart_chan0 (cfg : Cfg) (c : Core) (l : Life) :
    (restart cfg c l).chan0 = restartChannel cfg c c.chan0 := rfl
@[simp] theorem restart_chan1 (cfg : Cfg) (c : Core) (l : Life) :
    (restart cfg c l).chan1 = restartChannel cfg c c.chan1 := rfl
@[simp] theorem restart_meter (cfg : Cfg) (c : Core) (l : Life) :
    (restart cfg c l).meter = c.meter := rfl
@[simp] theorem frameCore_life (c : Core) (r : ChannelResult × ChannelResult) :
    (frameCore c r).life = c.life := rfl
@[simp] theorem frameCore_blkcnt (c : Core) (r : ChannelResult × ChannelResult) :
    (frameCore c r).blkcnt = satIncr c.blkcnt := rfl
@[simp] theorem frameCore_latchg (c : Core) (r : ChannelResult × ChannelResult) :
    (frameCore c r).latchg = c.latchg := rfl
@[simp] theorem frameCore_xloW (c : Core) (r : ChannelResult × ChannelResult) :
    (frameCore c r).xloW = c.xloW := rfl
@[simp] theorem frameCore_xhiW (c : Core) (r : ChannelResult × ChannelResult) :
    (frameCore c r).xhiW = c.xhiW := rfl
@[simp] theorem frameCore_decayW (c : Core) (r : ChannelResult × ChannelResult) :
    (frameCore c r).decayW = c.decayW := rfl
@[simp] theorem frameCore_nonfin (c : Core) (r : ChannelResult × ChannelResult) :
    (frameCore c r).nonfin = (c.nonfin || r.1.nonFinite || r.2.nonFinite) := rfl
@[simp] theorem frameCore_rsfault (c : Core) (r : ChannelResult × ChannelResult) :
    (frameCore c r).rsfault = (c.rsfault || r.1.rsFault || r.2.rsFault) := rfl
@[simp] theorem frameCore_proto (c : Core) (r : ChannelResult × ChannelResult) :
    (frameCore c r).proto = c.proto := rfl
@[simp] theorem frameCore_lat (c : Core) (r : ChannelResult × ChannelResult) :
    (frameCore c r).lat = c.lat := rfl
@[simp] theorem frameCore_rate (c : Core) (r : ChannelResult × ChannelResult) :
    (frameCore c r).rate = c.rate := rfl
@[simp] theorem frameCore_nch (c : Core) (r : ChannelResult × ChannelResult) :
    (frameCore c r).nch = c.nch := rfl
@[simp] theorem frameCore_fmt (c : Core) (r : ChannelResult × ChannelResult) :
    (frameCore c r).fmt = c.fmt := rfl
@[simp] theorem frameCore_wrate (c : Core) (r : ChannelResult × ChannelResult) :
    (frameCore c r).wrate = c.wrate := rfl
@[simp] theorem frameCore_mseq (c : Core) (r : ChannelResult × ChannelResult) :
    (frameCore c r).mseq = c.mseq := rfl
@[simp] theorem frameCore_pending (c : Core) (r : ChannelResult × ChannelResult) :
    (frameCore c r).pending = c.pending := rfl
@[simp] theorem frameCore_active (c : Core) (r : ChannelResult × ChannelResult) :
    (frameCore c r).active = c.active := rfl
@[simp] theorem frameCore_curve (c : Core) (r : ChannelResult × ChannelResult) :
    (frameCore c r).curve = c.curve := rfl
@[simp] theorem frameCore_descUp (c : Core) (r : ChannelResult × ChannelResult) :
    (frameCore c r).descUp = c.descUp := rfl
@[simp] theorem frameCore_descDn (c : Core) (r : ChannelResult × ChannelResult) :
    (frameCore c r).descDn = c.descDn := rfl
@[simp] theorem frameCore_coefUp (c : Core) (r : ChannelResult × ChannelResult) :
    (frameCore c r).coefUp = c.coefUp := rfl
@[simp] theorem frameCore_coefDn (c : Core) (r : ChannelResult × ChannelResult) :
    (frameCore c r).coefDn = c.coefDn := rfl
@[simp] theorem frameCore_cl (c : Core) (r : ChannelResult × ChannelResult) :
    (frameCore c r).cl = c.cl := rfl
@[simp] theorem frameCore_ch (c : Core) (r : ChannelResult × ChannelResult) :
    (frameCore c r).ch = c.ch := rfl
@[simp] theorem frameCore_g (c : Core) (r : ChannelResult × ChannelResult) :
    (frameCore c r).g = c.g := rfl
@[simp] theorem frameCore_gr (c : Core) (r : ChannelResult × ChannelResult) :
    (frameCore c r).gr = c.gr := rfl
@[simp] theorem frameCore_aatt (c : Core) (r : ChannelResult × ChannelResult) :
    (frameCore c r).aatt = c.aatt := rfl
@[simp] theorem frameCore_arel (c : Core) (r : ChannelResult × ChannelResult) :
    (frameCore c r).arel = c.arel := rfl
@[simp] theorem frameCore_chan0 (c : Core) (r : ChannelResult × ChannelResult) :
    (frameCore c r).chan0 = r.1.chan := rfl
@[simp] theorem frameCore_chan1 (c : Core) (r : ChannelResult × ChannelResult) :
    (frameCore c r).chan1 = r.2.chan := rfl
@[simp] theorem frameCore_meter (c : Core) (r : ChannelResult × ChannelResult) :
    (frameCore c r).meter = c.meter := rfl
@[simp] theorem prepareCommit_life (cfg : Cfg) (c : Core) (chs : Channels) (sf : SampleFormat) (rate : Word) (p : Plan) :
    (prepareCommit cfg c chs sf rate p).life = .ready := rfl
@[simp] theorem prepareCommit_blkcnt (cfg : Cfg) (c : Core) (chs : Channels) (sf : SampleFormat) (rate : Word) (p : Plan) :
    (prepareCommit cfg c chs sf rate p).blkcnt = c.blkcnt := rfl
@[simp] theorem prepareCommit_latchg (cfg : Cfg) (c : Core) (chs : Channels) (sf : SampleFormat) (rate : Word) (p : Plan) :
    (prepareCommit cfg c chs sf rate p).latchg = false := rfl
@[simp] theorem prepareCommit_xloW (cfg : Cfg) (c : Core) (chs : Channels) (sf : SampleFormat) (rate : Word) (p : Plan) :
    (prepareCommit cfg c chs sf rate p).xloW = c.xloW := rfl
@[simp] theorem prepareCommit_xhiW (cfg : Cfg) (c : Core) (chs : Channels) (sf : SampleFormat) (rate : Word) (p : Plan) :
    (prepareCommit cfg c chs sf rate p).xhiW = c.xhiW := rfl
@[simp] theorem prepareCommit_decayW (cfg : Cfg) (c : Core) (chs : Channels) (sf : SampleFormat) (rate : Word) (p : Plan) :
    (prepareCommit cfg c chs sf rate p).decayW = c.decayW := rfl
@[simp] theorem prepareCommit_nonfin (cfg : Cfg) (c : Core) (chs : Channels) (sf : SampleFormat) (rate : Word) (p : Plan) :
    (prepareCommit cfg c chs sf rate p).nonfin = c.nonfin := rfl
@[simp] theorem prepareCommit_rsfault (cfg : Cfg) (c : Core) (chs : Channels) (sf : SampleFormat) (rate : Word) (p : Plan) :
    (prepareCommit cfg c chs sf rate p).rsfault = c.rsfault := rfl
@[simp] theorem prepareCommit_proto (cfg : Cfg) (c : Core) (chs : Channels) (sf : SampleFormat) (rate : Word) (p : Plan) :
    (prepareCommit cfg c chs sf rate p).proto = c.proto := rfl
@[simp] theorem prepareCommit_lat (cfg : Cfg) (c : Core) (chs : Channels) (sf : SampleFormat) (rate : Word) (p : Plan) :
    (prepareCommit cfg c chs sf rate p).lat = p.lat := rfl
@[simp] theorem prepareCommit_rate (cfg : Cfg) (c : Core) (chs : Channels) (sf : SampleFormat) (rate : Word) (p : Plan) :
    (prepareCommit cfg c chs sf rate p).rate = rate := rfl
@[simp] theorem prepareCommit_nch (cfg : Cfg) (c : Core) (chs : Channels) (sf : SampleFormat) (rate : Word) (p : Plan) :
    (prepareCommit cfg c chs sf rate p).nch = chs := rfl
@[simp] theorem prepareCommit_fmt (cfg : Cfg) (c : Core) (chs : Channels) (sf : SampleFormat) (rate : Word) (p : Plan) :
    (prepareCommit cfg c chs sf rate p).fmt = sf := rfl
@[simp] theorem prepareCommit_wrate (cfg : Cfg) (c : Core) (chs : Channels) (sf : SampleFormat) (rate : Word) (p : Plan) :
    (prepareCommit cfg c chs sf rate p).wrate = fmul (ofNat64 (factor c.pending.os)) rate := rfl
@[simp] theorem prepareCommit_mseq (cfg : Cfg) (c : Core) (chs : Channels) (sf : SampleFormat) (rate : Word) (p : Plan) :
    (prepareCommit cfg c chs sf rate p).mseq = c.mseq := rfl
@[simp] theorem prepareCommit_pending (cfg : Cfg) (c : Core) (chs : Channels) (sf : SampleFormat) (rate : Word) (p : Plan) :
    (prepareCommit cfg c chs sf rate p).pending = c.pending := rfl
@[simp] theorem prepareCommit_active (cfg : Cfg) (c : Core) (chs : Channels) (sf : SampleFormat) (rate : Word) (p : Plan) :
    (prepareCommit cfg c chs sf rate p).active = commitPrepare c.active c.pending := rfl
@[simp] theorem prepareCommit_curve (cfg : Cfg) (c : Core) (chs : Channels) (sf : SampleFormat) (rate : Word) (p : Plan) :
    (prepareCommit cfg c chs sf rate p).curve = c.curve := rfl
@[simp] theorem prepareCommit_descUp (cfg : Cfg) (c : Core) (chs : Channels) (sf : SampleFormat) (rate : Word) (p : Plan) :
    (prepareCommit cfg c chs sf rate p).descUp = p.descUp := rfl
@[simp] theorem prepareCommit_descDn (cfg : Cfg) (c : Core) (chs : Channels) (sf : SampleFormat) (rate : Word) (p : Plan) :
    (prepareCommit cfg c chs sf rate p).descDn = p.descDn := rfl
@[simp] theorem prepareCommit_coefUp (cfg : Cfg) (c : Core) (chs : Channels) (sf : SampleFormat) (rate : Word) (p : Plan) :
    (prepareCommit cfg c chs sf rate p).coefUp = p.coefUp := rfl
@[simp] theorem prepareCommit_coefDn (cfg : Cfg) (c : Core) (chs : Channels) (sf : SampleFormat) (rate : Word) (p : Plan) :
    (prepareCommit cfg c chs sf rate p).coefDn = p.coefDn := rfl
@[simp] theorem prepareCommit_cl (cfg : Cfg) (c : Core) (chs : Channels) (sf : SampleFormat) (rate : Word) (p : Plan) :
    (prepareCommit cfg c chs sf rate p).cl = splitCoef cfg c.pending.xlo (fmul (ofNat64 (factor c.pending.os)) rate) := rfl
@[simp] theorem prepareCommit_ch (cfg : Cfg) (c : Core) (chs : Channels) (sf : SampleFormat) (rate : Word) (p : Plan) :
    (prepareCommit cfg c chs sf rate p).ch = splitCoef cfg c.pending.xhi (fmul (ofNat64 (factor c.pending.os)) rate) := rfl
@[simp] theorem prepareCommit_g (cfg : Cfg) (c : Core) (chs : Channels) (sf : SampleFormat) (rate : Word) (p : Plan) :
    (prepareCommit cfg c chs sf rate p).g = cfg.midGain (prepareCommit cfg c chs sf rate p).cl (prepareCommit cfg c chs sf rate p).ch := rfl
@[simp] theorem prepareCommit_gr (cfg : Cfg) (c : Core) (chs : Channels) (sf : SampleFormat) (rate : Word) (p : Plan) :
    (prepareCommit cfg c chs sf rate p).gr = fdiv cOne (prepareCommit cfg c chs sf rate p).g := rfl
@[simp] theorem prepareCommit_aatt (cfg : Cfg) (c : Core) (chs : Channels) (sf : SampleFormat) (rate : Word) (p : Plan) :
    (prepareCommit cfg c chs sf rate p).aatt = (envCoefs cfg rate c.pending.decay).1 := rfl
@[simp] theorem prepareCommit_arel (cfg : Cfg) (c : Core) (chs : Channels) (sf : SampleFormat) (rate : Word) (p : Plan) :
    (prepareCommit cfg c chs sf rate p).arel = (envCoefs cfg rate c.pending.decay).2 := rfl
@[simp] theorem prepareCommit_chan0 (cfg : Cfg) (c : Core) (chs : Channels) (sf : SampleFormat) (rate : Word) (p : Plan) :
    (prepareCommit cfg c chs sf rate p).chan0 = prepareChannel p c.chan0 := rfl
@[simp] theorem prepareCommit_chan1 (cfg : Cfg) (c : Core) (chs : Channels) (sf : SampleFormat) (rate : Word) (p : Plan) :
    (prepareCommit cfg c chs sf rate p).chan1 = prepareChannel p c.chan1 := rfl
@[simp] theorem prepareCommit_meter (cfg : Cfg) (c : Core) (chs : Channels) (sf : SampleFormat) (rate : Word) (p : Plan) :
    (prepareCommit cfg c chs sf rate p).meter = c.meter := rfl

/-! ### Updates of a channel -/

@[simp] theorem clearFilters_hup (ch : Channel) :
    ch.clearFilters.hup = clearStages ch.hup := rfl
@[simp] theorem clearFilters_hdn (ch : Channel) :
    ch.clearFilters.hdn = clearStages ch.hdn := rfl
@[simp] theorem clearFilters_lps (ch : Channel) :
    ch.clearFilters.lps = cZero := rfl
@[simp] theorem clearFilters_lpy (ch : Channel) :
    ch.clearFilters.lpy = cZero := rfl
@[simp] theorem clearFilters_hps (ch : Channel) :
    ch.clearFilters.hps = cZero := rfl
@[simp] theorem clearFilters_hpy (ch : Channel) :
    ch.clearFilters.hpy = cZero := rfl
@[simp] theorem clearFilters_lq (ch : Channel) :
    ch.clearFilters.lq = ch.lq := rfl
@[simp] theorem clearFilters_envIn (ch : Channel) :
    ch.clearFilters.envIn = ch.envIn := rfl
@[simp] theorem clearFilters_envOut (ch : Channel) :
    ch.clearFilters.envOut = ch.envOut := rfl
@[simp] theorem clearFilters_rsUp (ch : Channel) :
    ch.clearFilters.rsUp = ch.rsUp := rfl
@[simp] theorem clearFilters_rsDn (ch : Channel) :
    ch.clearFilters.rsDn = ch.rsDn := rfl
@[simp] theorem prepareChannel_hup (p : Plan) (ch : Channel) :
    (prepareChannel p ch).hup = PerStage.ofFn fun k => zeros (p.descUp.get k).c := rfl
@[simp] theorem prepareChannel_hdn (p : Plan) (ch : Channel) :
    (prepareChannel p ch).hdn = PerStage.ofFn fun k => zeros ((p.descDn.get k).n - 2) := rfl
@[simp] theorem prepareChannel_lps (p : Plan) (ch : Channel) :
    (prepareChannel p ch).lps = cZero := rfl
@[simp] theorem prepareChannel_lpy (p : Plan) (ch : Channel) :
    (prepareChannel p ch).lpy = cZero := rfl
@[simp] theorem prepareChannel_hps (p : Plan) (ch : Channel) :
    (prepareChannel p ch).hps = cZero := rfl
@[simp] theorem prepareChannel_hpy (p : Plan) (ch : Channel) :
    (prepareChannel p ch).hpy = cZero := rfl
@[simp] theorem prepareChannel_lq (p : Plan) (ch : Channel) :
    (prepareChannel p ch).lq = resize ch.lq p.lat := rfl
@[simp] theorem prepareChannel_envIn (p : Plan) (ch : Channel) :
    (prepareChannel p ch).envIn = cMinusHundred := rfl
@[simp] theorem prepareChannel_envOut (p : Plan) (ch : Channel) :
    (prepareChannel p ch).envOut = cMinusHundred := rfl
@[simp] theorem prepareChannel_rsUp (p : Plan) (ch : Channel) :
    (prepareChannel p ch).rsUp = p.rsUp := rfl
@[simp] theorem prepareChannel_rsDn (p : Plan) (ch : Channel) :
    (prepareChannel p ch).rsDn = p.rsDn := rfl

/-! ### Stage files -/

@[simp] theorem PerStage.get_ofFn {α : Type} (f : Config.Stage → α) (k : Config.Stage) : (PerStage.ofFn f).get k = f k := by
  cases k <;> rfl

theorem PerStage.get_set {α : Type} (t : PerStage α) (j k : Config.Stage) (v : α) :
    (t.set j v).get k = if k = j then v else t.get k := by
  cases j <;> cases k <;> rfl

@[simp] theorem PerStage.get_set_self {α : Type} (t : PerStage α) (k : Config.Stage) (v : α) : (t.set k v).get k = v := by
  cases k <;> rfl

end Sys2Proof.Machine
end

