-- ==== Sys2Proof/Laws/Arrays.lean ====
section
/-! SUPPORT. Every operation on the internal arrays keeps their lengths, or gives the length its rule states (20_memory.md R60). -/

namespace Sys2Proof.Machine

open Sys2Proof.Config (Cfg Stage)

@[simp] theorem length_zeros (n : Nat) : (zeros n).length = n := by simp [zeros]

@[simp] theorem length_freshWords (free : Nat → Word) (n len : Nat) : (freshWords free n len).length = len := by
  simp [freshWords]

@[simp] theorem length_clearStages (t : PerStage (List Word)) (k : Stage) :
    ((clearStages t).get k).length = (t.get k).length := by
  cases k <;> simp [clearStages, PerStage.get]

@[simp] theorem length_scrambleStages (free : Nat → Word) (n : Nat) (t : PerStage (List Word)) (k : Stage) :
    ((scrambleStages free n t).1.get k).length = (t.get k).length := by
  cases k <;> simp [scrambleStages, PerStage.get]

@[simp] theorem length_scrambleChannel_lq (free : Nat → Word) (n : Nat) (ch : Channel) :
    (scrambleChannel free n ch).1.lq.length = ch.lq.length := by
  simp [scrambleChannel]

@[simp] theorem length_scrambleChannel_hup (free : Nat → Word) (n : Nat) (ch : Channel) (k : Stage) :
    ((scrambleChannel free n ch).1.hup.get k).length = (ch.hup.get k).length := by
  simp [scrambleChannel]

@[simp] theorem length_scrambleChannel_hdn (free : Nat → Word) (n : Nat) (ch : Channel) (k : Stage) :
    ((scrambleChannel free n ch).1.hdn.get k).length = (ch.hdn.get k).length := by
  simp [scrambleChannel]

@[simp] theorem scrambleChannel_rsUp (free : Nat → Word) (n : Nat) (ch : Channel) :
    (scrambleChannel free n ch).1.rsUp = ch.rsUp := rfl

@[simp] theorem scrambleChannel_rsDn (free : Nat → Word) (n : Nat) (ch : Channel) :
    (scrambleChannel free n ch).1.rsDn = ch.rsDn := rfl

/-- The push and pop of the latency queue keep its length (47 R250). -/
@[simp] theorem length_align (lq : List Word) (d : Word) : (align lq d).2.length = lq.length := by
  simp [align]

/-- A resize gives exactly the new length (47 R253). -/
@[simp] theorem length_resize (q : List Word) (len : Nat) : (resize q len).length = len := by
  unfold resize
  split
  · simp; omega
  · simp; omega

/-- An up step keeps the length of a history that fits its descriptor (43 R183). -/
theorem length_hbUp_hist (d : Desc) (table hist : List Word) (x : Word) (h : hist.length = d.c) :
    (hbUp d table hist x).hist.length = d.c := by
  simp [hbUp, upWindow, h]

/-- A down step keeps the length of a history that fits its descriptor (43 R187). -/
theorem length_hbDn_hist (d : Desc) (table hist : List Word) (a b : Word) (h : hist.length = d.n - 2) :
    (hbDn d table hist a b).hist.length = d.n - 2 := by
  simp [hbDn, dnWindow, h]
  omega

theorem length_upStage_hist (d : Desc) (table : List Word) (xs : List Word) :
    ∀ hist : List Word, hist.length = d.c → (upStage d table hist xs).hist.length = d.c := by
  induction xs with
  | nil => intro hist h; simpa [upStage] using h
  | cons x xs ih => intro hist h; exact ih _ (length_hbUp_hist d table hist x h)

theorem length_dnStage_hist (d : Desc) (table : List Word) :
    ∀ (xs hist : List Word), hist.length = d.n - 2 → (dnStage d table hist xs).hist.length = d.n - 2
  | [], hist, h => by simpa [dnStage] using h
  | [_], hist, h => by simpa [dnStage] using h
  | a :: b :: xs, hist, h => by
    simpa [dnStage] using length_dnStage_hist d table xs _ (length_hbDn_hist d table hist a b h)

/-- A cascade keeps the lengths of the histories if each of its stages does. -/
theorem length_cascade_hist (stage : Desc → List Word → List Word → List Word → StageStep) (len : Stage → Nat)
    (descs : PerStage Desc) (tables : PerStage (List Word))
    (hs : ∀ k hist xs, hist.length = len k → (stage (descs.get k) (tables.get k) hist xs).hist.length = len k) :
    ∀ (ks : List Stage) (hist : PerStage (List Word)) (cur : List Word), (∀ k, (hist.get k).length = len k) →
      ∀ k, ((cascade stage descs tables ks hist cur).hist.get k).length = len k := by
  intro ks
  induction ks with
  | nil => intro hist cur h k; simpa [cascade] using h k
  | cons j ks ih =>
    intro hist cur h k
    simp only [cascade]
    apply ih
    intro i
    rw [PerStage.get_set]
    split
    · rename_i hij
      rw [hij]
      exact hs j _ _ (h j)
    · exact h i

/-- The band splitter touches only the running values (45 R224). -/
theorem nonLinAll_frame (c : Core) : ∀ (vs : List Word) (ch : Channel),
    (nonLinAll c ch vs).chan.hup = ch.hup ∧ (nonLinAll c ch vs).chan.hdn = ch.hdn ∧ (nonLinAll c ch vs).chan.lq = ch.lq
      ∧ (nonLinAll c ch vs).chan.envIn = ch.envIn ∧ (nonLinAll c ch vs).chan.envOut = ch.envOut
      ∧ (nonLinAll c ch vs).chan.rsUp = ch.rsUp ∧ (nonLinAll c ch vs).chan.rsDn = ch.rsDn := by
  intro vs
  induction vs with
  | nil => intro ch; simp [nonLinAll]
  | cons v vs ih =>
    intro ch
    have h : (nonLin c ch v).chan.hup = ch.hup ∧ (nonLin c ch v).chan.hdn = ch.hdn ∧ (nonLin c ch v).chan.lq = ch.lq
        ∧ (nonLin c ch v).chan.envIn = ch.envIn ∧ (nonLin c ch v).chan.envOut = ch.envOut
        ∧ (nonLin c ch v).chan.rsUp = ch.rsUp ∧ (nonLin c ch v).chan.rsDn = ch.rsDn := by
      unfold nonLin
      split <;> simp [splitShape, splitStep]
    obtain ⟨a1, a2, a3, a4, a5, a6, a7⟩ := ih (nonLin c ch v).chan
    obtain ⟨b1, b2, b3, b4, b5, b6, b7⟩ := h
    exact ⟨a1.trans b1, a2.trans b2, a3.trans b3, a4.trans b4, a5.trans b5, a6.trans b6, a7.trans b7⟩

end Sys2Proof.Machine
end

