-- ==== Sys2Proof/Laws/Ops.lean ====
section
/-! SUPPORT. What each shared operation can do, said once: if it answers `next t`, one of these cases holds. -/

namespace Sys2Proof.Machine

open Sys2Proof.Config (Cfg RsState)

/-- What a SET with an operand range can do (41 R130). -/
theorem setRanged_cases {s t : State} {legal : Bool} {c : Core} (h : s.setRanged legal c = .next t) :
    (legal = true ∧ t = s.finish c []) ∨ (legal = false ∧ t = s.refuse .eRange) := by
  unfold State.setRanged at h
  cases legal <;> cases h
  · exact .inr ⟨rfl, rfl⟩
  · exact .inl ⟨rfl, rfl⟩

/-- What a SET without an operand range can do (41 R130). -/
theorem setParam_cases {s t : State} {c : Core} (h : s.setParam c = .next t) : t = s.finish c [] := by
  cases h; rfl

/-- What PREPARE can do: refuse with the first failing check, refuse the planning, or commit (40 R102). -/
theorem prepareWith_cases (cfg : Cfg) (nch fmt : BitVec 4) (rate : Word) (s : State) :
    (∃ code, prepareChecks s.core nch fmt rate = .error code ∧ prepareWith cfg nch fmt rate s = s.refuse code)
    ∨ (∃ f, prepareChecks s.core nch fmt rate = .ok f
        ∧ planMode cfg rate s.core.pending.os s.core.pending.phase = none
        ∧ prepareWith cfg nch fmt rate s = s.refuse .eConfig)
    ∨ (∃ f plan, prepareChecks s.core nch fmt rate = .ok f
        ∧ planMode cfg rate s.core.pending.os s.core.pending.phase = some plan
        ∧ prepareWith cfg nch fmt rate s = s.finish (prepareCommit cfg s.core f.1 f.2 rate plan) []) := by
  unfold prepareWith
  split
  · rename_i code h
    exact .inl ⟨code, h, rfl⟩
  · rename_i chs sf h
    split
    · rename_i hp
      exact .inr (.inl ⟨_, h, hp, rfl⟩)
    · rename_i plan hp
      exact .inr (.inr ⟨_, plan, h, hp, rfl⟩)

/-- What the checks of PREPARE say when all pass (40 R102). -/
theorem prepareChecks_ok {c : Core} {nch fmt : BitVec 4} {rate : Word} {chs : Channels} {sf : SampleFormat}
    (h : prepareChecks c nch fmt rate = .ok (chs, sf)) :
    c.life ≠ .active ∧ c.life ≠ .inblock ∧ channelsOf nch = some chs ∧ formatOf fmt = some sf
      ∧ isPositiveFinite rate = true ∧ c.xloW = true ∧ c.xhiW = true ∧ c.decayW = true
      ∧ flt c.pending.xlo (fdiv rate cTwo) = true ∧ flt c.pending.xhi (fdiv rate cTwo) = true := by
  unfold prepareChecks at h
  split at h
  · cases h
  rename_i hl
  split at h
  · rename_i chs' sf' hc hf
    split at h
    · cases h
    rename_i h4
    split at h
    · cases h
    rename_i h5
    split at h
    · cases h
    rename_i h6
    cases h
    simp only [Bool.or_eq_true, Bool.not_eq_true', not_or, Bool.not_eq_false] at h4 h5 h6
    exact ⟨fun e => hl (.inl e), fun e => hl (.inr e), hc, hf, h4, h5.1.1, h5.1.2, h5.2, h6.1, h6.2⟩
  · cases h

/-- A check of PREPARE never fails with `OK` (40 R102). -/
theorem prepareChecks_error_ne_ok {c : Core} {nch fmt : BitVec 4} {rate : Word} {code : RespCode}
    (h : prepareChecks c nch fmt rate = .error code) : code ≠ .ok := by
  unfold prepareChecks at h
  repeat' split at h
  all_goals cases h
  all_goals decide

/-- What START can do (40 R105). -/
theorem startWith_cases (cfg : Cfg) (s : State) :
    (s.core.life = .ready ∧ startWith cfg s = s.finish (restart cfg s.core .active) [])
    ∨ (s.core.life ≠ .ready ∧ startWith cfg s = s.refuse .eState) := by
  unfold startWith
  split
  · rename_i h; exact .inl ⟨h, rfl⟩
  · rename_i h; exact .inr ⟨h, rfl⟩

/-- What STOP can do (40 R106). -/
theorem stopWith_cases (cfg : Cfg) (s : State) :
    (s.core.life = .active ∧ stopWith cfg s = s.finish (restart cfg s.core .ready) [])
    ∨ (s.core.life ≠ .active ∧ stopWith cfg s = s.refuse .eState) := by
  unfold stopWith
  split
  · rename_i h; exact .inl ⟨h, rfl⟩
  · rename_i h; exact .inr ⟨h, rfl⟩

/-- What BLKBEGIN can do (40 R108). -/
theorem execBlkbegin_cases {s t : State} (h : execBlkbegin s = .next t) :
    (s.core.life = .active ∧ t = s.finish (beginBlock s.core) []) ∨ (s.core.life ≠ .active ∧ t = s.refuse .eState) := by
  cases h
  split
  · rename_i h; exact .inl ⟨h, rfl⟩
  · rename_i h; exact .inr ⟨h, rfl⟩

/-- What FRAME can do: one frame of each channel in use, or a refusal (40 R110). -/
theorem frameWith_cases (cfg : Cfg) (samples : List Word) (s : State) :
    (s.core.life = .inblock ∧ ∃ r, r = frameChannels cfg s.core s.freeCount samples
        ∧ (frameWith cfg samples s).core = frameCore s.core r
        ∧ (frameWith cfg samples s).port = (s.respond .ok ([r.1.res, r.2.res].take s.core.nch.count)).port
        ∧ (frameWith cfg samples s).freeCount = s.freeCount + r.1.used + r.2.used)
    ∨ (s.core.life ≠ .inblock ∧ frameWith cfg samples s = s.refuse .eState) := by
  unfold frameWith
  split
  · rename_i h; exact .inl ⟨h, _, rfl, rfl, rfl, rfl⟩
  · rename_i h; exact .inr ⟨h, rfl⟩

/-- What one channel of a FRAME gives: the processed channel where every checked value is finite, else free values (40 R118). -/
theorem frameChannel_cases (cfg : Cfg) (c : Core) (n : Nat) (ch : Channel) (opd : Word) :
    ∃ r, r = processChannel cfg c n ch (sampleIn c.fmt opd)
      ∧ (frameChannel cfg c n ch opd).rsFault = r.rsFault
      ∧ ((r.finite = true ∧ (frameChannel cfg c n ch opd).chan = r.chan
            ∧ (frameChannel cfg c n ch opd).res = sampleOut c.fmt r.y
            ∧ (frameChannel cfg c n ch opd).nonFinite = false)
        ∨ (r.finite = false ∧ (frameChannel cfg c n ch opd).chan = (scrambleChannel cfg.freeWord (n + r.used + 1) r.chan).1
            ∧ (frameChannel cfg c n ch opd).nonFinite = true)) := by
  refine ⟨_, rfl, ?_⟩
  unfold frameChannel
  simp only
  split
  · rename_i h; exact ⟨rfl, .inl ⟨h, rfl, rfl, rfl⟩⟩
  · rename_i h; exact ⟨rfl, .inr ⟨by simpa using h, rfl, rfl⟩⟩

/-- The channels of a FRAME: channel 0 always, channel 1 only with two channels (10 R50). -/
theorem frameChannels_cases (cfg : Cfg) (c : Core) (n : Nat) (samples : List Word) :
    (frameChannels cfg c n samples).1 = frameChannel cfg c n c.chan0 (memRead samples 0)
      ∧ ((c.nch = .mono ∧ (frameChannels cfg c n samples).2 = idleChannel c.chan1)
        ∨ (c.nch = .stereo ∧ ∃ n', (frameChannels cfg c n samples).2 = frameChannel cfg c n' c.chan1 (memRead samples 1))) := by
  unfold frameChannels
  simp only
  cases h : c.nch
  · exact ⟨rfl, .inl ⟨rfl, rfl⟩⟩
  · exact ⟨rfl, .inr ⟨rfl, _, rfl⟩⟩

/-- What a call of the Resampler gives (44 R211). -/
theorem resample_cases (cfg : Cfg) (n : Nat) (inst : Option RsState) (input : List Word) (want : Nat) :
    (∃ st, inst = some st ∧ (cfg.rsProcess st input).2.length = want
        ∧ (resample cfg n inst input want).out = (cfg.rsProcess st input).2
        ∧ (resample cfg n inst input want).inst = some (cfg.rsProcess st input).1
        ∧ (resample cfg n inst input want).fault = false)
    ∨ ((resample cfg n inst input want).out = freshWords cfg.freeWord n want
        ∧ (resample cfg n inst input want).inst.isSome = inst.isSome
        ∧ (resample cfg n inst input want).fault = true) := by
  unfold resample
  cases inst with
  | none => exact .inr ⟨rfl, rfl, rfl⟩
  | some st =>
    by_cases h : (cfg.rsProcess st input).2.length = want
    · exact .inl ⟨st, rfl, h, by simp [h], by simp [h], by simp [h]⟩
    · exact .inr ⟨by simp [h], by simp [h], by simp [h]⟩

/-- What BLKEND can do (40 R119). -/
theorem blkendWith_cases (cfg : Cfg) (s : State) :
    (s.core.life = .inblock ∧ (blkendWith cfg s).core = endBlock cfg s.core s.freeCount
        ∧ (blkendWith cfg s).port = (s.respond .ok []).port ∧ (blkendWith cfg s).freeCount = s.freeCount + 1)
    ∨ (s.core.life ≠ .inblock ∧ blkendWith cfg s = s.refuse .eState) := by
  unfold blkendWith
  split
  · rename_i h; exact .inl ⟨h, rfl, rfl, rfl⟩
  · rename_i h; exact .inr ⟨h, rfl⟩

/-- What the planning gives when it succeeds (40 R103). -/
theorem planMode_cases {cfg : Cfg} {rate : Word} {os : BitVec 2} {phase : Phase} {p : Plan}
    (h : planMode cfg rate os phase = some p) :
    (os = 0 ∧ p = Plan.bare 0) ∨ (os ≠ 0 ∧ phase = .min ∧ planMin cfg rate os = some p)
      ∨ (os ≠ 0 ∧ phase = .lin ∧ planLin cfg rate os = some p) := by
  unfold planMode at h
  split at h
  · rename_i h0; cases h; exact .inl ⟨h0, rfl⟩
  · rename_i h0
    cases phase
    · exact .inr (.inl ⟨h0, rfl, h⟩)
    · exact .inr (.inr ⟨h0, rfl, h⟩)

/-- What the fetch gives (30 R80, R87): which words are consumed in each case. -/
theorem fetch_cases (s : State) :
    (fetch s = .wait)
    ∨ (∃ rest, s.port.moves = .resetPin :: rest ∧ fetch s = .pin s.popMove)
    ∨ (∃ rest, s.port.moves = .observe :: rest ∧ fetch s = .observe s.popMove)
    ∨ (∃ cw rest i, s.port.moves = .command cw :: rest ∧ s.operandsFor cw ≤ s.port.operands.length
        ∧ decode cw (s.port.operands.take (s.operandsFor cw)) = .ok i
        ∧ fetch s = .run i (s.popCommand (s.operandsFor cw)))
    ∨ (∃ cw rest e, s.port.moves = .command cw :: rest ∧ s.operandsFor cw ≤ s.port.operands.length
        ∧ decode cw (s.port.operands.take (s.operandsFor cw)) = .error e
        ∧ fetch s = .illegal (s.popCommand (s.operandsFor cw))) := by
  unfold fetch
  split
  · exact .inl rfl
  · rename_i rest h; exact .inr (.inl ⟨rest, h, rfl⟩)
  · rename_i rest h; exact .inr (.inr (.inl ⟨rest, h, rfl⟩))
  · rename_i cw rest h
    simp only
    split
    · exact .inl rfl
    · rename_i hn
      split
      · rename_i i hi; exact .inr (.inr (.inr (.inl ⟨cw, rest, i, h, by omega, hi, rfl⟩)))
      · rename_i e he; exact .inr (.inr (.inr (.inr ⟨cw, rest, e, h, by omega, he, rfl⟩)))

end Sys2Proof.Machine
end

