-- ==== Sys2Proof/Laws/Exec.lean ====
section
/-! SUPPORT. What a command can do, said once for all commands. -/

namespace Sys2Proof.Machine

/-- The code a response adds. -/
theorem lastCode_respond (s : State) (c : RespCode) (r : List Word) : (s.respond c r).lastCode = some c := by
  simp [State.lastCode, State.lastResponse, State.respond]

/-- The code of a command that ends with `OK`. -/
theorem lastCode_finish (s : State) (c : Core) (r : List Word) : (s.finish c r).lastCode = some .ok := by
  simp [State.finish, lastCode_respond]

/-- The code of a refused command. -/
theorem lastCode_refuse (s : State) (c : RespCode) : (s.refuse c).lastCode = some c := by
  simp [State.refuse, lastCode_respond]

/-- What FRAME can do to the core and the response (40 R110). -/
theorem frame_cases (samples : List Word) (s : State) :
    (s.core.life = .inblock
      ∧ (frameWith Config.cfg samples s).core = frameCore s.core (frameChannels Config.cfg s.core s.freeCount samples)
      ∧ (frameWith Config.cfg samples s).lastCode = some .ok)
    ∨ (s.core.life ≠ .inblock ∧ frameWith Config.cfg samples s = s.refuse .eState) := by
  rcases frameWith_cases Config.cfg samples s with ⟨h, r, hr, hc, hp, _⟩ | h
  · subst hr
    refine .inl ⟨h, hc, ?_⟩
    simp [State.lastCode, State.lastResponse, hp, State.respond]
  · exact .inr h

/-- What BLKEND can do to the core and the response (40 R119). -/
theorem blkend_cases (s : State) :
    (s.core.life = .inblock ∧ (blkendWith Config.cfg s).core = endBlock Config.cfg s.core s.freeCount
      ∧ (blkendWith Config.cfg s).lastCode = some .ok)
    ∨ (s.core.life ≠ .inblock ∧ blkendWith Config.cfg s = s.refuse .eState) := by
  rcases blkendWith_cases Config.cfg s with ⟨h, hc, hp, _⟩ | h
  · refine .inl ⟨h, hc, ?_⟩
    simp [State.lastCode, State.lastResponse, hp, State.respond]
  · exact .inr h

/-- The commands that an operand or a configuration can have refused (60 R300, R302). -/
def refusable : List Op :=
  [.prepare, .setig, .setog, .setmix, .setcurve, .setxlo, .setxhi, .setdecay]

/-- The core after a command that answers `OK` (40 R100 to R119, 41 R130 to R147). -/
def CoreAfter (s : State) (c : Core) : Instr → Prop
  | .reset => c = Core.reset
  | .prepare nch fmt rate => ∃ f plan, prepareChecks s.core nch fmt rate = .ok f
      ∧ planMode Config.cfg rate s.core.pending.os s.core.pending.phase = some plan
      ∧ c = prepareCommit Config.cfg s.core f.1 f.2 rate plan
  | .start => c = restart Config.cfg s.core .active
  | .stop => c = restart Config.cfg s.core .ready
  | .blkbegin => c = beginBlock s.core
  | .frame samples => c = frameCore s.core (frameChannels Config.cfg s.core s.freeCount samples)
  | .blkend => c = endBlock Config.cfg s.core s.freeCount
  | .setig v => c = { s.core with pending := { s.core.pending with ig := v } }
  | .setog v => c = { s.core with pending := { s.core.pending with og := v } }
  | .setmix v => c = { s.core with pending := { s.core.pending with mix := v } }
  | .setcurve v => c = { s.core with pending := { s.core.pending with curve := v } }
  | .setclip v => c = { s.core with pending := { s.core.pending with clip := v } }
  | .setsplit v => c = { s.core with pending := { s.core.pending with split := v } }
  | .setos v => c = { s.core with pending := { s.core.pending with os := v } }
  | .setphase v => c = { s.core with pending := { s.core.pending with phase := v } }
  | .setxlo v => c = { s.core with pending := { s.core.pending with xlo := v }, xloW := true }
  | .setxhi v => c = { s.core with pending := { s.core.pending with xhi := v }, xhiW := true }
  | .setenvm v => c = { s.core with pending := { s.core.pending with envm := v } }
  | .setdecay v => c = { s.core with pending := { s.core.pending with decay := v }, decayW := true }
  | .getlat => c = s.core
  | .getstat => c = s.core
  | .getmeter => c = s.core

/-- What any command can do: it is refused, with `E_STATE` exactly where the lifecycle table has no cell for it, or it answers
`OK` and leaves the core that its rule gives. -/
theorem exec_cases {i : Instr} {s t : State} (h : exec i s = .next t) :
    (∃ code, t = s.refuse code ∧ code ≠ .ok ∧ code ≠ .eIllegal ∧ (code = .eState ↔ accepts i s.core.life = false)
      ∧ (code ≠ .eState → i.op ∈ refusable))
    ∨ (t.lastCode = some .ok ∧ accepts i s.core.life = true ∧
      CoreAfter s t.core i) := by
  cases i
  case reset => cases h; exact .inr ⟨lastCode_respond _ _ _, rfl, rfl⟩
  case prepare nch fmt rate =>
    cases h
    rcases prepareWith_cases Config.cfg nch fmt rate s with ⟨code, hc, e⟩ | ⟨f, hc, hp, e⟩ | ⟨f, plan, hc, hp, e⟩
    · rw [e]
      refine .inl ⟨code, rfl, prepareChecks_error_ne_ok hc, ?_, ?_, fun _ => by simp [Instr.op, refusable]⟩
      · unfold prepareChecks at hc; repeat' split at hc
        all_goals cases hc
        all_goals decide
      · unfold prepareChecks at hc
        split at hc
        · rename_i hl; cases hc; rcases hl with hl | hl <;> simp [accepts, hl]
        · rename_i hl
          have : accepts (.prepare nch fmt rate) s.core.life = true := by
            revert hl; cases s.core.life <;> simp [accepts]
          rw [this]
          repeat' split at hc
          all_goals cases hc
          all_goals decide
    · rw [e]
      have := prepareChecks_ok hc
      refine .inl ⟨_, rfl, by decide, by decide, ?_, fun _ => by simp [Instr.op, refusable]⟩
      have : accepts (.prepare nch fmt rate) s.core.life = true := by
        revert this; cases s.core.life <;> simp [accepts]
      rw [this]; decide
    · rw [e]
      have := prepareChecks_ok hc
      refine .inr ⟨lastCode_finish _ _ _, ?_, f, plan, hc, hp, rfl⟩
      revert this; cases s.core.life <;> simp [accepts]
  case start =>
    cases h
    rcases startWith_cases Config.cfg s with ⟨h, e⟩ | ⟨h, e⟩ <;> rw [e]
    · exact .inr ⟨lastCode_finish _ _ _, by simp [accepts, h], rfl⟩
    · exact .inl ⟨_, rfl, by decide, by decide, by simp [accepts, h], by simp⟩
  case stop =>
    cases h
    rcases stopWith_cases Config.cfg s with ⟨h, e⟩ | ⟨h, e⟩ <;> rw [e]
    · exact .inr ⟨lastCode_finish _ _ _, by simp [accepts, h], rfl⟩
    · exact .inl ⟨_, rfl, by decide, by decide, by simp [accepts, h], by simp⟩
  case blkbegin =>
    rcases execBlkbegin_cases h with ⟨h, e⟩ | ⟨h, e⟩ <;> rw [e]
    · exact .inr ⟨lastCode_finish _ _ _, by simp [accepts, h], rfl⟩
    · exact .inl ⟨_, rfl, by decide, by decide, by simp [accepts, h], by simp⟩
  case frame samples =>
    cases h
    rcases frame_cases samples s with ⟨h, e1, e2⟩ | ⟨h, e⟩
    · exact .inr ⟨e2, by simp [accepts, h], e1⟩
    · rw [e]; exact .inl ⟨_, rfl, by decide, by decide, by simp [accepts, h], by simp⟩
  case blkend =>
    cases h
    rcases blkend_cases s with ⟨h, e1, e2⟩ | ⟨h, e⟩
    · exact .inr ⟨e2, by simp [accepts, h], e1⟩
    · rw [e]; exact .inl ⟨_, rfl, by decide, by decide, by simp [accepts, h], by simp⟩
  case setclip => rw [setParam_cases h]; exact .inr ⟨lastCode_finish _ _ _, rfl, rfl⟩
  case setsplit => rw [setParam_cases h]; exact .inr ⟨lastCode_finish _ _ _, rfl, rfl⟩
  case setos => rw [setParam_cases h]; exact .inr ⟨lastCode_finish _ _ _, rfl, rfl⟩
  case setphase => rw [setParam_cases h]; exact .inr ⟨lastCode_finish _ _ _, rfl, rfl⟩
  case setenvm => rw [setParam_cases h]; exact .inr ⟨lastCode_finish _ _ _, rfl, rfl⟩
  case getlat => cases h; exact .inr ⟨lastCode_respond _ _ _, rfl, rfl⟩
  case getstat => cases h; exact .inr ⟨lastCode_respond _ _ _, rfl, rfl⟩
  case getmeter => cases h; exact .inr ⟨lastCode_respond _ _ _, rfl, rfl⟩
  all_goals
    rcases setRanged_cases h with ⟨_, e⟩ | ⟨_, e⟩ <;> rw [e]
    · exact .inr ⟨lastCode_finish _ _ _, rfl, rfl⟩
    · exact .inl ⟨_, rfl, by decide, by decide, by simp [accepts], fun _ => by simp [Instr.op, refusable]⟩

/-- Every command has a next state (70 R340). -/
theorem exec_next (i : Instr) (s : State) : ∃ t, exec i s = .next t := by
  cases i <;> exact ⟨_, rfl⟩

end Sys2Proof.Machine
end

