-- ==== Sys2Proof/Laws/Float.lean ====
section
/-! SUPPORT. What the arithmetic of 49_numerics.md does: signs and classes of words, rounding, exactness of representable values. -/

namespace Sys2Proof.Machine

open Sys2Proof.Config (FloatOp)

/-! ### Sign and magnitude -/

/-- The sign bit of a word and the 63 bits below it. -/
theorem toNat_split (w : Word) : w.toNat = (if w.msb then 2 ^ 63 else 0) + (w.setWidth 63).toNat := by
  have h1 : w.msb = decide (2 ^ 63 ≤ w.toNat) := by
    rw [BitVec.msb_eq_decide]
  have h2 : (w.setWidth 63).toNat = w.toNat % 2 ^ 63 := by simp
  have h3 := w.isLt
  rw [h2, h1]
  by_cases h : 2 ^ 63 ≤ w.toNat
  · simp only [h, decide_true, if_true]; omega
  · simp only [h, decide_false]; simp; omega

theorem fabs_setWidth (w : Word) : (fabs w).setWidth 63 = w.setWidth 63 := by
  apply BitVec.eq_of_getLsbD_eq
  intro i hi
  simp only [fabs, BitVec.getLsbD_setWidth, BitVec.getLsbD_and, hi, decide_true, Bool.true_and]
  have : ∀ i : Fin 63, BitVec.getLsbD (0x7FFFFFFFFFFFFFFF : Word) i.val = true := by decide
  rw [show BitVec.getLsbD (0x7FFFFFFFFFFFFFFF : Word) i = true from this ⟨i, hi⟩, Bool.and_true]

theorem fabs_msb (w : Word) : (fabs w).msb = false := by
  have h : BitVec.msb (0x7FFFFFFFFFFFFFFF : Word) = false := by decide
  rw [fabs, BitVec.msb_and, h, Bool.and_false]

theorem fneg_setWidth (w : Word) : (fneg w).setWidth 63 = w.setWidth 63 := by
  apply BitVec.eq_of_getLsbD_eq
  intro i hi
  simp only [fneg, BitVec.getLsbD_setWidth, BitVec.getLsbD_xor, hi, decide_true, Bool.true_and]
  have : ∀ i : Fin 63, BitVec.getLsbD (0x8000000000000000 : Word) i.val = false := by decide
  rw [show BitVec.getLsbD (0x8000000000000000 : Word) i = false from this ⟨i, hi⟩, Bool.xor_false]

theorem fneg_msb (w : Word) : (fneg w).msb = !w.msb := by
  have h : BitVec.msb (0x8000000000000000 : Word) = true := by decide
  rw [fneg, BitVec.msb_xor, h, Bool.xor_true]

theorem fabs_toNat (w : Word) : (fabs w).toNat = (w.setWidth 63).toNat := by
  rw [toNat_split (fabs w), fabs_setWidth, fabs_msb]; simp

theorem fneg_toNat (w : Word) : (fneg w).toNat = (if w.msb then 0 else 2 ^ 63) + (w.setWidth 63).toNat := by
  rw [toNat_split (fneg w), fneg_setWidth, fneg_msb]; cases w.msb <;> simp

@[simp] theorem fabs_fneg (w : Word) : fabs (fneg w) = fabs w := by
  apply BitVec.eq_of_toNat_eq
  rw [fabs_toNat, fabs_toNat, fneg_setWidth]

@[simp] theorem fneg_fneg (w : Word) : fneg (fneg w) = w := by
  apply BitVec.eq_of_toNat_eq
  rw [toNat_split (fneg (fneg w)), fneg_setWidth, fneg_setWidth, fneg_msb, fneg_msb, Bool.not_not, ← toNat_split]

/-- The place of a word in the order of values is read off its magnitude bits. -/
theorem orderKey_eq (w : Word) :
    orderKey w = if w.msb then -((w.setWidth 63).toNat : Int) else ((w.setWidth 63).toNat : Int) := by
  unfold orderKey
  rw [fabs_toNat]

@[simp] theorem orderKey_fneg (w : Word) : orderKey (fneg w) = -orderKey w := by
  rw [orderKey_eq, orderKey_eq, fneg_msb, fneg_setWidth]
  cases w.msb <;> simp

theorem isFinite_iff (w : Word) : isFinite w = true ↔ (w.setWidth 63).toNat < 2047 * 2 ^ 52 := by
  have h : (w.extractLsb' 52 11).toNat = (w.setWidth 63).toNat / 2 ^ 52 := by
    simp only [BitVec.extractLsb'_toNat, Nat.shiftRight_eq_div_pow, BitVec.toNat_setWidth]
    omega
  have h2 := (w.setWidth 63).isLt
  have h3 : isFinite w = true ↔ (w.extractLsb' 52 11).toNat ≠ 2047 := by
    simp [isFinite, ← BitVec.toNat_inj]
  rw [h3, h]
  omega

theorem isNan_iff (w : Word) : isNan w = true ↔ 2047 * 2 ^ 52 < (w.setWidth 63).toNat := by
  have h : (w.extractLsb' 52 11).toNat = (w.setWidth 63).toNat / 2 ^ 52 := by
    simp only [BitVec.extractLsb'_toNat, Nat.shiftRight_eq_div_pow, BitVec.toNat_setWidth]
    omega
  have h' : (w.extractLsb' 0 52).toNat = (w.setWidth 63).toNat % 2 ^ 52 := by
    simp only [BitVec.extractLsb'_toNat, Nat.shiftRight_eq_div_pow, BitVec.toNat_setWidth]
    omega
  have h2 := (w.setWidth 63).isLt
  have h3 : isNan w = true ↔ (w.extractLsb' 52 11).toNat = 2047 ∧ (w.extractLsb' 0 52).toNat ≠ 0 := by
    simp [isNan, ← BitVec.toNat_inj]
  rw [h3, h, h']
  omega

theorem isNan_of_finite {w : Word} (h : isFinite w = true) : isNan w = false := by
  rw [Bool.eq_false_iff]
  intro hn
  rw [isFinite_iff] at h
  rw [isNan_iff] at hn
  omega

@[simp] theorem isFinite_fneg (w : Word) : isFinite (fneg w) = isFinite w := by
  rw [Bool.eq_iff_iff, isFinite_iff, isFinite_iff, fneg_setWidth]

@[simp] theorem isFinite_fabs (w : Word) : isFinite (fabs w) = isFinite w := by
  rw [Bool.eq_iff_iff, isFinite_iff, isFinite_iff, fabs_setWidth]

@[simp] theorem isNan_fneg (w : Word) : isNan (fneg w) = isNan w := by
  rw [Bool.eq_iff_iff, isNan_iff, isNan_iff, fneg_setWidth]

theorem flt_iff (a b : Word) : flt a b = true ↔ isNan a = false ∧ isNan b = false ∧ orderKey a < orderKey b := by
  simp [flt, and_assoc]

theorem fle_iff (a b : Word) : fle a b = true ↔ isNan a = false ∧ isNan b = false ∧ orderKey a ≤ orderKey b := by
  simp [fle, and_assoc]

theorem feq_iff (a b : Word) : feq a b = true ↔ isNan a = false ∧ isNan b = false ∧ orderKey a = orderKey b := by
  simp [feq, and_assoc]

/-! ### Rounding -/

theorem roundShift_scale (m j k : Nat) : roundShift (m * 2 ^ j) (k + j) = roundShift m k := by
  have hj : 0 < 2 ^ j := Nat.two_pow_pos j
  have h1 : m * 2 ^ j / 2 ^ (k + j) = m / 2 ^ k := by
    rw [Nat.pow_add, Nat.mul_comm (2 ^ k), Nat.mul_comm m, Nat.mul_div_mul_left _ _ hj]
  have h2 : m * 2 ^ j % 2 ^ (k + j) = 2 ^ j * (m % 2 ^ k) := by
    rw [Nat.pow_add, Nat.mul_comm (2 ^ k), Nat.mul_comm m, Nat.mul_mod_mul_left]
  unfold roundShift
  rw [h1, h2, Nat.pow_add]
  have e1 : 2 * (2 ^ j * (m % 2 ^ k)) > 2 ^ k * 2 ^ j ↔ 2 * (m % 2 ^ k) > 2 ^ k := by
    rw [gt_iff_lt, gt_iff_lt, Nat.mul_comm (2 ^ k), Nat.mul_left_comm]
    exact Nat.mul_lt_mul_left hj
  have e2 : 2 * (2 ^ j * (m % 2 ^ k)) = 2 ^ k * 2 ^ j ↔ 2 * (m % 2 ^ k) = 2 ^ k := by
    rw [Nat.mul_comm (2 ^ k), Nat.mul_left_comm]
    exact Nat.mul_right_inj hj.ne'
  simp only [e1, e2]

theorem roundShift_exact (t k : Nat) : roundShift (t * 2 ^ k) k = t := by
  have := roundShift_scale t k 0
  rw [Nat.zero_add] at this
  rw [this]
  simp [roundShift, Nat.mod_one]

theorem lastPlace_scale (f : FloatFormat) (m j : Nat) (e : Int) (hm : m ≠ 0) :
    lastPlace f (m * 2 ^ j) (e - j) = lastPlace f m e := by
  unfold lastPlace
  have h : (m * 2 ^ j).log2 = m.log2 + j := by
    rw [Nat.log2_eq_iff (by positivity)]
    obtain ⟨h1, h2⟩ := (Nat.log2_eq_iff hm).1 rfl
    have hj : 0 < 2 ^ j := Nat.two_pow_pos j
    constructor
    · rw [pow_add]; exact Nat.mul_le_mul_right _ h1
    · rw [show m.log2 + j + 1 = m.log2 + 1 + j by omega, pow_add]; exact Nat.mul_lt_mul_of_pos_right h2 hj
  rw [h]
  push_cast
  congr 1
  ring

/-- Rounding depends on the value alone, not on how it is written as m · 2^e. -/
theorem roundMag_scale (f : FloatFormat) (m j : Nat) (e : Int) : roundMag f (m * 2 ^ j) (e - j) = roundMag f m e := by
  by_cases hm : m = 0
  · simp [hm, roundMag]
  have hj : 0 < 2 ^ j := Nat.two_pow_pos j
  have hm' : m * 2 ^ j ≠ 0 := by positivity
  unfold roundMag
  rw [if_neg hm, if_neg hm', lastPlace_scale f m j e hm]
  generalize lastPlace f m e = q
  have key : (if q ≤ e - j then m * 2 ^ j * 2 ^ (e - j - q).toNat else roundShift (m * 2 ^ j) (q - (e - j)).toNat)
      = if q ≤ e then m * 2 ^ (e - q).toNat else roundShift m (q - e).toNat := by
    by_cases h1 : q ≤ e - j
    · have h2 : q ≤ e := by omega
      rw [if_pos h1, if_pos h2, mul_assoc, ← pow_add]
      congr 2
      omega
    · rw [if_neg h1]
      by_cases h2 : q ≤ e
      · rw [if_pos h2]
        have : m * 2 ^ j = (m * 2 ^ (e - q).toNat) * 2 ^ (q - (e - j)).toNat := by
          rw [mul_assoc, ← pow_add]
          congr 2
          omega
        rw [this, roundShift_exact]
      · rw [if_neg h2]
        have : (q - (e - j)).toNat = (q - e).toNat + j := by omega
        rw [this, roundShift_scale]
  simp only [key]

theorem roundMag_le_inf (f : FloatFormat) (m : Nat) (e : Int) : roundMag f m e ≤ f.infBits := by
  unfold roundMag
  split
  · exact Nat.zero_le _
  · exact min_le_right _ _

@[simp] theorem roundMag_zero (f : FloatFormat) (e : Int) : roundMag f 0 e = 0 := by simp [roundMag]

theorem binary64_infBits : binary64.infBits = 2047 * 2 ^ 52 := by decide

theorem binary64_minExp : binary64.minExp = -1074 := by decide

theorem round64_msb (neg : Bool) (m : Nat) (e : Int) : (round64 neg m e).msb = neg := by
  have h := roundMag_le_inf binary64 m e
  rw [binary64_infBits] at h
  have hs : binary64.signBit = 2 ^ 63 := by decide
  rw [BitVec.msb_eq_decide]
  simp only [round64, roundBits, hs, BitVec.toNat_ofNat]
  cases neg <;> simp <;> omega

theorem round64_setWidth (neg : Bool) (m : Nat) (e : Int) :
    ((round64 neg m e).setWidth 63).toNat = roundMag binary64 m e := by
  have h := roundMag_le_inf binary64 m e
  rw [binary64_infBits] at h
  have hs : binary64.signBit = 2 ^ 63 := by decide
  simp only [round64, roundBits, hs, BitVec.toNat_setWidth, BitVec.toNat_ofNat]
  cases neg <;> simp <;> omega

theorem isNan_round64 (neg : Bool) (m : Nat) (e : Int) : isNan (round64 neg m e) = false := by
  rw [Bool.eq_false_iff]
  intro h
  rw [isNan_iff, round64_setWidth] at h
  have := roundMag_le_inf binary64 m e
  rw [binary64_infBits] at this
  omega

theorem isFinite_round64 (neg : Bool) (m : Nat) (e : Int) :
    isFinite (round64 neg m e) = true ↔ roundMag binary64 m e < binary64.infBits := by
  rw [isFinite_iff, round64_setWidth, binary64_infBits]

theorem orderKey_round64 (neg : Bool) (m : Nat) (e : Int) :
    orderKey (round64 neg m e) = if neg then -(roundMag binary64 m e : Int) else roundMag binary64 m e := by
  rw [orderKey_eq, round64_msb, round64_setWidth]

/-- Rounding a value whose significand fits the format at an exponent the format has gives its bits. -/
theorem roundMag_normal (f : FloatFormat) (hp : 1 ≤ f.prec) (frac ex : Nat) (hf : frac < 2 ^ (f.prec - 1))
    (hx : 1 ≤ ex) (hx2 : ex < 2 ^ f.ebits - 1) :
    roundMag f (2 ^ (f.prec - 1) + frac) (f.minExp + ex - 1) = ex * 2 ^ (f.prec - 1) + frac := by
  have hP : 0 < 2 ^ (f.prec - 1) := Nat.two_pow_pos _
  have hm : 2 ^ (f.prec - 1) + frac ≠ 0 := by omega
  have hl : (2 ^ (f.prec - 1) + frac).log2 = f.prec - 1 := by
    rw [Nat.log2_eq_iff hm, pow_succ]
    omega
  have hq : lastPlace f (2 ^ (f.prec - 1) + frac) (f.minExp + ex - 1) = f.minExp + ex - 1 := by
    unfold lastPlace
    rw [hl]
    omega
  unfold roundMag
  rw [if_neg hm, hq]
  simp only [le_refl, if_true, sub_self, Int.toNat_zero, pow_zero, mul_one]
  have h1 : (f.minExp + ex - 1 - f.minExp).toNat = ex - 1 := by omega
  rw [h1]
  have h2 : (ex - 1) * 2 ^ (f.prec - 1) + (2 ^ (f.prec - 1) + frac) = ex * 2 ^ (f.prec - 1) + frac := by
    obtain ⟨y, rfl⟩ : ∃ y, ex = y + 1 := ⟨ex - 1, by omega⟩
    simp only [Nat.add_sub_cancel]
    ring
  rw [h2]
  apply min_eq_left
  unfold FloatFormat.infBits
  have : (ex + 1) * 2 ^ (f.prec - 1) ≤ (2 ^ f.ebits - 1) * 2 ^ (f.prec - 1) := Nat.mul_le_mul_right _ (by omega)
  rw [add_mul] at this
  omega

theorem roundMag_subnormal (f : FloatFormat) (hp : 1 ≤ f.prec) (he : 2 ≤ f.ebits) (frac : Nat)
    (hf : frac < 2 ^ (f.prec - 1)) : roundMag f frac f.minExp = frac := by
  by_cases h0 : frac = 0
  · simp [h0]
  have hl : frac.log2 + 1 ≤ f.prec - 1 := by
    have := (Nat.log2_lt h0).2 hf
    omega
  have hq : lastPlace f frac f.minExp = f.minExp := by
    unfold lastPlace
    omega
  unfold roundMag
  rw [if_neg h0, hq]
  simp only [le_refl, if_true, sub_self, Int.toNat_zero, pow_zero, mul_one, zero_mul, zero_add]
  apply min_eq_left
  unfold FloatFormat.infBits
  have h4 : 4 ≤ 2 ^ f.ebits := by
    calc 4 = 2 ^ 2 := by norm_num
      _ ≤ 2 ^ f.ebits := Nat.pow_le_pow_right (by norm_num) he
  have : 1 * 2 ^ (f.prec - 1) ≤ (2 ^ f.ebits - 1) * 2 ^ (f.prec - 1) := Nat.mul_le_mul_right _ (by omega)
  omega

/-- What reading a finite word gives: its sign and a magnitude that rounds back to its bits. -/
theorem unpackBits_fin (f : FloatFormat) (hp : 1 ≤ f.prec) (he : 2 ≤ f.ebits) (bits : Nat) {s : Bool} {m : Nat} {e : Int}
    (h : unpackBits f bits = .fin s m e) :
    s = decide (bits / f.signBit % 2 = 1) ∧ roundMag f m e = bits % f.signBit := by
  have hP : 0 < 2 ^ (f.prec - 1) := Nat.two_pow_pos _
  have hE : 4 ≤ 2 ^ f.ebits := by
    calc 4 = 2 ^ 2 := by norm_num
      _ ≤ 2 ^ f.ebits := Nat.pow_le_pow_right (by norm_num) he
  have hmod : bits % f.signBit = bits / 2 ^ (f.prec - 1) % 2 ^ f.ebits * 2 ^ (f.prec - 1) + bits % 2 ^ (f.prec - 1) := by
    unfold FloatFormat.signBit
    rw [pow_add, Nat.mod_mul, Nat.add_comm, Nat.mul_comm]
  have hfrac : bits % 2 ^ (f.prec - 1) < 2 ^ (f.prec - 1) := Nat.mod_lt _ hP
  have hex : bits / 2 ^ (f.prec - 1) % 2 ^ f.ebits < 2 ^ f.ebits := Nat.mod_lt _ (by omega)
  unfold unpackBits at h
  simp only at h
  split at h
  · split at h <;> cases h
  · split at h
    · rename_i h1 h2
      cases h
      refine ⟨rfl, ?_⟩
      rw [hmod, h2, zero_mul, zero_add]
      exact roundMag_subnormal f hp he _ hfrac
    · rename_i h1 h2
      cases h
      refine ⟨rfl, ?_⟩
      rw [hmod]
      exact roundMag_normal f hp _ _ hfrac (by omega) (by omega)

theorem unpack_fin {w : Word} {s : Bool} {m : Nat} {e : Int} (h : unpack w = .fin s m e) :
    s = w.msb ∧ roundMag binary64 m e = (w.setWidth 63).toNat := by
  obtain ⟨h1, h2⟩ := unpackBits_fin binary64 (by decide) (by decide) w.toNat h
  have hs : binary64.signBit = 2 ^ 63 := by decide
  rw [hs] at h1 h2
  have h3 := w.isLt
  refine ⟨?_, ?_⟩
  · rw [h1, BitVec.msb_eq_decide, decide_eq_decide]
    omega
  · rw [h2, BitVec.toNat_setWidth]

/-- Rounding the value of a finite word gives the word back. -/
theorem round64_unpack {w : Word} {s : Bool} {m : Nat} {e : Int} (h : unpack w = .fin s m e) : round64 s m e = w := by
  obtain ⟨h1, h2⟩ := unpack_fin h
  apply BitVec.eq_of_toNat_eq
  rw [toNat_split, toNat_split w, round64_msb, round64_setWidth, h1, h2]

/-- Which words `unpack` reads as finite values. -/
theorem unpack_of_finite {w : Word} (h : isFinite w = true) : ∃ s m e, unpack w = .fin s m e := by
  rw [isFinite_iff] at h
  rw [BitVec.toNat_setWidth] at h
  have hx : w.toNat / 2 ^ 52 % 2 ^ 11 ≠ 2 ^ 11 - 1 := by omega
  unfold unpack unpackBits
  simp only
  split
  · rename_i h1
    exact absurd h1 hx
  · split
    · exact ⟨_, _, _, rfl⟩
    · exact ⟨_, _, _, rfl⟩

theorem isFinite_of_unpack {w : Word} {s : Bool} {m : Nat} {e : Int} (h : unpack w = .fin s m e) : isFinite w = true := by
  rw [isFinite_iff, BitVec.toNat_setWidth]
  have h3 := w.isLt
  unfold unpack unpackBits at h
  simp only at h
  split at h
  · split at h <;> cases h
  · rename_i h1
    have h2 : ¬ (w.toNat / 2 ^ 52 % 2 ^ 11 = 2 ^ 11 - 1) := h1
    omega

theorem msb_of_unpack_inf {w : Word} {s : Bool} (h : unpack w = .inf s) : s = w.msb ∧ (w.setWidth 63).toNat = 2047 * 2 ^ 52 := by
  have h3 := w.isLt
  unfold unpack unpackBits at h
  simp only at h
  split at h
  · rename_i h1
    have h2 : w.toNat / 2 ^ 52 % 2 ^ 11 = 2 ^ 11 - 1 := h1
    split at h
    · rename_i h4
      have h5 : w.toNat % 2 ^ 52 = 0 := h4
      cases h
      have hs : binary64.signBit = 2 ^ 63 := by decide
      rw [hs, BitVec.toNat_setWidth, BitVec.msb_eq_decide, decide_eq_decide]
      omega
    · cases h
  · split at h <;> cases h

theorem isNan_of_unpack {w : Word} (h : unpack w = .nan) : isNan w = true := by
  rw [isNan_iff, BitVec.toNat_setWidth]
  have h3 := w.isLt
  unfold unpack unpackBits at h
  simp only at h
  split at h
  · rename_i h1
    have h2 : w.toNat / 2 ^ 52 % 2 ^ 11 = 2 ^ 11 - 1 := h1
    split at h
    · cases h
    · rename_i h4
      have h5 : ¬ w.toNat % 2 ^ 52 = 0 := h4
      omega
  · split at h <;> cases h

/-! ### Special results -/

theorem isNan_nanWord (op : FloatOp) (a b : Word) : isNan (nanWord op a b) = true := by
  have h1 : (nanWord op a b).extractLsb' 52 11 = 0x7FF := by
    apply BitVec.eq_of_getLsbD_eq
    intro i hi
    have h12 : ∀ i : Fin 11, BitVec.getLsbD (0xFFF : BitVec 12) (i.val + 1) = BitVec.getLsbD (0x7FF : BitVec 11) i.val := by
      decide
    simp only [nanWord, BitVec.getLsbD_extractLsb', BitVec.getLsbD_append, hi, decide_true, Bool.true_and]
    rw [if_neg (by omega), if_pos (by omega)]
    have h3 : 52 + i - 51 = i + 1 := by omega
    rw [h3]
    exact h12 ⟨i, hi⟩
  have h2 : (nanWord op a b).extractLsb' 0 52 ≠ 0#52 := by
    intro h
    have : ((nanWord op a b).extractLsb' 0 52).getLsbD 51 = true := by
      simp only [nanWord, BitVec.getLsbD_extractLsb', BitVec.getLsbD_append]
      rw [if_neg (by omega), if_pos (by omega)]
      decide
    rw [h] at this
    exact absurd this (by decide)
  simp [isNan, h1, h2]

theorem isFinite_nanWord (op : FloatOp) (a b : Word) : isFinite (nanWord op a b) = false := by
  have h := isNan_nanWord op a b
  rw [isNan_iff] at h
  rw [Bool.eq_false_iff]
  intro h2
  rw [isFinite_iff] at h2
  omega

theorem isFinite_infWord (neg : Bool) : isFinite (infWord neg) = false := by cases neg <;> decide

theorem isNan_infWord (neg : Bool) : isNan (infWord neg) = false := by cases neg <;> decide

theorem isFinite_zeroWord (neg : Bool) : isFinite (zeroWord neg) = true := by cases neg <;> decide

theorem round64_zero (neg : Bool) (e : Int) : round64 neg 0 e = zeroWord neg := by
  simp [round64, roundBits, zeroWord]

/-! ### Operations on finite words -/

theorem fmul_finite {a b : Word} {s t : Bool} {m n : Nat} {d e : Int} (ha : unpack a = .fin s m d) (hb : unpack b = .fin t n e) :
    fmul a b = round64 (s ^^ t) (m * n) (d + e) := by
  simp [fmul, ha, hb]

theorem fadd_finite {a b : Word} {s t : Bool} {m n : Nat} {d e : Int} (ha : unpack a = .fin s m d) (hb : unpack b = .fin t n e) :
    fadd a b = addFinite s m d t n e := by
  simp [fadd, ha, hb]

/-- Multiplication by 1.0 changes no finite word. -/
theorem one_fmul {w : Word} (h : isFinite w = true) : fmul cOne w = w := by
  obtain ⟨s, m, e, hw⟩ := unpack_of_finite h
  have h1 : unpack cOne = .fin false (2 ^ 52) (-52) := by decide +kernel
  rw [fmul_finite h1 hw, Bool.false_xor, Nat.mul_comm]
  have h2 := roundMag_scale binary64 m 52 e
  have h3 : (-52 + e : Int) = e - (52 : Nat) := by omega
  have h4 : round64 s (m * 2 ^ 52) (-52 + e) = round64 s m e := by
    unfold round64 roundBits
    rw [h3, h2]
  rw [h4, round64_unpack hw]

/-- A zero times a finite word is a zero. -/
theorem zero_fmul {w : Word} (h : isFinite w = true) : fmul cZero w = zeroWord w.msb := by
  obtain ⟨s, m, e, hw⟩ := unpack_of_finite h
  have h1 : unpack cZero = .fin false 0 (-1074) := by decide +kernel
  rw [fmul_finite h1 hw, Bool.false_xor, Nat.zero_mul, round64_zero, (unpack_fin hw).1]

theorem unpack_zeroWord (neg : Bool) : unpack (zeroWord neg) = .fin neg 0 (-1074) := by cases neg <;> decide +kernel

/-- A finite word that is no zero has a significand that is no zero. -/
theorem mant_eq_zero_iff {w : Word} {s : Bool} {m : Nat} {e : Int} (h : unpack w = .fin s m e) :
    m = 0 ↔ orderKey w = 0 := by
  obtain ⟨h1, h2⟩ := unpack_fin h
  rw [orderKey_eq, ← h2]
  constructor
  · intro h; simp [h]
  · intro h3
    by_contra hm
    have h4 : roundMag binary64 m e = 0 := by
      split at h3 <;> omega
    rw [h2] at h4
    have h5 := w.isLt
    rw [BitVec.toNat_setWidth] at h4
    unfold unpack unpackBits at h
    simp only at h
    have ex0 : w.toNat / 2 ^ (binary64.prec - 1) % 2 ^ binary64.ebits = 0 := by
      show w.toNat / 2 ^ 52 % 2 ^ 11 = 0
      omega
    have fr0 : w.toNat % 2 ^ (binary64.prec - 1) = 0 := by
      show w.toNat % 2 ^ 52 = 0
      omega
    split at h
    · rename_i h6
      rw [ex0] at h6
      exact absurd h6 (by decide)
    · cases h
      exact hm fr0

/-- Adding a zero to a finite word leaves its value. -/
theorem feq_fadd_zero {w : Word} (h : isFinite w = true) (neg : Bool) : feq (fadd w (zeroWord neg)) w = true := by
  obtain ⟨s, m, e, hw⟩ := unpack_of_finite h
  rw [fadd_finite hw (unpack_zeroWord neg)]
  rw [feq_iff]
  unfold addFinite
  simp only
  by_cases hm : m = 0
  · have hz := (mant_eq_zero_iff hw).1 hm
    have : alignTo (min e (-1074)) s m e + alignTo (min e (-1074)) neg 0 (-1074) = 0 := by
      simp [alignTo, hm]
    rw [if_pos this, hz]
    refine ⟨?_, isNan_of_finite h, ?_⟩
    · exact isNan_of_finite (isFinite_zeroWord _)
    · cases (s && neg) <;> decide
  · have h0 : alignTo (min e (-1074)) neg 0 (-1074) = 0 := by simp [alignTo]
    rw [h0, add_zero]
    have hk : 0 < m * 2 ^ (e - min e (-1074)).toNat := by positivity
    have hne : alignTo (min e (-1074)) s m e ≠ 0 := by
      unfold alignTo
      simp only
      split <;> omega
    rw [if_neg hne]
    have hsign : decide (alignTo (min e (-1074)) s m e < 0) = s := by
      unfold alignTo
      cases s <;> simp <;> omega
    have habs : (alignTo (min e (-1074)) s m e).natAbs = m * 2 ^ (e - min e (-1074)).toNat := by
      unfold alignTo
      cases s
      · exact Int.natAbs_natCast _
      · exact (Int.natAbs_neg _).trans (Int.natAbs_natCast _)
    rw [hsign, habs]
    have h2 := roundMag_scale binary64 m (e - min e (-1074)).toNat e
    have h3 : e - ((e - min e (-1074)).toNat : Int) = min e (-1074) := by omega
    rw [h3] at h2
    have h4 : round64 s (m * 2 ^ (e - min e (-1074)).toNat) (min e (-1074)) = w := by
      rw [← round64_unpack hw]
      unfold round64 roundBits
      rw [h2]
    rw [h4]
    exact ⟨isNan_of_finite h, isNan_of_finite h, rfl⟩

end Sys2Proof.Machine
end

