-- ==== Sys2Proof/Laws/PerInstr.lean ====
section
/-! SUPPORT. Statements about every command, one lemma per constructor of `Instr`. -/

namespace Sys2Proof.Laws.EncodingShape

/-- The words of a command have the shape its format gives (30 R81, R82): its opcode in bits 31:24, every reserved bit of the
immediate 0, and as many operand words as the format takes (FRAME as many as it carries). -/
def Statement (i : Instr) : Prop :=
  opField (encode i).1 = i.op.code ∧ immField (encode i).1 = i.imm ∧ i.imm &&& ~~~i.op.format.usedImm = 0
    ∧ (encode i).2.length = i.op.format.operandWords i.operands.length

end Sys2Proof.Laws.EncodingShape

namespace Sys2Proof.Laws

/-- The opcode byte of an encoded command is the byte of its opcode. -/
theorem opField_encode (i : Instr) : opField (encode i).1 = i.op.code := by
  apply BitVec.eq_of_getLsbD_eq
  intro k hk
  simp only [opField, encode, BitVec.getLsbD_extractLsb', BitVec.getLsbD_setWidth, BitVec.getLsbD_append, hk, decide_true,
    Bool.true_and]
  have h32 : decide (24 + k < 32) = true := decide_eq_true (by omega)
  rw [h32, Bool.true_and, if_neg (by omega), show 24 + k - 24 = k by omega]

/-- The immediate of an encoded command is its immediate. -/
theorem immField_encode (i : Instr) : immField (encode i).1 = i.imm := by
  apply BitVec.eq_of_getLsbD_eq
  intro k hk
  simp only [immField, encode, BitVec.getLsbD_extractLsb', BitVec.getLsbD_setWidth, BitVec.getLsbD_append, hk, decide_true,
    Bool.true_and, Nat.zero_add]
  have h32 : decide (k < 32) = true := decide_eq_true (by omega)
  rw [h32, Bool.true_and, if_pos trivial]

/-- The statement for a command whose immediate and operand count are as its format says. -/
theorem encodingShape_of (i : Instr) (h : i.imm &&& ~~~i.op.format.usedImm = 0)
    (hn : i.operands.length = i.op.format.operandWords i.operands.length) : EncodingShape.Statement i :=
  ⟨opField_encode i, immField_encode i, h, hn⟩

end Sys2Proof.Laws

namespace Sys2Proof.Laws.EncodingShape

theorem reset : Statement .reset :=
  encodingShape_of _ (by simp [Instr.imm]) rfl

theorem prepare (nch fmt : BitVec 4) (rate : Word) : Statement (.prepare nch fmt rate) :=
  by
  refine encodingShape_of _ ?_ rfl
  have h : ∀ x : BitVec 8, (((0 : BitVec 16) ++ x).setWidth 24 : BitVec 24) &&& ~~~(0x0000FF : BitVec 24) = 0 := by decide
  have e : (Instr.prepare nch fmt rate).imm = ((0 : BitVec 16) ++ (fmt ++ nch)).setWidth 24 := by
    simp only [Instr.imm]
    congr 1
    exact BitVec.append_assoc
  rw [e]
  exact h (fmt ++ nch)

theorem start : Statement .start :=
  encodingShape_of _ (by simp [Instr.imm]) rfl

theorem stop : Statement .stop :=
  encodingShape_of _ (by simp [Instr.imm]) rfl

theorem blkbegin : Statement .blkbegin :=
  encodingShape_of _ (by simp [Instr.imm]) rfl

theorem frame (samples : List Word) : Statement (.frame samples) :=
  encodingShape_of _ (by simp [Instr.imm]) rfl

theorem blkend : Statement .blkend :=
  encodingShape_of _ (by simp [Instr.imm]) rfl

theorem setig (v : Word) : Statement (.setig v) :=
  encodingShape_of _ (by simp [Instr.imm]) rfl

theorem setog (v : Word) : Statement (.setog v) :=
  encodingShape_of _ (by simp [Instr.imm]) rfl

theorem setmix (v : Word) : Statement (.setmix v) :=
  encodingShape_of _ (by simp [Instr.imm]) rfl

theorem setcurve (v : Word) : Statement (.setcurve v) :=
  encodingShape_of _ (by simp [Instr.imm]) rfl

theorem setclip (b : Bool) : Statement (.setclip b) :=
  by cases b <;> exact encodingShape_of _ (by decide) rfl

theorem setsplit (b : Bool) : Statement (.setsplit b) :=
  by cases b <;> exact encodingShape_of _ (by decide) rfl

theorem setos (code : BitVec 2) : Statement (.setos code) :=
  by
  refine encodingShape_of _ ?_ rfl
  have h : ∀ x : BitVec 2, (x.setWidth 24 : BitVec 24) &&& ~~~(0x000003 : BitVec 24) = 0 := by decide
  exact h code

theorem setphase (p : Phase) : Statement (.setphase p) :=
  by cases p <;> exact encodingShape_of _ (by decide) rfl

theorem setxlo (v : Word) : Statement (.setxlo v) :=
  encodingShape_of _ (by simp [Instr.imm]) rfl

theorem setxhi (v : Word) : Statement (.setxhi v) :=
  encodingShape_of _ (by simp [Instr.imm]) rfl

theorem setenvm (m : EnvMode) : Statement (.setenvm m) :=
  by cases m <;> exact encodingShape_of _ (by decide) rfl

theorem setdecay (v : Word) : Statement (.setdecay v) :=
  encodingShape_of _ (by simp [Instr.imm]) rfl

theorem getlat : Statement .getlat :=
  encodingShape_of _ (by simp [Instr.imm]) rfl

theorem getstat : Statement .getstat :=
  encodingShape_of _ (by simp [Instr.imm]) rfl

theorem getmeter : Statement .getmeter :=
  encodingShape_of _ (by simp [Instr.imm]) rfl

end Sys2Proof.Laws.EncodingShape
end

