-- ==== Sys2Proof/Laws/Rounding.lean ====
section
/-! SUPPORT. Rounding once to nearest even (00 R8, 49 R284): what `roundMag` gives is the magnitude nearest to the exact one, by the
two midpoints around it, and so a monotone function of the exact magnitude. -/

namespace Sys2Proof.Machine

/-- The value of the magnitude bits `k`; the bits of the infinity read as the next power of two. -/
noncomputable def magVal (f : FloatFormat) (k : Nat) : ℝ :=
  if k < 2 ^ (f.prec - 1) then (k : ℝ) * 2 ^ f.minExp
  else (2 ^ (f.prec - 1) + (k % 2 ^ (f.prec - 1) : Nat) : ℝ) * 2 ^ (f.minExp + (k / 2 ^ (f.prec - 1) : Nat) - 1)

/-- Every magnitude is a significand below 2^prec in units of its last place, and the significand is normal or the place the
least one. -/
theorem exists_significand (f : FloatFormat) (k : Nat) :
    ∃ t s, k = t * 2 ^ (f.prec - 1) + s ∧ s < 2 * 2 ^ (f.prec - 1) ∧ (2 ^ (f.prec - 1) ≤ s ∨ t = 0) := by
  have hP : 0 < 2 ^ (f.prec - 1) := Nat.two_pow_pos _
  generalize 2 ^ (f.prec - 1) = P at hP
  have h := Nat.div_add_mod k P
  have hm := Nat.mod_lt k hP
  rcases Nat.eq_zero_or_pos (k / P) with h0 | h0
  · rw [h0, Nat.mul_zero, Nat.zero_add] at h
    exact ⟨0, k, by omega, by omega, .inr rfl⟩
  · refine ⟨k / P - 1, P + k % P, ?_, by omega, .inl (by omega)⟩
    obtain ⟨q, hq⟩ : ∃ q, k / P = q + 1 := ⟨k / P - 1, by omega⟩
    rw [hq, Nat.mul_add, Nat.mul_one] at h
    rw [hq, Nat.add_sub_cancel, Nat.mul_comm q P]
    omega

/-- The value of a significand `s` in units of the place `t` steps above the least one. -/
theorem magVal_significand (f : FloatFormat) (t s : Nat) (hs : s ≤ 2 * 2 ^ (f.prec - 1)) (ht : 2 ^ (f.prec - 1) ≤ s ∨ t = 0) :
    magVal f (t * 2 ^ (f.prec - 1) + s) = s * 2 ^ (f.minExp + t) := by
  have hP : 0 < 2 ^ (f.prec - 1) := Nat.two_pow_pos _
  have hc : ((2 ^ (f.prec - 1) : Nat) : ℝ) = 2 ^ (f.prec - 1) := by push_cast; rfl
  unfold magVal
  rw [← hc]
  generalize 2 ^ (f.prec - 1) = P at *
  rcases Nat.lt_or_ge s P with h | h
  · have ht0 : t = 0 := by rcases ht with h' | h'; · omega
                           · exact h'
    subst ht0
    rw [Nat.zero_mul, Nat.zero_add, if_pos h]
    simp
  · rw [if_neg (by have := Nat.le_add_left s (t * P); omega)]
    rcases Nat.lt_or_ge s (2 * P) with h2 | h2
    · obtain ⟨r, rfl⟩ : ∃ r, s = P + r := ⟨s - P, by omega⟩
      have hr : r < P := by omega
      have e : t * P + (P + r) = r + P * (t + 1) := by ring
      rw [e, Nat.add_mul_mod_self_left, Nat.add_mul_div_left _ _ hP, Nat.mod_eq_of_lt hr, Nat.div_eq_of_lt hr]
      push_cast
      congr 2
      ring
    · have : s = 2 * P := by omega
      subst this
      have e : t * P + 2 * P = 0 + P * (t + 2) := by ring
      rw [e, Nat.add_mul_mod_self_left, Nat.add_mul_div_left _ _ hP, Nat.zero_mod, Nat.zero_div]
      push_cast
      rw [show (f.minExp + (0 + ((t : ℤ) + 2)) - 1) = (f.minExp + t) + 1 by ring, zpow_add_one₀ (by norm_num)]
      ring

/-- The step from a magnitude to the next is a unit of its place. -/
theorem magVal_succ (f : FloatFormat) (t s : Nat) (hs : s < 2 * 2 ^ (f.prec - 1)) (ht : 2 ^ (f.prec - 1) ≤ s ∨ t = 0) :
    magVal f (t * 2 ^ (f.prec - 1) + s + 1) = magVal f (t * 2 ^ (f.prec - 1) + s) + 2 ^ (f.minExp + t) := by
  rw [Nat.add_assoc, magVal_significand f t (s + 1) (by omega) (by omega), magVal_significand f t s (by omega) ht]
  push_cast
  ring

theorem magVal_lt_succ (f : FloatFormat) (k : Nat) : magVal f k < magVal f (k + 1) := by
  obtain ⟨t, s, rfl, hs, ht⟩ := exists_significand f k
  rw [magVal_succ f t s hs ht]
  have : (0 : ℝ) < 2 ^ (f.minExp + t) := by positivity
  linarith

theorem magVal_strictMono (f : FloatFormat) : StrictMono (magVal f) := strictMono_nat_of_lt_succ (magVal_lt_succ f)

@[simp] theorem magVal_zero (f : FloatFormat) : magVal f 0 = 0 := by
  unfold magVal
  rw [if_pos (Nat.two_pow_pos _)]
  simp

theorem magVal_nonneg (f : FloatFormat) (k : Nat) : 0 ≤ magVal f k := by
  rw [← magVal_zero f]
  exact (magVal_strictMono f).monotone (Nat.zero_le k)

/-- `k` is the magnitude that `x` rounds to: `x` lies between the midpoints to its neighbours, on one only where `k` is even. -/
structure RoundsToMag (f : FloatFormat) (x : ℝ) (k : Nat) : Prop where
  above : x ≤ (magVal f k + magVal f (k + 1)) / 2
  above_even : x = (magVal f k + magVal f (k + 1)) / 2 → k % 2 = 0
  below : ∀ j, k = j + 1 → (magVal f j + magVal f k) / 2 ≤ x
  below_even : ∀ j, k = j + 1 → x = (magVal f j + magVal f k) / 2 → k % 2 = 0

/-- Rounding is monotone. -/
theorem RoundsToMag.mono {f : FloatFormat} {x y : ℝ} {k l : Nat} (hx : RoundsToMag f x k) (hy : RoundsToMag f y l) (h : x ≤ y) :
    k ≤ l := by
  by_contra hlt
  obtain ⟨j, rfl⟩ : ∃ j, k = j + 1 := ⟨k - 1, by omega⟩
  have h1 := hx.below j rfl
  have h2 := hy.above
  have m1 := (magVal_strictMono f).monotone (show l ≤ j by omega)
  have m2 := (magVal_strictMono f).monotone (show l + 1 ≤ j + 1 by omega)
  have hj : j = l := by
    by_contra hne
    have := magVal_strictMono f (show l < j by omega)
    linarith
  subst hj
  have e1 := hx.below_even j rfl (by linarith)
  have e2 := hy.above_even (by linarith)
  omega

theorem RoundsToMag.unique {f : FloatFormat} {x : ℝ} {k l : Nat} (hk : RoundsToMag f x k) (hl : RoundsToMag f x l) : k = l :=
  le_antisymm (hk.mono hl le_rfl) (hl.mono hk le_rfl)

/-- No magnitude is nearer, and another as near only where `k` is even. -/
theorem RoundsToMag.nearest {f : FloatFormat} {x : ℝ} {k : Nat} (h : RoundsToMag f x k) (j : Nat) :
    |magVal f k - x| ≤ |magVal f j - x| ∧ (|magVal f k - x| = |magVal f j - x| → j = k ∨ k % 2 = 0) := by
  have hk := h.above
  rcases lt_trichotomy j k with hj | hj | hj
  · obtain ⟨i, rfl⟩ : ∃ i, k = i + 1 := ⟨k - 1, by omega⟩
    have h1 := h.below i rfl
    have h2 := h.below_even i rfl
    have m1 := (magVal_strictMono f).monotone (show j ≤ i by omega)
    have m2 := magVal_lt_succ f i
    have a : |magVal f j - x| = x - magVal f j := by rw [abs_sub_comm]; exact abs_of_nonneg (by linarith)
    rw [a]
    refine ⟨abs_le.2 ⟨by linarith, by linarith⟩, fun e => .inr (h2 ?_)⟩
    rcases abs_cases (magVal f (i + 1) - x) with ⟨b, _⟩ | ⟨b, _⟩ <;> linarith
  · subst hj
    exact ⟨le_rfl, fun _ => .inl rfl⟩
  · have m1 := (magVal_strictMono f).monotone (show k + 1 ≤ j by omega)
    have m2 := magVal_lt_succ f k
    have a : |magVal f j - x| = magVal f j - x := abs_of_nonneg (by linarith)
    rw [a]
    refine ⟨abs_le.2 ⟨by linarith, by linarith⟩, fun e => .inr (h.above_even ?_)⟩
    rcases abs_cases (magVal f k - x) with ⟨b, _⟩ | ⟨b, _⟩ <;> linarith

/-- A significand that is `x` in units of its place, rounded to an integer nearest even, is what `x` rounds to. -/
theorem roundsToMag_of_significand {f : FloatFormat} (hp : 2 ≤ f.prec) {x : ℝ} {t s : Nat} (hs : s ≤ 2 * 2 ^ (f.prec - 1))
    (ht : 2 ^ (f.prec - 1) ≤ s ∨ t = 0) (hlow : t = 0 ∨ (2 ^ (f.prec - 1) : ℝ) * 2 ^ (f.minExp + t) ≤ x)
    (hup : x ≤ (s + 1 / 2) * 2 ^ (f.minExp + t)) (hup' : x = (s + 1 / 2) * 2 ^ (f.minExp + t) → s % 2 = 0)
    (hdn : (s - 1 / 2) * 2 ^ (f.minExp + t) ≤ x) (hdn' : x = (s - 1 / 2) * 2 ^ (f.minExp + t) → s % 2 = 0) :
    RoundsToMag f x (t * 2 ^ (f.prec - 1) + s) := by
  have hP : 0 < 2 ^ (f.prec - 1) := Nat.two_pow_pos _
  have heven : (2 ^ (f.prec - 1)) % 2 = 0 := by
    obtain ⟨r, hr⟩ : ∃ r, f.prec - 1 = r + 1 := ⟨f.prec - 2, by omega⟩
    rw [hr, pow_succ]; omega
  have hpar : (t * 2 ^ (f.prec - 1) + s) % 2 = s % 2 := by
    rw [Nat.add_mod, Nat.mul_mod, heven]; simp
  have hU : (0 : ℝ) < 2 ^ (f.minExp + t) := by positivity
  have hv := magVal_significand f t s hs ht
  have hc : ((2 ^ (f.prec - 1) : Nat) : ℝ) = 2 ^ (f.prec - 1) := by push_cast; rfl
  have hgap : magVal f (t * 2 ^ (f.prec - 1) + s) + 2 ^ (f.minExp + t) ≤ magVal f (t * 2 ^ (f.prec - 1) + s + 1)
      ∧ (magVal f (t * 2 ^ (f.prec - 1) + s + 1) = magVal f (t * 2 ^ (f.prec - 1) + s) + 2 ^ (f.minExp + t)
        ∨ s % 2 = 0) := by
    rcases Nat.lt_or_ge s (2 * 2 ^ (f.prec - 1)) with h | h
    · have := magVal_succ f t s h ht
      exact ⟨this.symm.le, .inl this⟩
    · have e : s = 2 * 2 ^ (f.prec - 1) := by omega
      have e2 : t * 2 ^ (f.prec - 1) + s = (t + 1) * 2 ^ (f.prec - 1) + 2 ^ (f.prec - 1) := by rw [e]; ring
      rw [e2, magVal_succ f (t + 1) (2 ^ (f.prec - 1)) (by omega) (.inl le_rfl)]
      refine ⟨?_, .inr (by omega)⟩
      have : (2 : ℝ) ^ (f.minExp + (t + 1 : Nat)) = 2 ^ (f.minExp + t) * 2 := by
        push_cast; rw [← add_assoc, zpow_add_one₀ (by norm_num)]
      linarith
  refine ⟨?_, fun h => ?_, fun j hj => ?_, fun j hj h => ?_⟩
  · rw [hv] at hgap ⊢; linarith [hgap.1]
  · rw [hpar]
    rcases hgap.2 with e | e
    · rw [e, hv] at h
      exact hup' (by rw [h]; ring)
    · exact e
  all_goals
    have key : (s - 1 / 2 : ℝ) * 2 ^ (f.minExp + t) = (magVal f j + magVal f (t * 2 ^ (f.prec - 1) + s)) / 2
        ∨ (magVal f j + magVal f (t * 2 ^ (f.prec - 1) + s)) / 2 < x := by
      by_cases hn : 2 ^ (f.prec - 1) < s ∨ t = 0
      · obtain ⟨r, rfl⟩ : ∃ r, s = r + 1 := by
          rcases hn with h | h
          · exact ⟨s - 1, by omega⟩
          · subst h; exact ⟨s - 1, by omega⟩
        have hjr : j = t * 2 ^ (f.prec - 1) + r := by omega
        left
        rw [hjr, hv, magVal_significand f t r (by omega) (by omega)]
        push_cast
        ring
      · right
        have hs' : s = 2 ^ (f.prec - 1) := by omega
        have hlt := magVal_lt_succ f j
        rw [← hj, hv] at hlt
        rw [hv]
        rcases hlow with h | h
        · omega
        · rw [hs', hc] at hlt ⊢
          linarith
  · rcases key with e | e
    · rw [← e]; exact hdn
    · exact e.le
  · rw [hpar]
    rcases key with e | e
    · exact hdn' (by rw [h, e])
    · exact absurd h e.ne'

/-- What `roundShift` gives: `m / 2^k` to within a half, a half away only where it is even. -/
theorem roundShift_spec (m k : Nat) :
    2 * m ≤ (2 * roundShift m k + 1) * 2 ^ k ∧ (2 * m = (2 * roundShift m k + 1) * 2 ^ k → roundShift m k % 2 = 0)
      ∧ 2 * roundShift m k * 2 ^ k ≤ 2 * m + 2 ^ k
      ∧ (2 * roundShift m k * 2 ^ k = 2 * m + 2 ^ k → roundShift m k % 2 = 0) := by
  have hk : 0 < 2 ^ k := Nat.two_pow_pos k
  have h := Nat.div_add_mod m (2 ^ k)
  have hm := Nat.mod_lt m hk
  unfold roundShift
  simp only
  generalize m / 2 ^ k = t at *
  generalize m % 2 ^ k = r at *
  generalize 2 ^ k = K at *
  subst h
  have a1 : (2 * t + 1) * K = 2 * (K * t) + K := by ring
  have a2 : (2 * (t + 1) + 1) * K = 2 * (K * t) + 3 * K := by ring
  have a3 : 2 * t * K = 2 * (K * t) := by ring
  have a4 : 2 * (t + 1) * K = 2 * (K * t) + 2 * K := by ring
  split
  · rw [a2, a4]; refine ⟨by omega, fun _ => ?_, by omega, fun _ => ?_⟩ <;> omega
  · rw [a1, a3]; refine ⟨by omega, fun _ => ?_, by omega, fun _ => ?_⟩ <;> omega

/-- The significand of `m · 2^e` before rounding is below 2^prec, and normal unless the place is the least one. -/
theorem lastPlace_bounds (f : FloatFormat) (hp : 1 ≤ f.prec) (m : Nat) (e : Int) (hm : m ≠ 0) :
    (m : ℝ) * 2 ^ e < 2 * 2 ^ (f.prec - 1) * 2 ^ lastPlace f m e
      ∧ (lastPlace f m e = f.minExp ∨ (2 ^ (f.prec - 1) : ℝ) * 2 ^ lastPlace f m e ≤ m * 2 ^ e) := by
  obtain ⟨h1, h2⟩ := (Nat.log2_eq_iff hm).1 rfl
  have h1' : (2 : ℝ) ^ (m.log2 : ℤ) ≤ m := by exact_mod_cast h1
  have h2' : (m : ℝ) < 2 ^ ((m.log2 : ℤ) + 1) := by exact_mod_cast h2
  have hE : (0 : ℝ) < 2 ^ e := by positivity
  have hmul : ∀ q : ℤ, (2 ^ (f.prec - 1) : ℝ) * 2 ^ q = 2 ^ ((f.prec : ℤ) - 1 + q) := by
    intro q
    rw [← zpow_natCast, ← zpow_add₀ (by norm_num)]
    congr 1
    omega
  refine ⟨?_, ?_⟩
  · rw [mul_assoc, hmul, ← zpow_one_add₀ (by norm_num)]
    calc (m : ℝ) * 2 ^ e < 2 ^ ((m.log2 : ℤ) + 1) * 2 ^ e := by gcongr
      _ = 2 ^ ((m.log2 : ℤ) + 1 + e) := by rw [← zpow_add₀ (by norm_num)]
      _ ≤ 2 ^ (1 + ((f.prec : ℤ) - 1 + lastPlace f m e)) := by
        apply zpow_le_zpow_right₀ (by norm_num)
        unfold lastPlace
        omega
  · by_cases h : lastPlace f m e = f.minExp
    · exact .inl h
    · right
      rw [hmul]
      calc (2 : ℝ) ^ ((f.prec : ℤ) - 1 + lastPlace f m e) ≤ 2 ^ ((m.log2 : ℤ) + e) := by
            apply zpow_le_zpow_right₀ (by norm_num)
            unfold lastPlace at *
            omega
        _ = 2 ^ (m.log2 : ℤ) * 2 ^ e := by rw [← zpow_add₀ (by norm_num)]
        _ ≤ m * 2 ^ e := by gcongr

/-- `roundMag` before the overflow is clamped. -/
def roundMagFree (f : FloatFormat) (m : Nat) (e : Int) : Nat :=
  if m = 0 then 0
  else
    let q := lastPlace f m e
    (q - f.minExp).toNat * 2 ^ (f.prec - 1) + if q ≤ e then m * 2 ^ (e - q).toNat else roundShift m (q - e).toNat

theorem roundMag_eq_min (f : FloatFormat) (m : Nat) (e : Int) : roundMag f m e = min (roundMagFree f m e) f.infBits := by
  unfold roundMag roundMagFree
  split
  · simp
  · rfl

/-- The magnitude `m · 2^e` rounds to what `roundMagFree` gives. -/
theorem roundMagFree_spec (f : FloatFormat) (hp : 2 ≤ f.prec) (m : Nat) (e : Int) :
    RoundsToMag f (m * 2 ^ e) (roundMagFree f m e) := by
  by_cases hm : m = 0
  · subst hm
    have h := magVal_lt_succ f 0
    rw [magVal_zero] at h
    refine ⟨?_, fun _ => ?_, fun j hj => ?_, fun j hj => ?_⟩ <;> simp [roundMagFree] at *
    linarith
  obtain ⟨hb1, hb2⟩ := lastPlace_bounds f (by omega) m e hm
  have hq0 : f.minExp ≤ lastPlace f m e := le_max_right _ _
  unfold roundMagFree
  rw [if_neg hm]
  simp only
  generalize lastPlace f m e = q at *
  obtain ⟨t, rfl⟩ : ∃ t : Nat, q = f.minExp + t := ⟨(q - f.minExp).toNat, by omega⟩
  have ht : (f.minExp + (t : ℤ) - f.minExp).toNat = t := by omega
  rw [ht]
  have hU : (0 : ℝ) < 2 ^ (f.minExp + (t : ℤ)) := by positivity
  have hP1 : ((2 ^ (f.prec - 1) : Nat) : ℝ) = 2 ^ (f.prec - 1) := by push_cast; rfl
  have hlow : t = 0 ∨ (2 ^ (f.prec - 1) : ℝ) * 2 ^ (f.minExp + (t : ℤ)) ≤ m * 2 ^ e := by
    rcases hb2 with h | h
    · exact .inl (by omega)
    · exact .inr h
  -- the exact significand `y`, and its rounding `s`
  suffices H : ∀ (s : Nat) (y : ℝ), (m : ℝ) * 2 ^ e = y * 2 ^ (f.minExp + (t : ℤ)) → y ≤ s + 1 / 2 → (y = s + 1 / 2 → s % 2 = 0) →
      (s : ℝ) - 1 / 2 ≤ y → (y = s - 1 / 2 → s % 2 = 0) → RoundsToMag f (m * 2 ^ e) (t * 2 ^ (f.prec - 1) + s) by
    by_cases hqe : f.minExp + (t : ℤ) ≤ e
    · rw [if_pos hqe]
      apply H _ (m * 2 ^ (e - (f.minExp + (t : ℤ))).toNat : Nat)
      · push_cast
        rw [mul_assoc, ← zpow_natCast, ← zpow_add₀ (by norm_num)]
        congr 2
        omega
      · push_cast; linarith
      · intro h; push_cast at h; linarith
      · push_cast; linarith
      · intro h; push_cast at h; linarith
    · rw [if_neg hqe]
      obtain ⟨k, hk⟩ : ∃ k : Nat, f.minExp + (t : ℤ) - e = k := ⟨(f.minExp + (t : ℤ) - e).toNat, by omega⟩
      rw [hk, Int.toNat_natCast]
      obtain ⟨s1, s2, s3, s4⟩ := roundShift_spec m k
      have hK : (0 : ℝ) < 2 ^ k := by positivity
      have c1 : (2 * m : ℝ) ≤ (2 * roundShift m k + 1) * 2 ^ k := by exact_mod_cast s1
      have c3 : (2 * roundShift m k * 2 ^ k : ℝ) ≤ 2 * m + 2 ^ k := by exact_mod_cast s3
      apply H _ ((m : ℝ) / 2 ^ k)
      · rw [div_mul_eq_mul_div, eq_div_iff hK.ne', mul_assoc, ← zpow_natCast, ← zpow_add₀ (by norm_num)]
        congr 2
        omega
      · rw [div_le_iff₀ hK]; linarith
      · intro h
        rw [div_eq_iff hK.ne'] at h
        apply s2
        have : (2 * m : ℝ) = (2 * roundShift m k + 1) * 2 ^ k := by rw [h]; ring
        exact_mod_cast this
      · rw [le_div_iff₀ hK]; linarith
      · intro h
        rw [div_eq_iff hK.ne'] at h
        apply s4
        have : (2 * roundShift m k * 2 ^ k : ℝ) = 2 * m + 2 ^ k := by rw [h]; ring
        exact_mod_cast this
  intro s y hy h1 h1' h2 h2'
  rw [hy] at hb1 hlow ⊢
  have hy2 : y < 2 * 2 ^ (f.prec - 1) := lt_of_mul_lt_mul_right hb1 hU.le
  have hylow : t = 0 ∨ (2 ^ (f.prec - 1) : ℝ) ≤ y := by
    rcases hlow with h | h
    · exact .inl h
    · exact .inr (le_of_mul_le_mul_right h hU)
  have hs : s ≤ 2 * 2 ^ (f.prec - 1) := by
    have : (s : ℝ) < ((2 * 2 ^ (f.prec - 1) + 1 : Nat) : ℝ) := by push_cast; linarith
    have := Nat.cast_lt.1 this
    omega
  have hs' : 2 ^ (f.prec - 1) ≤ s ∨ t = 0 := by
    rcases hylow with h | h
    · exact .inr h
    · left
      have : ((2 ^ (f.prec - 1) : Nat) : ℝ) < ((s + 1 : Nat) : ℝ) := by push_cast; linarith
      have := Nat.cast_lt.1 this
      omega
  apply roundsToMag_of_significand hp hs hs'
  · exact hlow
  · exact mul_le_mul_of_nonneg_right h1 hU.le
  · intro h; exact h1' (mul_right_cancel₀ hU.ne' h)
  · exact mul_le_mul_of_nonneg_right h2 hU.le
  · intro h; exact h2' (mul_right_cancel₀ hU.ne' h)

/-- `roundMag` is monotone in the magnitude it rounds. -/
theorem roundMag_mono (f : FloatFormat) (hp : 2 ≤ f.prec) {m n : Nat} {d e : Int} (h : (m : ℝ) * 2 ^ d ≤ n * 2 ^ e) :
    roundMag f m d ≤ roundMag f n e := by
  rw [roundMag_eq_min, roundMag_eq_min]
  exact min_le_min_right _ ((roundMagFree_spec f hp m d).mono (roundMagFree_spec f hp n e) h)

end Sys2Proof.Machine
end

