-- ==== Sys2Proof/Laws/Values.lean ====
section
/-! SUPPORT. The numbers that words stand for: a finite word's value is its sign times the value of its magnitude bits, what
`round64` gives is its exact argument rounded once, and what each operation gives on an infinity or a NaN. -/

namespace Sys2Proof.Machine

/-- The sign that a sign bit gives. -/
def sgn (neg : Bool) : ℝ := if neg then -1 else 1

/-- The magnitude bits of a binary64 word. -/
def mag (w : Word) : Nat := (w.setWidth 63).toNat

/-- The magnitude bits of a binary32 word. -/
def mag32 (v : BitVec 32) : Nat := (v.setWidth 31).toNat

theorem sgn_eq_neg {b b' : Bool} (h : b ≠ b') : sgn b = -sgn b' := by cases b <;> cases b' <;> simp_all [sgn]

theorem abs_sgn (b : Bool) : |sgn b| = 1 := by unfold sgn; cases b <;> simp

/-! ### Values from bits -/

/-- The value of unpacked bits is that of their magnitude. -/
theorem unpackBits_val (f : FloatFormat) (bits : Nat) {s : Bool} {m : Nat} {e : Int}
    (h : unpackBits f bits = .fin s m e) : (m : ℝ) * 2 ^ e = magVal f (bits % f.signBit) := by
  have hP : 0 < 2 ^ (f.prec - 1) := Nat.two_pow_pos _
  have hmod : bits % f.signBit = bits / 2 ^ (f.prec - 1) % 2 ^ f.ebits * 2 ^ (f.prec - 1) + bits % 2 ^ (f.prec - 1) := by
    unfold FloatFormat.signBit
    rw [pow_add, Nat.mod_mul, Nat.add_comm, Nat.mul_comm]
  have hfrac : bits % 2 ^ (f.prec - 1) < 2 ^ (f.prec - 1) := Nat.mod_lt _ hP
  unfold unpackBits at h
  simp only at h
  split at h
  · split at h <;> cases h
  · split at h
    · rename_i h1 h2
      cases h
      rw [hmod, h2]
      have := magVal_significand f 0 (bits % 2 ^ (f.prec - 1)) (by omega) (.inr rfl)
      rw [this]; simp
    · rename_i h1 h2
      cases h
      rw [hmod]
      generalize bits / 2 ^ (f.prec - 1) % 2 ^ f.ebits = ex at *
      obtain ⟨t, rfl⟩ : ∃ t, ex = t + 1 := ⟨ex - 1, by omega⟩
      have := magVal_significand f t (2 ^ (f.prec - 1) + bits % 2 ^ (f.prec - 1)) (by omega) (.inl (by omega))
      rw [show (t + 1) * 2 ^ (f.prec - 1) + bits % 2 ^ (f.prec - 1)
        = t * 2 ^ (f.prec - 1) + (2 ^ (f.prec - 1) + bits % 2 ^ (f.prec - 1)) by ring, this]
      congr 2
      push_cast; ring

/-- The value of an unpacked word. -/
theorem wordVal_unpack {w : Word} {s m e} (h : unpack w = .fin s m e) : (wordVal w : ℝ) = sgn s * (m * 2 ^ e) := by
  unfold wordVal; rw [h]; unfold sgn; cases s <;> push_cast <;> simp

/-- The value of a finite word is its sign times the value of its magnitude bits. -/
theorem wordVal_mag {w : Word} (h : isFinite w = true) : (wordVal w : ℝ) = sgn w.msb * magVal binary64 (mag w) := by
  obtain ⟨s, m, e, hw⟩ := unpack_of_finite h
  have h1 := unpackBits_val binary64 w.toNat hw
  have h3 : mag w = w.toNat % binary64.signBit := by simp [mag, show binary64.signBit = 2 ^ 63 by decide]
  rw [wordVal_unpack hw, h1, h3, (unpack_fin hw).1]

theorem mag_lt_infBits {w : Word} (h : isFinite w = true) : mag w < binary64.infBits := by
  rw [isFinite_iff] at h; rw [binary64_infBits]; exact h

theorem wordVal_zero_iff {w : Word} {s m e} (h : unpack w = .fin s m e) : wordVal w = 0 ↔ m = 0 := by
  have := wordVal_unpack h
  have h2 : wordVal w = 0 ↔ (wordVal w : ℝ) = 0 := by norm_cast
  rw [h2, this]
  have hp : (2:ℝ) ^ e ≠ 0 := by positivity
  unfold sgn
  cases s <;> simp [hp]

theorem wordVal_fneg (w : Word) (h : isFinite w = true) : (wordVal (fneg w) : ℝ) = -(wordVal w : ℝ) := by
  rw [wordVal_mag h, wordVal_mag (by rw [isFinite_fneg]; exact h), fneg_msb, mag, fneg_setWidth]
  unfold sgn mag; cases w.msb <;> simp

/-- A significand fits 53 bits. -/
theorem mant_lt_of_unpack {w : Word} {s m e} (h : unpack w = .fin s m e) : m < 2 ^ 53 := by
  unfold unpack unpackBits at h
  simp only at h
  have hfrac : w.toNat % 2 ^ (binary64.prec - 1) < 2 ^ (binary64.prec - 1) := Nat.mod_lt _ (by decide)
  have hP : 2 ^ (binary64.prec - 1) + 2 ^ (binary64.prec - 1) = 2 ^ 53 := by decide
  split at h
  · split at h <;> cases h
  · split at h <;> cases h <;> omega

/-- An aligned significand keeps its value. -/
theorem alignTo_val (e0 : Int) (neg : Bool) (m : Nat) (e : Int) (h : e0 ≤ e) :
    (alignTo e0 neg m e : ℝ) * 2 ^ e0 = sgn neg * (m * 2 ^ e) := by
  unfold alignTo sgn
  have : ((m * 2 ^ (e - e0).toNat : Nat) : ℝ) * 2 ^ e0 = m * 2 ^ e := by
    push_cast
    rw [mul_assoc, ← zpow_natCast, ← zpow_add₀ (by norm_num)]
    congr 2; omega
  rw [← this]
  cases neg <;> simp

/-! ### Rounding once -/

/-- What `RoundsTo` and `RoundsTo32` ask of the nearest value, for a magnitude rounded by its midpoints: no value of either sign
is nearer, and one as near is the same or the result is even. -/
theorem RoundsToMag.nearest_signed {f : FloatFormat} {x y : ℝ} {neg : Bool} {k : Nat} (hy : 0 ≤ y) (hx : RoundsToMag f y k)
    (hn : x = sgn neg * y) (s : Bool) (j : Nat) :
    |sgn neg * magVal f k - x| ≤ |sgn s * magVal f j - x|
      ∧ (|sgn neg * magVal f k - x| = |sgn s * magVal f j - x| →
          sgn s * magVal f j = sgn neg * magVal f k ∨ k % 2 = 0) := by
  have same : ∀ v : ℝ, |sgn neg * v - x| = |v - y| := by
    intro v; rw [hn, ← mul_sub, abs_mul, abs_sgn, one_mul]
  rw [same]
  by_cases hs : s = neg
  · rw [hs, same]
    exact ⟨(hx.nearest j).1, fun e => ((hx.nearest j).2 e).imp (fun h => by rw [h]) id⟩
  · have hj := magVal_nonneg f j
    have e1 : |sgn s * magVal f j - x| = magVal f j + y := by
      rw [sgn_eq_neg hs, show -sgn neg * magVal f j - x = -(sgn neg * (magVal f j + y)) by rw [hn]; ring, abs_neg, abs_mul,
        abs_sgn, one_mul, abs_of_nonneg (by positivity)]
    have hzero := hx.nearest 0
    rw [magVal_zero, zero_sub, abs_neg, abs_of_nonneg hy] at hzero
    rw [e1]
    refine ⟨by linarith [hzero.1], fun e => ?_⟩
    have hmc : magVal f j = 0 := by linarith [hzero.1]
    exact (hzero.2 (by linarith)).imp (fun h => by rw [hmc, ← h, magVal_zero, mul_zero, mul_zero]) id

/-- A magnitude rounds to a finite one exactly below the midpoint under the infinity, whose predecessor is odd. -/
theorem RoundsToMag.lt_inf_iff {f : FloatFormat} {y : ℝ} {k i : Nat} (hx : RoundsToMag f y k) (hi : i % 2 = 1) :
    k < i + 1 ↔ y < (magVal f i + magVal f (i + 1)) / 2 := by
  constructor
  · intro hk
    have m1 := (magVal_strictMono f).monotone (show k ≤ i by omega)
    have m2 := (magVal_strictMono f).monotone (show k + 1 ≤ i + 1 by omega)
    have h1 := hx.above
    by_contra hc
    push Not at hc
    have e : k = i := by
      by_contra hne
      have := magVal_strictMono f (show k < i by omega)
      linarith
    have := hx.above_even (by linarith)
    omega
  · intro hy
    by_contra hk
    obtain ⟨j, rfl⟩ : ∃ j, k = j + 1 := ⟨k - 1, by omega⟩
    have h1 := hx.below j rfl
    have m1 := (magVal_strictMono f).monotone (show i ≤ j by omega)
    have m2 := (magVal_strictMono f).monotone (show i + 1 ≤ j + 1 by omega)
    linarith

/-- The midpoint under the infinity of binary64. -/
theorem magVal_overflow : (magVal binary64 (binary64.infBits - 1) + magVal binary64 binary64.infBits) / 2 = 2 ^ 1024 - 2 ^ 970 := by
  have h1 : binary64.infBits - 1 = 2045 * 2 ^ (binary64.prec - 1) + (2 ^ 53 - 1) := by decide
  have h2 : binary64.infBits = 2045 * 2 ^ (binary64.prec - 1) + 2 ^ 53 := by decide
  rw [h1, magVal_significand _ _ _ (by decide) (by decide), h2, magVal_significand _ _ _ (by decide) (by decide), binary64_minExp]
  have a : (2:ℝ) ^ ((-1074 : ℤ) + (2045 : ℕ)) = 2 ^ 970 * 2 := by
    rw [← pow_succ, ← zpow_natCast]; norm_num
  have b : (2:ℝ) ^ 1024 = 2 ^ 970 * 2 ^ 54 := by rw [← pow_add]
  rw [a, b]
  generalize (2:ℝ) ^ 970 = u
  push_cast
  ring

/-- A word with the sign of x whose magnitude bits are those of |x| rounded by its midpoints is x rounded once. -/
theorem roundsTo_of_mag {x y : ℝ} {neg : Bool} {k : Nat} {r : Word} (hy : 0 ≤ y) (hx : RoundsToMag binary64 y k)
    (hn : x = sgn neg * y) (hr : r.msb = neg) (hm : mag r = min k binary64.infBits) : RoundsTo x r := by
  have hmid := magVal_overflow
  have hlt := hx.lt_inf_iff (i := binary64.infBits - 1) (by decide)
  rw [show binary64.infBits - 1 + 1 = binary64.infBits by decide, hmid] at hlt
  have hxy : |x| = y := by rw [hn, abs_mul, abs_sgn, one_mul, abs_of_nonneg hy]
  unfold RoundsTo
  rw [hxy]
  by_cases hk : k < binary64.infBits
  · left
    have hmr : mag r = k := by omega
    have hf : isFinite r = true := by
      rw [isFinite_iff]; rw [binary64_infBits] at hk; show mag r < _; rw [hmr]; exact hk
    refine ⟨hf, hlt.1 hk, fun c hc => ?_⟩
    have hlsb : r.getLsbD 0 = false ↔ k % 2 = 0 := by
      rw [← hmr, mag, show r.getLsbD 0 = (r.setWidth 63).getLsbD 0 by simp, BitVec.getLsbD]
      simp [Nat.testBit_zero]
    have h := hx.nearest_signed hy hn c.msb (mag c)
    rw [wordVal_mag hc, wordVal_mag hf, hmr, hr]
    refine ⟨h.1, fun e => (h.2 e).imp (fun g => ?_) hlsb.2⟩
    have : (wordVal c : ℝ) = wordVal r := by rw [wordVal_mag hc, wordVal_mag hf, hmr, hr, g]
    exact_mod_cast this
  · right
    have hmr : mag r = binary64.infBits := by omega
    have hbig : 2 ^ 1024 - 2 ^ 970 ≤ y := not_lt.1 fun h => hk (hlt.2 h)
    refine ⟨?_, hbig⟩
    have hpos : (0 : ℝ) < y := by
      refine lt_of_lt_of_le ?_ hbig
      rw [show (2 : ℝ) ^ 1024 = 2 ^ 970 * 2 ^ 54 by rw [← pow_add]]
      have : (0 : ℝ) < 2 ^ 970 := by positivity
      generalize (2 : ℝ) ^ 970 = u at *
      linarith
    have hd : decide (x < 0) = neg := by
      clear hbig hmid hlt
      unfold sgn at hn
      cases neg
      · simp only [Bool.false_eq_true, if_false, one_mul] at hn
        simp only [decide_eq_false_iff_not, not_lt]; linarith
      · simp only [if_true] at hn
        simp only [decide_eq_true_eq]; linarith
    rw [hd]
    apply BitVec.eq_of_toNat_eq
    rw [toNat_split r, hr, show (r.setWidth 63).toNat = binary64.infBits from hmr]
    cases neg <;> decide

/-- `round64` rounds its exact argument once. -/
theorem roundsTo_round64 {x : ℝ} {neg : Bool} {m : Nat} {e : Int} (hx : x = sgn neg * (m * 2 ^ e)) :
    RoundsTo x (round64 neg m e) := by
  apply roundsTo_of_mag (neg := neg) (k := roundMagFree binary64 m e) (y := m * 2 ^ e) (by positivity)
    (roundMagFree_spec binary64 (by decide) m e) hx
  · exact round64_msb _ _ _
  · unfold mag; rw [round64_setWidth, roundMag_eq_min]

theorem magVal_midpoint (f : FloatFormat) (t s : Nat) (hs : s < 2 * 2 ^ (f.prec - 1)) (ht : 2 ^ (f.prec - 1) ≤ s ∨ t = 0) :
    (magVal f (t * 2 ^ (f.prec - 1) + s) + magVal f (t * 2 ^ (f.prec - 1) + s + 1)) / 2
      = (2 * s + 1 : ℕ) * 2 ^ (f.minExp + t - 1) := by
  rw [magVal_succ f t s hs ht, magVal_significand f t s (by omega) ht]
  rw [show f.minExp + (t:ℤ) = (f.minExp + t - 1) + 1 by ring, zpow_add_one₀ (by norm_num)]
  rw [show f.minExp + (t:ℤ) - 1 + 1 - 1 = f.minExp + t - 1 by ring]
  push_cast; ring

/-- Two numbers strictly between the same even multiples of a unit far below their last places round alike: a sticky bit decides
only the side of a midpoint. -/
theorem RoundsToMag.sticky {f : FloatFormat} (hp : 2 ≤ f.prec) {x y : ℝ} {k N : Nat} {u : Int} (hN : 2 ^ (f.prec + 2) ≤ N)
    (h : RoundsToMag f y k) (y1 : (2 * N : ℕ) * 2 ^ u < y) (y2 : y < (2 * N + 2 : ℕ) * 2 ^ u)
    (x1 : (2 * N : ℕ) * 2 ^ u < x) (x2 : x < (2 * N + 2 : ℕ) * 2 ^ u) : RoundsToMag f x k := by
  have hU : (0:ℝ) < 2 ^ u := by positivity
  -- a midpoint with a unit well above u is an even multiple, hence on the same side of both
  have side : ∀ (a : Nat) (v : Int), u + 2 ≤ v →
      ((a : ℝ) * 2 ^ v ≤ (2 * N : ℕ) * 2 ^ u ∨ (2 * N + 2 : ℕ) * 2 ^ u ≤ (a : ℝ) * 2 ^ v) := by
    intro a v hv
    obtain ⟨d, hd⟩ : ∃ d : Nat, v = u + 1 + d := ⟨(v - u - 1).toNat, by omega⟩
    have e : (a : ℝ) * 2 ^ v = ((2 * (a * 2 ^ d) : ℕ) : ℝ) * 2 ^ u := by
      rw [hd, zpow_add₀ (by norm_num), zpow_add_one₀ (by norm_num), zpow_natCast]; push_cast; ring
    rw [e]
    rcases Nat.lt_or_ge (a * 2 ^ d) (N + 1) with h | h
    · left; apply mul_le_mul_of_nonneg_right _ hU.le; exact_mod_cast (by omega : 2 * (a * 2 ^ d) ≤ 2 * N)
    · right; apply mul_le_mul_of_nonneg_right _ hU.le; exact_mod_cast (by omega : 2 * N + 2 ≤ 2 * (a * 2 ^ d))
  -- midpoints above y/2 have large units
  have big : ∀ j, (2 * N : ℕ) * 2 ^ u < 2 * magVal f (j + 1) →
      ∃ (a : Nat) (v : Int), u + 2 ≤ v ∧ (magVal f j + magVal f (j + 1)) / 2 = (a : ℝ) * 2 ^ v := by
    intro j hj
    obtain ⟨t, s, rfl, hs, ht⟩ := exists_significand f j
    refine ⟨2 * s + 1, f.minExp + t - 1, ?_, magVal_midpoint f t s hs ht⟩
    have h1 : magVal f (t * 2 ^ (f.prec - 1) + s + 1) ≤ (2 ^ f.prec : ℕ) * 2 ^ (f.minExp + (t:ℤ)) := by
      rw [Nat.add_assoc, magVal_significand f t (s + 1) (by omega) (by omega)]
      apply mul_le_mul_of_nonneg_right _ (by positivity)
      have : 2 ^ f.prec = 2 * 2 ^ (f.prec - 1) := by rw [← pow_succ']; congr 1; omega
      exact_mod_cast (by omega : s + 1 ≤ 2 ^ f.prec)
    have h2 : ((2 ^ (f.prec + 2) : ℕ) : ℝ) * 2 ^ u ≤ (N : ℕ) * 2 ^ u := by
      apply mul_le_mul_of_nonneg_right _ hU.le
      exact_mod_cast hN
    have h3 : ((2 ^ (f.prec + 2) : ℕ) : ℝ) * 2 ^ u < (2 ^ f.prec : ℕ) * 2 ^ (f.minExp + (t:ℤ)) := by
      push_cast at *; linarith
    by_contra hc
    have h4 : (2:ℝ) ^ (f.minExp + (t:ℤ)) ≤ 2 ^ (u + 2) := zpow_le_zpow_right₀ (by norm_num) (by omega)
    rw [zpow_add₀ (by norm_num) u 2] at h4
    have h5 : ((2 ^ f.prec : ℕ) : ℝ) * 2 ^ (f.minExp + (t:ℤ)) ≤ (2 ^ f.prec : ℕ) * (2 ^ u * 2 ^ (2:ℤ)) :=
      mul_le_mul_of_nonneg_left h4 (by positivity)
    have h6 : ((2 ^ (f.prec + 2) : ℕ) : ℝ) * 2 ^ u = (2 ^ f.prec : ℕ) * (2 ^ u * 2 ^ (2:ℤ)) := by
      push_cast; rw [pow_add]; norm_num; ring
    linarith
  have hk1 : y ≤ magVal f (k + 1) := by
    have := h.above; have := magVal_lt_succ f k; linarith
  have hy0 : 0 < y := lt_of_le_of_lt (by positivity) y1
  obtain ⟨a, v, hv, ha⟩ := big k (by linarith)
  have hab := h.above
  rw [ha] at hab
  have hxa : x < (a : ℝ) * 2 ^ v := by
    rcases side a v hv with g | g <;> linarith
  refine ⟨by rw [ha]; exact hxa.le, fun e => ?_, fun j hj => ?_, fun j hj e => ?_⟩
  · rw [ha] at e; linarith
  all_goals
    subst hj
    have hb := h.below j rfl
    have hgt : (2 * N : ℕ) * 2 ^ u < 2 * magVal f (j + 1) := by
      -- y ≤ mid (j+1, j+2) and magVal (j+2) ≤ 3 * magVal (j+1)
      obtain ⟨t, s, hjs, hs, ht⟩ := exists_significand f (j + 1)
      have hs1 : 1 ≤ s := by
        rcases ht with h' | h'
        · exact le_trans (Nat.two_pow_pos _) h'
        · subst h'; omega
      have hm1 : magVal f (j + 1) = s * 2 ^ (f.minExp + (t:ℤ)) := by rw [hjs]; exact magVal_significand f t s (by omega) ht
      have hm2 : magVal f (j + 1 + 1) = magVal f (j + 1) + 2 ^ (f.minExp + (t:ℤ)) := by rw [hjs]; exact magVal_succ f t s hs ht
      have hab := h.above
      have hp1 : (0:ℝ) < 2 ^ (f.minExp + (t:ℤ)) := by positivity
      have hs1' : (1:ℝ) ≤ s := by exact_mod_cast hs1
      have : (2:ℝ) ^ (f.minExp + (t:ℤ)) ≤ magVal f (j + 1) := by rw [hm1]; nlinarith
      rw [hm2] at hab
      linarith
    obtain ⟨b, w, hw, hbm⟩ := big j hgt
  · rw [hbm] at hb ⊢
    rcases side b w hw with g | g <;> linarith
  · rw [hbm] at e hb
    rcases side b w hw with g | g <;> linarith

/-- `round64` of a truncated result with a sticky bit rounds the exact result once. -/
theorem roundsTo_sticky {x y : ℝ} {neg : Bool} {N : Nat} {u : Int} (hN : 2 ^ 55 ≤ N) (hx : x = sgn neg * y)
    (h1 : (2 * N : ℕ) * 2 ^ u < y) (h2 : y < (2 * N + 2 : ℕ) * 2 ^ u) : RoundsTo x (round64 neg (2 * N + 1) u) := by
  have hU : (0:ℝ) < 2 ^ u := by positivity
  have hy : 0 ≤ y := le_trans (by positivity) h1.le
  have h := roundMagFree_spec binary64 (by decide) (2 * N + 1) u
  have hs := h.sticky (x := y) (N := N) (u := u) (by decide) hN
    (by push_cast; nlinarith) (by push_cast; nlinarith) h1 h2
  apply roundsTo_of_mag (neg := neg) hy hs hx
  · exact round64_msb _ _ _
  · unfold mag; rw [round64_setWidth, roundMag_eq_min]

/-- What the digit loop of the root gives: the integer square root. -/
theorem isqrtFrom_spec (n : Nat) : ∀ k r, r * r ≤ n → n < (r + 2 ^ k) * (r + 2 ^ k) →
    let q := isqrtFrom n k r; q * q ≤ n ∧ n < (q + 1) * (q + 1) := by
  intro k
  induction k with
  | zero => intro r h1 h2; exact ⟨h1, by simpa [isqrtFrom] using h2⟩
  | succ k ih =>
    intro r h1 h2
    simp only [isqrtFrom]
    split
    · rename_i h
      exact ih _ h (by rw [pow_succ] at h2; rw [show r + 2 ^ k + 2 ^ k = r + 2 ^ k * 2 by ring]; exact h2)
    · rename_i h
      exact ih _ h1 (by omega)

/-! ### Infinities and NaNs -/

theorem unpack_infWord (b : Bool) : unpack (infWord b) = .inf b := by cases b <;> decide +kernel

theorem unpack_of_isNan {w : Word} (h : isNan w = true) : unpack w = .nan := by
  cases hu : unpack w with
  | nan => rfl
  | inf s => have := (msb_of_unpack_inf hu).2; rw [isNan_iff] at h; omega
  | fin s m e => rw [isNan_of_finite (isFinite_of_unpack hu)] at h; cases h

theorem fneg_infWord (b : Bool) : fneg (infWord b) = infWord (!b) := by cases b <;> decide

section
variable {a b : Word} {s t : Bool} {m n : Nat} {d e : Int}
theorem fadd_inf_inf (ha : unpack a = .inf s) (hb : unpack b = .inf t) :
    fadd a b = if s = t then infWord s else nanWord .add a b := by
  unfold fadd; rw [ha, hb]
theorem fadd_inf_fin (ha : unpack a = .inf s) (hb : unpack b = .fin t n e) : fadd a b = infWord s := by
  unfold fadd; rw [ha, hb]
theorem fadd_fin_inf (ha : unpack a = .fin s m d) (hb : unpack b = .inf t) : fadd a b = infWord t := by
  unfold fadd; rw [ha, hb]
theorem fmul_inf_inf (ha : unpack a = .inf s) (hb : unpack b = .inf t) : fmul a b = infWord (s ^^ t) := by
  unfold fmul; rw [ha, hb]
theorem fmul_inf_fin (ha : unpack a = .inf s) (hb : unpack b = .fin t n e) :
    fmul a b = if n = 0 then nanWord .mul a b else infWord (s ^^ t) := by
  unfold fmul; rw [ha, hb]
theorem fmul_fin_inf (ha : unpack a = .fin s m d) (hb : unpack b = .inf t) :
    fmul a b = if m = 0 then nanWord .mul a b else infWord (s ^^ t) := by
  unfold fmul; rw [ha, hb]
theorem fdiv_inf_inf (ha : unpack a = .inf s) (hb : unpack b = .inf t) : fdiv a b = nanWord .div a b := by
  unfold fdiv; rw [ha, hb]
theorem fdiv_inf_fin (ha : unpack a = .inf s) (hb : unpack b = .fin t n e) : fdiv a b = infWord (s ^^ t) := by
  unfold fdiv; rw [ha, hb]
theorem fdiv_fin_inf (ha : unpack a = .fin s m d) (hb : unpack b = .inf t) : fdiv a b = zeroWord (s ^^ t) := by
  unfold fdiv; rw [ha, hb]
theorem fsqrt_inf (ha : unpack a = .inf s) : fsqrt a = if s then nanWord .sqrt a a else infWord false := by
  unfold fsqrt; rw [ha]
end

/-! ### Words from 1.0 on -/

/-- What the bits of a positive normal word unpack to. -/
theorem unpack_normal {w : Word} {ex frac : Nat} (hw : w.toNat = ex * 2 ^ 52 + frac) (hf : frac < 2 ^ 52) (h1 : 1 ≤ ex)
    (h2 : ex < 2047) : unpack w = .fin false (2 ^ 52 + frac) (-1074 + ex - 1) := by
  unfold unpack unpackBits
  simp only [hw, show binary64.prec - 1 = 52 from rfl, show binary64.ebits = 11 from rfl, binary64_minExp,
    show binary64.signBit = 2 ^ 63 by decide]
  rw [show (ex * 2 ^ 52 + frac) / 2 ^ 52 % 2 ^ 11 = ex by omega, show (ex * 2 ^ 52 + frac) % 2 ^ 52 = frac by omega,
    if_neg (by omega), if_neg (by omega), decide_eq_false (by omega)]

/-- The bits of a finite word from 1.0 on. -/
theorem exists_normal {w : Word} (hf : isFinite w = true) (h1 : fle cOne w = true) :
    ∃ ex frac, w.toNat = ex * 2 ^ 52 + frac ∧ frac < 2 ^ 52 ∧ 1023 ≤ ex ∧ ex < 2047 := by
  rw [isFinite_iff] at hf
  have hk := ((fle_iff _ _).1 h1).2.2
  rw [orderKey_eq w, show orderKey cOne = 1023 * 2 ^ 52 by decide] at hk
  have hm : w.msb = false := by
    cases h : w.msb
    · rfl
    · rw [h] at hk; simp only [if_true] at hk; omega
  rw [hm] at hk
  simp only [Bool.false_eq_true, if_false] at hk
  refine ⟨(w.setWidth 63).toNat / 2 ^ 52, (w.setWidth 63).toNat % 2 ^ 52, ?_, Nat.mod_lt _ (by norm_num), by omega, by omega⟩
  rw [toNat_split, hm]
  simp only [Bool.false_eq_true, if_false]
  omega

/-- A product with the half divided by the other factor is the half, for every finite word from 1.0 on. -/
theorem half_fmul_fdiv {w : Word} (hf : isFinite w = true) (h1 : fle cOne w = true) : fdiv (fmul cHalf w) w = cHalf := by
  obtain ⟨ex, frac, hw, hfr, h2, h3⟩ := exists_normal hf h1
  have hu := unpack_normal hw hfr (by omega) h3
  have hh : unpack cHalf = .fin false (2 ^ 52) (-53) := by decide +kernel
  have hp : (fmul cHalf w).toNat = (ex - 1) * 2 ^ 52 + frac := by
    rw [fmul_finite hh hu, toNat_split, round64_msb, round64_setWidth, Bool.false_xor,
      show (-53 + (-1074 + (ex : Int) - 1)) = (-1074 + ((ex - 1 : Nat) : Int) - 1) - (52 : Nat) by omega,
      Nat.mul_comm, roundMag_scale]
    have := roundMag_normal binary64 (by decide) frac (ex - 1) hfr (by omega) (by show _ < 2047; omega)
    rw [binary64_minExp] at this
    simp only [Bool.false_eq_true, if_false, Nat.zero_add]
    exact this
  have hv := unpack_normal hp hfr (by omega) (by omega)
  unfold fdiv
  rw [hv, hu]
  simp only
  rw [if_neg (by omega)]
  unfold divFinite
  simp only
  rw [Nat.mul_div_cancel_left _ (by omega : 0 < 2 ^ 52 + frac), Nat.mul_mod_right, if_pos rfl,
    show (-1074 + ((ex - 1 : Nat) : Int) - 1 - (-1074 + (ex : Int) - 1) - 111) = -112 by omega]
  decide +kernel

/-! ### Signs -/

theorem msb_of_unpack {w : Word} {s : Bool} (h : unpack w = .inf s ∨ ∃ m e, unpack w = .fin s m e) : s = w.msb := by
  rcases h with h | ⟨m, e, h⟩
  · exact (msb_of_unpack_inf h).1
  · exact (unpack_fin h).1

theorem msb_infWord (b : Bool) : (infWord b).msb = b := by cases b <;> decide
theorem msb_zeroWord (b : Bool) : (zeroWord b).msb = b := by cases b <;> decide

theorem fdiv_fin_fin {a b : Word} {s t : Bool} {m n : Nat} {d e : Int} (ha : unpack a = .fin s m d) (hb : unpack b = .fin t n e) :
    fdiv a b = if n = 0 then (if m = 0 then nanWord .div a b else infWord (s ^^ t)) else divFinite (s ^^ t) m d n e := by
  unfold fdiv; rw [ha, hb]

theorem fmul_isNan {a b : Word} (h : isNan a = true ∨ isNan b = true) : isNan (fmul a b) = true := by
  unfold fmul
  rcases h with h | h <;> rw [unpack_of_isNan h]
  · exact isNan_nanWord _ _ _
  · cases unpack a <;> exact isNan_nanWord _ _ _

theorem fdiv_isNan {a b : Word} (h : isNan a = true ∨ isNan b = true) : isNan (fdiv a b) = true := by
  unfold fdiv
  rcases h with h | h <;> rw [unpack_of_isNan h]
  · exact isNan_nanWord _ _ _
  · cases unpack a <;> exact isNan_nanWord _ _ _

theorem fadd_isNan {a b : Word} (h : isNan a = true ∨ isNan b = true) : isNan (fadd a b) = true := by
  unfold fadd
  rcases h with h | h <;> rw [unpack_of_isNan h]
  · exact isNan_nanWord _ _ _
  · cases unpack a <;> exact isNan_nanWord _ _ _

/-- A product is a NaN or has the signs of its factors together. -/
theorem fmul_sign (a b : Word) : isNan (fmul a b) = true ∨ (fmul a b).msb = (a.msb ^^ b.msb) := by
  cases ha : unpack a with
  | nan => exact .inl (fmul_isNan (.inl (isNan_of_unpack ha)))
  | inf s =>
    rw [← msb_of_unpack (.inl ha)]
    cases hb : unpack b with
    | nan => exact .inl (fmul_isNan (.inr (isNan_of_unpack hb)))
    | inf t => rw [← msb_of_unpack (.inl hb), fmul_inf_inf ha hb]; exact .inr (msb_infWord _)
    | fin t n e =>
      rw [← msb_of_unpack (.inr ⟨n, e, hb⟩), fmul_inf_fin ha hb]
      split
      · exact .inl (isNan_nanWord _ _ _)
      · exact .inr (msb_infWord _)
  | fin s m d =>
    rw [← msb_of_unpack (.inr ⟨m, d, ha⟩)]
    cases hb : unpack b with
    | nan => exact .inl (fmul_isNan (.inr (isNan_of_unpack hb)))
    | inf t =>
      rw [← msb_of_unpack (.inl hb), fmul_fin_inf ha hb]
      split
      · exact .inl (isNan_nanWord _ _ _)
      · exact .inr (msb_infWord _)
    | fin t n e => rw [← msb_of_unpack (.inr ⟨n, e, hb⟩), fmul_finite ha hb]; exact .inr (round64_msb _ _ _)

/-- A quotient is a NaN or has the signs of its operands together. -/
theorem fdiv_sign (a b : Word) : isNan (fdiv a b) = true ∨ (fdiv a b).msb = (a.msb ^^ b.msb) := by
  cases ha : unpack a with
  | nan => exact .inl (fdiv_isNan (.inl (isNan_of_unpack ha)))
  | inf s =>
    rw [← msb_of_unpack (.inl ha)]
    cases hb : unpack b with
    | nan => exact .inl (fdiv_isNan (.inr (isNan_of_unpack hb)))
    | inf t => rw [fdiv_inf_inf ha hb]; exact .inl (isNan_nanWord _ _ _)
    | fin t n e => rw [← msb_of_unpack (.inr ⟨n, e, hb⟩), fdiv_inf_fin ha hb]; exact .inr (msb_infWord _)
  | fin s m d =>
    rw [← msb_of_unpack (.inr ⟨m, d, ha⟩)]
    cases hb : unpack b with
    | nan => exact .inl (fdiv_isNan (.inr (isNan_of_unpack hb)))
    | inf t => rw [← msb_of_unpack (.inl hb), fdiv_fin_inf ha hb]; exact .inr (msb_zeroWord _)
    | fin t n e =>
      rw [← msb_of_unpack (.inr ⟨n, e, hb⟩), fdiv_fin_fin ha hb]
      split
      · split
        · exact .inl (isNan_nanWord _ _ _)
        · exact .inr (msb_infWord _)
      · exact .inr (round64_msb _ _ _)

/-- A word from 1.0 on plus one whose sign is clear is from 1.0 on, or a NaN. -/
theorem fadd_ge_one {a b : Word} (ha : fle cOne a = true) (hb : b.msb = false) :
    isNan (fadd a b) = true ∨ fle cOne (fadd a b) = true := by
  have hk := (fle_iff _ _).1 ha
  rw [orderKey_eq a, show orderKey cOne = 1023 * 2 ^ 52 by decide] at hk
  have hm : a.msb = false := by
    cases h : a.msb
    · rfl
    · rw [h] at hk; simp only [if_true] at hk; omega
  rw [hm] at hk
  simp only [Bool.false_eq_true, if_false] at hk
  have hi : fle cOne (infWord false) = true := by decide +kernel
  cases hua : unpack a with
  | nan => exact .inl (fadd_isNan (.inl (isNan_of_unpack hua)))
  | inf s =>
    have hs := msb_of_unpack (.inl hua); rw [hm] at hs; subst hs
    cases hub : unpack b with
    | nan => exact .inl (fadd_isNan (.inr (isNan_of_unpack hub)))
    | inf t =>
      have ht := msb_of_unpack (.inl hub); rw [hb] at ht; subst ht
      rw [fadd_inf_inf hua hub, if_pos rfl]; exact .inr hi
    | fin t n e => rw [fadd_inf_fin hua hub]; exact .inr hi
  | fin s m d =>
    have hs := msb_of_unpack (.inr ⟨m, d, hua⟩); rw [hm] at hs; subst hs
    cases hub : unpack b with
    | nan => exact .inl (fadd_isNan (.inr (isNan_of_unpack hub)))
    | inf t =>
      have ht := msb_of_unpack (.inl hub); rw [hb] at ht; subst ht
      rw [fadd_fin_inf hua hub]; exact .inr hi
    | fin t n e =>
      have ht := msb_of_unpack (.inr ⟨n, e, hub⟩); rw [hb] at ht; subst ht
      right
      rw [fadd_finite hua hub]
      unfold addFinite
      simp only
      have va := alignTo_val (min d e) false m d (min_le_left _ _)
      have vb := alignTo_val (min d e) false n e (min_le_right _ _)
      have hm0 : m ≠ 0 := by
        rintro rfl
        have := (unpack_fin hua).2
        rw [roundMag_zero] at this; omega
      have hA : alignTo (min d e) false m d = ((m * 2 ^ (d - min d e).toNat : Nat) : Int) := by simp [alignTo]
      have hB : alignTo (min d e) false n e = ((n * 2 ^ (e - min d e).toNat : Nat) : Int) := by simp [alignTo]
      rw [hA, hB]
      rw [hA] at va
      clear vb hA hB
      have hpos : 0 < m * 2 ^ (d - min d e).toNat := Nat.mul_pos (Nat.pos_of_ne_zero hm0) (Nat.two_pow_pos _)
      generalize m * 2 ^ (d - min d e).toNat = p at *
      generalize n * 2 ^ (e - min d e).toNat = q at *
      rw [if_neg (by omega), decide_eq_false (by omega)]
      have hnat : ((p : Int) + q).natAbs = p + q := by omega
      rw [hnat, fle_iff]
      refine ⟨by decide, isNan_round64 _ _ _, ?_⟩
      rw [orderKey_round64, show orderKey cOne = 1023 * 2 ^ 52 by decide]
      simp only [Bool.false_eq_true, if_false]
      have hmono := roundMag_mono binary64 (by decide) (m := m) (d := d) (n := p + q) (e := min d e) (by
        have hq : (0 : ℝ) ≤ (q : ℝ) * 2 ^ (min d e) := by positivity
        unfold sgn at va
        simp only [Bool.false_eq_true, if_false, one_mul, Int.cast_natCast] at va
        rw [← va]; push_cast; linarith)
      have := (unpack_fin hua).2
      omega

/-! ### binary32 -/

/-- The value of a magnitude rounds to that magnitude. -/
theorem roundsToMag_self (f : FloatFormat) (k : Nat) : RoundsToMag f (magVal f k) k := by
  have h := magVal_lt_succ f k
  refine ⟨by linarith, fun e => by linarith, fun j hj => ?_, fun j hj e => ?_⟩ <;> have h2 := magVal_lt_succ f j <;>
    rw [← hj] at h2 <;> linarith

theorem roundMagFree_exact {f : FloatFormat} (hp : 2 ≤ f.prec) {m : Nat} {e : Int} {k : Nat}
    (h : (m : ℝ) * 2 ^ e = magVal f k) : roundMagFree f m e = k := by
  have := roundMagFree_spec f hp m e
  rw [h] at this
  exact this.unique (roundsToMag_self f k)

/-- Every number with a significand of 24 bits and an exponent of binary32 is a binary64 value. -/
theorem exists_magVal_of_short {m : Nat} {e : Int} (hm : m < 2 ^ 24) (he : -149 ≤ e) (he2 : e ≤ 104) :
    ∃ k, (m : ℝ) * 2 ^ e = magVal binary64 k ∧ k < binary64.infBits := by
  by_cases h0 : m = 0
  · exact ⟨0, by simp [h0], by decide⟩
  have hl : m.log2 < 24 := (Nat.log2_lt h0).2 hm
  -- significand s = m * 2^j normal
  have h1 : 2 ^ m.log2 ≤ m := Nat.log2_self_le h0
  have h2 : m < 2 ^ (m.log2 + 1) := Nat.lt_log2_self
  generalize m.log2 = L at *
  refine ⟨(e - (52 - L : Nat) + 1074).toNat * 2 ^ (binary64.prec - 1) + m * 2 ^ (52 - L), ?_, ?_⟩
  · have hP : 2 ^ (binary64.prec - 1) = 2 ^ L * 2 ^ (52 - L) := by
      rw [← pow_add]; congr 1; show 52 = _; omega
    have hpos : 0 < 2 ^ (52 - L) := Nat.two_pow_pos _
    rw [magVal_significand]
    · rw [binary64_minExp]
      have e1 : ((e - (52 - L : Nat) + 1074).toNat : ℤ) = e - (52 - L : Nat) + 1074 := by omega
      rw [e1]
      push_cast
      rw [mul_assoc, ← zpow_natCast, ← zpow_add₀ (by norm_num)]
      congr 2; omega
    · rw [hP, ← mul_assoc, ← pow_succ']; exact Nat.mul_le_mul_right _ h2.le
    · left; rw [hP]; exact Nat.mul_le_mul_right _ h1
  · rw [binary64_infBits]
    have : m * 2 ^ (52 - L) < 2 * 2 ^ 52 := by
      calc m * 2 ^ (52 - L) < 2 ^ (L + 1) * 2 ^ (52 - L) := Nat.mul_lt_mul_of_pos_right h2 (Nat.two_pow_pos _)
        _ = 2 * 2 ^ 52 := by rw [← pow_add, ← pow_succ']; congr 1; omega
    have e2 : binary64.prec - 1 = 52 := rfl
    rw [e2]
    generalize m * 2 ^ (52 - L) = s at *
    have : (e - (52 - L : Nat) + 1074).toNat ≤ 1178 := by omega
    have := Nat.mul_le_mul_right (2 ^ 52) this
    omega

/-- What the fields of a binary32 word that is no infinity and no NaN unpack to. -/
theorem unpack_binary32 (v : BitVec 32) (h : v.extractLsb' 23 8 ≠ 0xFF) :
    ∃ m e, unpackBits binary32 v.toNat = .fin v.msb m e ∧ m < 2 ^ 24 ∧ -149 ≤ e ∧ e ≤ 104
      ∧ wordVal32 v = (if v.msb then -1 else 1) * (m * 2 ^ e) := by
  have hv := v.isLt
  have hx : (v.extractLsb' 23 8).toNat = v.toNat / 2 ^ 23 % 2 ^ 8 := by simp [BitVec.extractLsb'_toNat, Nat.shiftRight_eq_div_pow]
  have hf : (v.extractLsb' 0 23).toNat = v.toNat % 2 ^ 23 := by simp [BitVec.extractLsb'_toNat]
  have hm : v.msb = decide (v.toNat / binary32.signBit % 2 = 1) := by
    rw [BitVec.msb_eq_decide, show binary32.signBit = 2 ^ 31 by decide, decide_eq_decide]; omega
  have h' : ¬ v.toNat / 2 ^ 23 % 2 ^ 8 = 2 ^ 8 - 1 := by
    rw [← hx]; intro hc; apply h; apply BitVec.eq_of_toNat_eq; rw [hc]; decide
  unfold unpackBits wordVal32
  simp only [hx, hf, ← hm]
  have e1 : binary32.prec - 1 = 23 := rfl
  have e2 : binary32.ebits = 8 := rfl
  have e3 : binary32.minExp = -149 := by decide
  rw [e1, e2, e3]
  rw [if_neg h']
  have hlt : v.toNat % 2 ^ 23 < 2 ^ 23 := Nat.mod_lt _ (by norm_num)
  have hlt2 : v.toNat / 2 ^ 23 % 2 ^ 8 < 2 ^ 8 := Nat.mod_lt _ (by norm_num)
  by_cases h0 : v.toNat / 2 ^ 23 % 2 ^ 8 = 0
  · rw [if_pos h0, if_pos h0]
    exact ⟨_, _, rfl, by omega, by omega, by omega, rfl⟩
  · rw [if_neg h0, if_neg h0]
    refine ⟨_, _, rfl, by omega, by omega, by omega, ?_⟩
    push_cast; congr 2; congr 1; ring

theorem mod_signBit32 (v : BitVec 32) : v.toNat % binary32.signBit = mag32 v := by
  simp [mag32, show binary32.signBit = 2 ^ 31 by decide]

/-- A binary32 word is its sign bit and its magnitude bits. -/
theorem toNat_split32 (v : BitVec 32) : v.toNat = (if v.msb then 2 ^ 31 else 0) + mag32 v := by
  have := v.isLt
  have hm : mag32 v = v.toNat % 2 ^ 31 := by simp [mag32]
  rw [hm, BitVec.msb_eq_decide]
  by_cases h : 2 ^ 31 ≤ v.toNat
  · rw [decide_eq_true (by simpa using h)]; simp only [if_true]; omega
  · rw [decide_eq_false (by simpa using h)]; simp only [Bool.false_eq_true, if_false]; omega

theorem isFinite32_iff_exponent (v : BitVec 32) : isFinite32 v = true ↔ v.extractLsb' 23 8 ≠ 0xFF := by simp [isFinite32]

theorem isFinite32_iff (v : BitVec 32) : isFinite32 v = true ↔ mag32 v < binary32.infBits := by
  have hx : (v.extractLsb' 23 8).toNat = v.toNat / 2 ^ 23 % 2 ^ 8 := by simp [BitVec.extractLsb'_toNat, Nat.shiftRight_eq_div_pow]
  rw [isFinite32_iff_exponent, show binary32.infBits = 255 * 2 ^ 23 by decide]
  have : mag32 v = v.toNat % 2 ^ 31 := by simp [mag32]
  rw [this, ne_eq, ← BitVec.toNat_inj, hx]
  simp; omega

theorem wordVal32_mag {v : BitVec 32} (h : isFinite32 v = true) : (wordVal32 v : ℝ) = sgn v.msb * magVal binary32 (mag32 v) := by
  obtain ⟨m, e, hu, _, _, _, hv⟩ := unpack_binary32 v ((isFinite32_iff_exponent v).1 h)
  have := unpackBits_val binary32 v.toNat hu
  rw [mod_signBit32] at this
  rw [hv, ← this]; unfold sgn; cases v.msb <;> push_cast <;> simp

/-- Narrowing a finite word keeps its sign and rounds its magnitude. -/
theorem narrow_fin {y : Word} {s m e} (h : unpack y = .fin s m e) :
    (narrow y).msb = s ∧ mag32 (narrow y) = roundMag binary32 m e := by
  have hb := roundMag_le_inf binary32 m e
  have hI : binary32.infBits = 255 * 2 ^ 23 := by decide
  rw [hI] at hb
  have hs : binary32.signBit = 2 ^ 31 := by decide
  have hn : narrow y = BitVec.ofNat 32 (roundBits binary32 s m e) := by unfold narrow; rw [h]
  rw [hn]
  unfold mag32 roundBits
  rw [BitVec.msb_eq_decide, hs]
  cases s <;> simp <;> omega

/-- The midpoint under the infinity of binary32. -/
theorem magVal_overflow32 :
    (magVal binary32 (binary32.infBits - 1) + magVal binary32 binary32.infBits) / 2 = 2 ^ 128 - 2 ^ 103 := by
  have h1 : binary32.infBits - 1 = 253 * 2 ^ (binary32.prec - 1) + (2 ^ 24 - 1) := by decide
  have h2 : binary32.infBits = 253 * 2 ^ (binary32.prec - 1) + 2 ^ 24 := by decide
  rw [h1, magVal_significand _ _ _ (by decide) (by decide), h2, magVal_significand _ _ _ (by decide) (by decide),
    show binary32.minExp = -149 by decide]
  norm_num

/-- `roundsTo_of_mag` for binary32. -/
theorem roundsTo32_of_mag {x y : ℝ} {neg : Bool} {k : Nat} {r : BitVec 32} (hy : 0 ≤ y) (hx : RoundsToMag binary32 y k)
    (hn : x = sgn neg * y) (hr : r.msb = neg) (hm : mag32 r = min k binary32.infBits) : RoundsTo32 x r := by
  have hmid := magVal_overflow32
  have hlt := hx.lt_inf_iff (i := binary32.infBits - 1) (by decide)
  rw [show binary32.infBits - 1 + 1 = binary32.infBits by decide, hmid] at hlt
  have hxy : |x| = y := by rw [hn, abs_mul, abs_sgn, one_mul, abs_of_nonneg hy]
  unfold RoundsTo32
  rw [hxy]
  by_cases hk : k < binary32.infBits
  · left
    have hmr : mag32 r = k := by omega
    have hf : isFinite32 r = true := by rw [isFinite32_iff, hmr]; exact hk
    refine ⟨hf, hlt.1 hk, fun c hc => ?_⟩
    have hlsb : r.getLsbD 0 = false ↔ k % 2 = 0 := by
      rw [← hmr, mag32, show r.getLsbD 0 = (r.setWidth 31).getLsbD 0 by simp, BitVec.getLsbD]
      simp [Nat.testBit_zero]
    have h := hx.nearest_signed hy hn c.msb (mag32 c)
    rw [wordVal32_mag hc, wordVal32_mag hf, hmr, hr]
    refine ⟨h.1, fun e => (h.2 e).imp (fun g => ?_) hlsb.2⟩
    have : (wordVal32 c : ℝ) = wordVal32 r := by rw [wordVal32_mag hc, wordVal32_mag hf, hmr, hr, g]
    exact_mod_cast this
  · right
    have hmr : mag32 r = binary32.infBits := by omega
    have hbig : 2 ^ 128 - 2 ^ 103 ≤ y := not_lt.1 fun h => hk (hlt.2 h)
    refine ⟨?_, hbig⟩
    have hpos : (0 : ℝ) < y := lt_of_lt_of_le (by norm_num) hbig
    apply BitVec.eq_of_toNat_eq
    rw [toNat_split32 r, hr, hmr]
    unfold sgn at hn
    cases neg
    · rw [if_neg (show ¬x < 0 by simp at hn; rw [hn]; exact not_lt.2 hy)]; decide
    · rw [if_pos (show x < 0 by simp at hn; rw [hn]; linarith)]; decide

end Sys2Proof.Machine
end

