-- ==== Sys2Proof/Laws/Planning.lean ====
section
/-! SUPPORT. The filter design and the planning: what `I0`, `Design` and `PlanMode` give, by the rules (42, 40 R103). -/

namespace Sys2Proof.Machine

open Sys2Proof.Config (Cfg Stage Dir RsState)

/-! ### The filter design -/

theorem kaiserBeta_eq (cfg : Cfg) (att : Word) : kaiserBeta cfg att = betaRule cfg att := by
  unfold kaiserBeta betaRule
  cases cfg.kaiserBeta <;> rfl

theorem ideal_eq (n : Nat) : ideal n = idealRule n := by
  unfold ideal idealRule
  split_ifs <;> first | rfl | omega

theorem windowNum_eq (cfg : Cfg) (beta : Word) (c n : Nat) : windowNum cfg beta c n = wnumRule (i0 cfg) beta c n := rfl

/-- The loop of `I0`, entered after k passes, gives the sum of the first later pass that ends it. -/
theorem i0Loop_eq (x : Word) : ∀ (fuel k m : Nat), m < fuel → (∀ j < m, (besselSum x (k + 1 + j)).ends = false) →
    (besselSum x (k + 1 + m)).ends = true →
    i0Loop x fuel (besselSum x k).d (besselSum x k).ds (besselSum x k).s = some (besselSum x (k + 1 + m)).s
  | 0, _, _, h, _, _ => absurd h (Nat.not_lt_zero _)
  | fuel + 1, k, 0, _, _, he => by
    show (if (besselSum x (k + 1)).ends then some (besselSum x (k + 1)).s else _) = _
    rw [if_pos he]
  | fuel + 1, k, m + 1, h, hn, he => by
    show (if (besselSum x (k + 1)).ends then some (besselSum x (k + 1)).s
      else i0Loop x fuel (besselSum x (k + 1)).d (besselSum x (k + 1)).ds (besselSum x (k + 1)).s) = _
    rw [if_neg (by rw [hn 0 (Nat.succ_pos m)]; decide)]
    rw [show k + 1 + (m + 1) = k + 1 + 1 + m by omega] at he ⊢
    exact i0Loop_eq x fuel (k + 1) m (by omega)
      (fun j hj => by rw [show k + 1 + 1 + j = k + 1 + (j + 1) by omega]; exact hn (j + 1) (by omega)) he

theorem i0_eq (cfg : Cfg) {x : Word} {k : Nat} (h1 : 1 ≤ k) (h2 : k ≤ 1024) (he : (besselSum x k).ends = true)
    (hn : ∀ j, 1 ≤ j → j < k → (besselSum x j).ends = false) : i0 cfg x = (besselSum x k).s := by
  obtain ⟨m, rfl⟩ : ∃ m, k = 0 + 1 + m := ⟨k - 1, by omega⟩
  have := i0Loop_eq x 1024 0 m (by omega) (fun j hj => hn _ (by omega) (by omega)) he
  show (i0Loop x 1024 (besselSum x 0).d (besselSum x 0).ds (besselSum x 0).s).getD _ = _
  rw [this]
  rfl

theorem i0_zero (cfg : Cfg) : i0 cfg cZero = cOne := by
  rw [i0_eq cfg (k := 1) (by decide) (by decide) (by decide +kernel) (by intro j h1 h2; omega)]
  decide +kernel

theorem length_design (cfg : Cfg) (n : Nat) (att : Word) (ho : n % 2 = 1) : (design cfg n att).length = n := by
  simp [design]; omega

/-- The coefficient at the distance j on both sides of the centre (42 R167). -/
theorem design_getElem? (cfg : Cfg) (n : Nat) (att : Word) {j : Nat} (hj : j ≤ (n - 1) / 2) :
    let v := coefAt cfg (kaiserBeta cfg att) (i0 cfg (kaiserBeta cfg att)) ((n - 1) / 2) j
    (design cfg n att)[(n - 1) / 2 + j]? = some v ∧ (design cfg n att)[(n - 1) / 2 - j]? = some v := by
  unfold design
  simp only
  generalize coefAt cfg (kaiserBeta cfg att) (i0 cfg (kaiserBeta cfg att)) ((n - 1) / 2) = f
  generalize (n - 1) / 2 = c at *
  have hl : ((List.map f (List.range (c + 1))).tail.reverse).length = c := by simp
  constructor
  · rw [List.getElem?_append_right (hl.le.trans (Nat.le_add_right c j)), hl, Nat.add_sub_cancel_left, List.getElem?_map,
      List.getElem?_range (by omega)]
    rfl
  · rcases Nat.eq_zero_or_pos j with h | h
    · subst h
      rw [Nat.sub_zero, List.getElem?_append_right hl.le, hl, Nat.sub_self, List.getElem?_map, List.getElem?_range (by omega)]
      rfl
    · have ht : (List.map f (List.range (c + 1))).tail.length = c := by simp
      rw [List.getElem?_append_left (by rw [hl]; exact Nat.sub_lt (Nat.lt_of_lt_of_le h hj) h),
        List.getElem?_reverse (by rw [ht]; exact Nat.sub_lt (Nat.lt_of_lt_of_le h hj) h), ht, List.getElem?_tail,
        List.getElem?_map, show c - 1 - (c - j) + 1 = j by omega, List.getElem?_range (by omega)]
      rfl

/-- A clear sign bit, or a NaN. -/
def SignClear (w : Word) : Prop := isNan w = true ∨ w.msb = false

/-- The sum of `I0` stays from 1.0 on until it is a NaN, and its terms have a clear sign. -/
theorem besselSum_signs (x : Word) : ∀ k, SignClear (besselSum x k).ds
    ∧ (isNan (besselSum x k).s = true ∨ fle cOne (besselSum x k).s = true)
  | 0 => ⟨.inr (show cOne.msb = false by decide), .inr (show fle cOne cOne = true by decide +kernel)⟩
  | k + 1 => by
    obtain ⟨hds, hs⟩ := besselSum_signs x k
    have sq : ∀ y, SignClear (fmul y y) := fun y => (fmul_sign y y).imp id fun h => by rw [h, Bool.xor_self]
    have hds' : SignClear (besselSum x (k + 1)).ds := by
      show SignClear (fdiv (fmul (besselSum x k).ds (fmul x x)) _)
      generalize fadd (besselSum x k).d cTwo = d
      have hp : SignClear (fmul (besselSum x k).ds (fmul x x)) := by
        rcases hds with h | h
        · exact .inl (fmul_isNan (.inl h))
        · rcases sq x with h2 | h2
          · exact .inl (fmul_isNan (.inr h2))
          · exact (fmul_sign _ _).imp id fun h3 => by rw [h3, h, h2]; rfl
      rcases hp with h | h
      · exact .inl (fdiv_isNan (.inl h))
      · rcases sq d with h2 | h2
        · exact .inl (fdiv_isNan (.inr h2))
        · exact (fdiv_sign _ _).imp id fun h3 => by rw [h3, h, h2]; rfl
    refine ⟨hds', ?_⟩
    show isNan (fadd (besselSum x k).s (besselSum x (k + 1)).ds) = true
      ∨ fle cOne (fadd (besselSum x k).s (besselSum x (k + 1)).ds) = true
    rcases hs with h | h
    · exact .inl (fadd_isNan (.inl h))
    · rcases hds' with h2 | h2
      · exact .inl (fadd_isNan (.inr h2))
      · exact fadd_ge_one h h2

/-- Where the loop of `I0` ends, its sum is from 1.0 on. -/
theorem besselSum_ge_one (x : Word) (k : Nat) (he : (besselSum x k).ends = true) : fle cOne (besselSum x k).s = true := by
  rcases (besselSum_signs x k).2 with h | h
  · have := ((flt_iff _ _).1 he).2.1
    rw [fmul_isNan (.inl h)] at this
    cases this
  · exact h

/-! ### The planning -/

theorem specOk_iff (cfg : Cfg) (spec : Nat × Word) : specOk cfg spec = true ↔ UsableSpec cfg spec := by
  simp [specOk, UsableSpec, and_assoc]

theorem specsOk_iff (cfg : Cfg) (rate : Word) (f : Nat) (ks : List Stage) :
    specsOk cfg rate f ks = true ↔ ∀ k ∈ ks, ∀ dir : Dir, UsableSpec cfg (cfg.stageSpec rate f k dir) := by
  simp only [specsOk, List.all_eq_true, Bool.and_eq_true, specOk_iff]
  exact ⟨fun h k hk dir => by cases dir; exacts [(h k hk).1, (h k hk).2], fun h k hk => ⟨h k hk .up, h k hk .dn⟩⟩

/-- The latency reads the descriptors of the stages in use only. -/
theorem latencyFrom_congr {u u' d d' : PerStage Desc} : ∀ (ks : List Stage) (acc : Nat),
    (∀ k ∈ ks, (u.get k).c = (u'.get k).c ∧ (d.get k).c = (d'.get k).c) →
      latencyFrom u d ks acc = latencyFrom u' d' ks acc
  | [], _, _ => rfl
  | k :: ks, acc, h => by
    simp only [latencyFrom, (h k (by simp)).1, (h k (by simp)).2]
    split
    · rfl
    · exact latencyFrom_congr ks _ fun j hj => h j (by simp [hj])

theorem planMin_isSome (cfg : Cfg) (rate : Word) (os : BitVec 2) :
    (planMin cfg rate os).isSome = true ↔
      (∀ k ∈ stagesOf os, ∀ dir : Dir, UsableSpec cfg (cfg.stageSpec rate (factor os) k dir))
        ∧ ∃ lat, cascadeLatency (planDescs cfg rate (factor os) (stagesOf os) .up)
            (planDescs cfg rate (factor os) (stagesOf os) .dn) os = some lat ∧ lat ≤ cfg.latMax := by
  rw [← specsOk_iff]
  unfold planMin
  simp only
  split
  · rename_i h
    rw [h]
    generalize cascadeLatency _ _ os = r
    cases r with
    | none => simp
    | some lat => by_cases hl : cfg.latMax < lat <;> simp [hl]; omega
  · rename_i h; simp [h]

theorem planLin_eq_some (cfg : Cfg) (rate : Word) (os : BitVec 2) (p : Plan) :
    planLin cfg rate os = some p ↔
      ∃ up dn, rsCreateUp cfg rate (factor os) = some up ∧ rsCreateDn cfg rate (factor os) = some dn
        ∧ cfg.latLin (factor os) ≤ cfg.latMax
        ∧ p = { Plan.bare (cfg.latLin (factor os)) with rsUp := some up, rsDn := some dn } := by
  unfold planLin
  simp only
  generalize rsCreateUp cfg rate (factor os) = up
  generalize rsCreateDn cfg rate (factor os) = dn
  rcases up with _ | up
  · simp
  rcases dn with _ | dn
  · simp
  by_cases hl : cfg.latMax < cfg.latLin (factor os)
  · simp [hl, not_le.2 hl]
  · simp [hl, not_lt.1 hl, eq_comm]

end Sys2Proof.Machine
end

