-- ==== Sys2Proof/Tests/Slice0.lean ====
section
/-! SUPPORT. Tests with expected results from the spec's own examples, and a witness for the hypotheses of every statement. -/

namespace Sys2Proof.Tests

-- One theorem after another: many small kernel evaluations at once ask for more threads than a sandbox has.
set_option Elab.async false

open Sys2Proof Sys2Proof.Machine
open Sys2Proof.Config (Cfg Stage Dir RsState)

/-! ### Helpers -/

/-- The state after a command, or the state itself where the command has no next state. -/
def after (i : Instr) (s : State) : State :=
  match exec i s with
  | .next t => t
  | .fault _ => s
  | .refused _ => s

/-- The state after a step, in the same way. -/
def stepped (s : State) : State :=
  match step s with
  | .next t => t
  | .fault _ => s
  | .refused _ => s

/-- The reset state in another lifecycle state. -/
def inLife (l : Life) : State := { State.reset with core := { Core.reset with life := l } }

/-- A state whose port holds one command word and operand words. -/
def withCommand (s : State) (cw : CmdWord) (opds : List Word) : State :=
  { s with port := { s.port with moves := [.command cw], operands := opds } }

/-- A smoothing coefficient between 0 and 1, for `fExp` between its two ends. -/
def smooth : Word := 0x3F409A841A53B0D8

/-- A configuration: all stages have 3 taps, the Resampler echoes its input. -/
def cfg0 : Cfg where
  stageSpec _ _ _ _ := (3, cZero)
  maxTaps := 31
  latMax := 100
  latLin _ := 50
  rsQuality := cZero
  rsMaxBlock := 8
  rsCreate _ _ _ _ := some ⟨0⟩
  rsProcess st xs := (⟨st.token + 1⟩, xs)
  kaiserBeta := some fun _ => cZero
  midGain _ _ := cTwo
  grMetric n := BitVec.ofNat 64 n
  fTan x := x
  fExp x := if feq x cZero then cOne else if isFinite x then smooth else cZero
  fLog10 _ := cZero
  fPow10 _ := cOne
  fPow _ _ := cZero
  freeWord n := BitVec.ofNat 64 n
  i0Endless _ := cZero

/-- The same with a Resampler that answers two values for one and one for two: the right counts at f = 2. -/
def cfgLin : Cfg := { cfg0 with rsProcess := fun st xs => (⟨st.token + 1⟩, if xs.length = 1 then xs ++ xs else xs.take 1) }

/-- The same with a Resampler whose up calls answer the right count at f = 2 and whose down calls do not. -/
def cfgUp : Cfg := { cfg0 with rsProcess := fun st xs => (⟨st.token + 1⟩, if xs.length = 1 then xs ++ xs else xs) }

/-- 240 Hz, 2400 Hz, 0.3 s and 48000 Hz, the numbers of 30 R95. -/
def hz240 : Word := 0x406E000000000000
def hz2400 : Word := 0x40A2C00000000000
def s0_3 : Word := 0x3FD3333333333333
def hz48000 : Word := 0x40E7700000000000

/-- UNCONF after SETXLO 240.0, SETXHI 2400.0, SETDECAY 0.3 (40 R102's example). -/
def written : State :=
  { State.reset with
    core :=
      { Core.reset with
        pending := { Params.reset with xlo := hz240, xhi := hz2400, decay := s0_3 }
        xloW := true, xhiW := true, decayW := true } }

/-- Inside a block, one channel of binary64 samples, f = 1. -/
def inBlock : State := { State.reset with core := { Core.reset with life := .inblock, fmt := .b64 } }

/-- Inside a block, two channels of binary64 samples, f = 1. -/
def inBlock2 : State := { inBlock with core := { inBlock.core with nch := .stereo } }

/-- Inside a block at f = 2 in MIN mode with the 7-tap table of 43 R184 and R188. -/
def table7 : List Word :=
  [0xBFB0000000000000, 0, 0x3FD4000000000000, 0x3FE0000000000000, 0x3FD4000000000000, 0, 0xBFB0000000000000]
def table7up : List Word :=
  [0xBFC0000000000000, 0, 0x3FE4000000000000, 0x3FF0000000000000, 0x3FE4000000000000, 0, 0xBFC0000000000000]
def inBlockMin : State :=
  let files : Channel := { Channel.reset with hup := ⟨zeros 3, [], []⟩, hdn := ⟨zeros 5, [], []⟩, lq := zeros 3 }
  { inBlock with
    core :=
      { inBlock.core with
        active := { Params.reset with os := 1 }, lat := 3
        descUp := { Core.reset.descUp with k1 := Desc.ofTaps 7 }, descDn := { Core.reset.descDn with k1 := Desc.ofTaps 7 }
        coefUp := { Core.reset.coefUp with k1 := table7up }, coefDn := { Core.reset.coefDn with k1 := table7 }
        chan0 := files, chan1 := files } }

/-- Inside a block at f = 2 in LIN mode, with instances on channel 0. -/
def inBlockLin : State :=
  { inBlock with
    core :=
      { inBlock.core with
        active := { Params.reset with os := 1, phase := .lin }
        chan0 := { Channel.reset with rsUp := some ⟨0⟩, rsDn := some ⟨0⟩ } } }

/-- The same with two channels, instances on both. -/
def inBlockLin2 : State :=
  { inBlockLin with core := { inBlockLin.core with nch := .stereo, chan1 := { Channel.reset with rsUp := some ⟨5⟩, rsDn := some ⟨6⟩ } } }

/-- The same with instances on channel 0 only: a call of channel 1 is a wrong count (log 14). -/
def inBlockLinBare : State := { inBlockLin2 with core := { inBlockLin2.core with chan1 := Channel.reset } }

/-- What the response of a state's last command was, code and result words. -/
def answer (s : State) : Option (RespCode × List Word) := s.lastResponse.map fun r => (r.code, r.results)

/-! ### Well-formedness -/

theorem test_wellFormed_frame_two : WellFormed (.frame [0, 0]) := by decide
theorem test_illFormed_frame_three : ¬WellFormed (.frame [0, 0, 0]) := by decide

/-! ### Decoding: words written out from 30 R81, R82, R86, with the operands of the examples of 40 and 41 -/

theorem test_decode_reset : decode 0x01000000 [] = .ok .reset := by decide
theorem test_decode_prepare : decode 0x02000012 [0x40E7700000000000] = .ok (.prepare 2 1 0x40E7700000000000) := by decide
theorem test_decode_prepare_mono32 : decode 0x02000001 [0x40E7700000000000] = .ok (.prepare 1 0 0x40E7700000000000) := by decide
theorem test_decode_start : decode 0x03000000 [] = .ok .start := by decide
theorem test_decode_stop : decode 0x04000000 [] = .ok .stop := by decide
theorem test_decode_blkbegin : decode 0x08000000 [] = .ok .blkbegin := by decide
theorem test_decode_frame : decode 0x09000000 [0x3FD0000000000000, 0xBFE0000000000000]
    = .ok (.frame [0x3FD0000000000000, 0xBFE0000000000000]) := by decide
theorem test_decode_blkend : decode 0x0A000000 [] = .ok .blkend := by decide
theorem test_decode_setig : decode 0x10000000 [0x3FE0000000000000] = .ok (.setig 0x3FE0000000000000) := by decide
theorem test_decode_setog : decode 0x11000000 [0x4000000000000000] = .ok (.setog 0x4000000000000000) := by decide
theorem test_decode_setmix : decode 0x12000000 [0x3FF0000000000000] = .ok (.setmix 0x3FF0000000000000) := by decide
theorem test_decode_setcurve : decode 0x13000000 [0x3FE0000000000000] = .ok (.setcurve 0x3FE0000000000000) := by decide
theorem test_decode_setclip : decode 0x14000001 [] = .ok (.setclip true) := by decide
theorem test_decode_setsplit : decode 0x15000001 [] = .ok (.setsplit true) := by decide
theorem test_decode_setos : decode 0x16000003 [] = .ok (.setos 3) := by decide
theorem test_decode_setphase : decode 0x17000001 [] = .ok (.setphase .lin) := by decide
theorem test_decode_setxlo : decode 0x18000000 [0x406E000000000000] = .ok (.setxlo 0x406E000000000000) := by decide
theorem test_decode_setxhi : decode 0x19000000 [0x40A2C00000000000] = .ok (.setxhi 0x40A2C00000000000) := by decide
theorem test_decode_setenvm : decode 0x1A000001 [] = .ok (.setenvm .rms) := by decide
theorem test_decode_setdecay : decode 0x1B000000 [0x3FD0000000000000] = .ok (.setdecay 0x3FD0000000000000) := by decide
theorem test_decode_getlat : decode 0x20000000 [] = .ok .getlat := by decide
theorem test_decode_getstat : decode 0x21000000 [] = .ok .getstat := by decide
theorem test_decode_getmeter : decode 0x22000000 [] = .ok .getmeter := by decide
/-- The all-zero word is illegal on purpose (30 R91). -/
theorem test_decode_zero_word : decode 0x00000000 [] = .error .illegalOpcode := by decide
theorem test_decode_past_map : decode 0x23000000 [] = .error .illegalOpcode := by decide
/-- Reserved bits of formats Z, P and O (30 R82, R92). -/
theorem test_decode_reserved_z : decode 0x01000001 [] = .error .reservedBits := by decide
theorem test_decode_reserved_p : decode 0x02000112 [0] = .error .reservedBits := by decide
theorem test_decode_reserved_o : decode 0x16000004 [] = .error .reservedBits := by decide
theorem test_decode_missing_operand : decode 0x10000000 [] = .error .operandCount := by decide
theorem test_encode_prepare : encode (.prepare 2 1 hz48000) = (0x02000012, [hz48000]) := by decide

/-! ### Commands, one step each (40, 41) -/

theorem test_reset : (after .reset inBlock).core = Core.reset ∧ answer (after .reset inBlock) = some (.ok, []) := by decide
/-- 40 R102's example. -/
theorem test_prepare : answer (after (.prepare 2 1 hz48000) written) = some (.ok, [])
    ∧ (after (.prepare 2 1 hz48000) written).core.life = .ready ∧ (after (.prepare 2 1 hz48000) written).core.lat = 0 := by
  decide +kernel
/-- Unwritten corners (70 R332). -/
theorem test_prepare_unwritten : answer (after (.prepare 2 1 hz48000) State.reset) = some (.eConfig, []) := by decide +kernel
theorem test_start : (after .start (inLife .ready)).core.life = .active := by decide
theorem test_start_refused : answer (after .start State.reset) = some (.eState, [])
    ∧ (after .start State.reset).core.status = 0x400 := by decide
theorem test_stop : (after .stop (inLife .active)).core.life = .ready := by decide
theorem test_stop_in_block : answer (after .stop inBlock) = some (.eState, []) := by decide
/-- 40 R108's example: SETOS 1 with `A_OS` = 0. -/
theorem test_blkbegin : (after .blkbegin (after (.setos 1) (inLife .active))).core.status = 7 := by decide +kernel
/-- 46 R243 through FRAME at f = 1: 0.5 gives 0.68359375. -/
theorem test_frame : answer (frameWith cfg0 [0x3FE0000000000000] inBlock) = some (.ok, [0x3FE5E00000000000]) := by decide +kernel
theorem test_frame_refused : answer (after (.frame [0]) (inLife .ready)) = some (.eState, []) := by decide
/-- 40 R119's example: after three FRAMEs `M_NUM` = 3. -/
theorem test_blkend :
    let t := blkendWith cfg0 { inBlock with core := { inBlock.core with blkcnt := 3, mseq := 6 } }
    t.core.meter.num = 3 ∧ t.core.meter.stamp = 7 ∧ t.core.life = .active := by decide +kernel
theorem test_setig : (after (.setig 0x3FE0000000000000) inBlock).core.pending.ig = 0x3FE0000000000000
    ∧ (after (.setig 0x3FE0000000000000) inBlock).core.active.ig = cOne := by decide
theorem test_setog : (after (.setog cTwo) inBlock).core.pending.og = cTwo := by decide
theorem test_setmix_negative_zero : (after (.setmix 0x8000000000000000) State.reset).core.pending.mix = 0x8000000000000000 := by
  decide +kernel
theorem test_setmix_above_one : answer (after (.setmix 0x3FF0000000000001) State.reset) = some (.eRange, []) := by decide +kernel
theorem test_setcurve_nan : answer (after (.setcurve 0x7FF8000000000000) State.reset) = some (.eRange, []) := by decide +kernel
theorem test_setclip : (after (.setclip true) State.reset).core.pending.clip = true := by decide
theorem test_setsplit : (after (.setsplit true) State.reset).core.pending.split = true := by decide
theorem test_setos : (after (.setos 3) State.reset).core.pending.os = 3 ∧ (after (.setos 3) State.reset).core.active.os = 0 := by
  decide
theorem test_setphase : (after (.setphase .lin) State.reset).core.pending.phase = .lin := by decide
theorem test_setxlo : (after (.setxlo hz240) State.reset).core.status = 0x10 := by decide +kernel
theorem test_setxhi : (after (.setxhi hz2400) State.reset).core.status = 0x20 := by decide +kernel
theorem test_setenvm : (after (.setenvm .rms) State.reset).core.pending.envm = .rms := by decide
theorem test_setdecay : (after (.setdecay s0_3) State.reset).core.status = 0x40 := by decide +kernel
theorem test_setdecay_zero : answer (after (.setdecay 0) State.reset) = some (.eRange, []) := by decide +kernel
/-- 41 R145's example. -/
theorem test_getlat : answer (after .getlat { State.reset with core := { Core.reset with lat := 15 } }) = some (.ok, [0x0F]) := by
  decide
/-- 41 R146's example. -/
theorem test_getstat : answer (after .getstat { written with core := { written.core with life := .ready } })
    = some (.ok, [0x71]) := by decide
theorem test_getmeter : answer (after .getmeter State.reset) = some (.ok, [0, 0, 0, 0, 0, 0, 0, 0]) := by decide
/-- The next step takes and runs the placed word. -/
theorem test_withFetchWord : (stepped (State.reset.withFetchWord 32 0x16000003)).core.pending.os = 3 := by decide

/-! ### The components, on the worked examples of their files -/

/-- 42 R170: Design(7, 0.0) = −1/(3π), 0, 1/π, 0.5, 1/π, 0, −1/(3π); 1/π is 0x3FD45F306DC9C883. -/
theorem test_design : (design cfg0 7 cZero).take 4 = [0xBFBB2995E7B7B604, 0, 0x3FD45F306DC9C883, 0x3FE0000000000000] := by
  decide +kernel
/-- 43 R184, steps 1 and 2. -/
theorem test_hbUp : (hbUp (Desc.ofTaps 7) table7up (zeros 3) cOne).out = [0, 0xBFC0000000000000]
    ∧ (hbUp (Desc.ofTaps 7) table7up [cOne, 0, 0] 0).out = [0, 0x3FE4000000000000] := by decide +kernel
/-- 43 R188, steps 1 and 4. -/
theorem test_hbDn : (hbDn (Desc.ofTaps 7) table7 (zeros 5) 0 0xBFC0000000000000).out = [0x3F80000000000000]
    ∧ (hbDn (Desc.ofTaps 7) table7 [0x3FE4000000000000, cOne, 0x3FE4000000000000, 0, 0xBFC0000000000000] 0
        0xBFC0000000000000).out = [0x3FED000000000000] := by decide +kernel
/-- 44 R206's examples. -/
theorem test_cascadeLatency :
    let t := fun a b c : Nat => (⟨Desc.ofTaps a, Desc.ofTaps b, Desc.ofTaps c⟩ : PerStage Desc)
    cascadeLatency (t 31 0 0) (t 31 0 0) 1 = some 15 ∧ cascadeLatency (t 33 17 0) (t 33 17 0) 2 = some 20
      ∧ cascadeLatency (t 31 17 9) (t 31 17 9) 3 = some 20 ∧ cascadeLatency (t 31 15 0) (t 31 15 0) 2 = none := by decide
/-- 45 R228, sub-samples 1 and 2: 1.22998046875 and 1.126220703125. -/
theorem test_split :
    let c := { Core.reset with
      active := { Params.reset with split := true }, cl := 0x3FD0000000000000, ch := 0x3FE8000000000000, g := cTwo, gr := cHalf }
    (nonLinAll c Channel.reset [cOne, cOne]).out = [0x3FF3AE0000000000, 0x3FF2050000000000] := by decide +kernel
/-- 46 R241's table, curve 0.0 and 0.75. -/
theorem test_curveCoefs : curveCoefs cZero = ⟨cOne, cOne, cMinusOne, cQuarter⟩
    ∧ curveCoefs 0x3FE8000000000000 = ⟨0x3FFC000000000000, 0xBFE0000000000000, 0xBFD0000000000000, 0x3F90000000000000⟩ := by
  decide +kernel
/-- 46 R243: Shape(1.5) = 0.75, Shape(−1.5) = −0.75, Shape(1.0) = 1.0, Shape(−3.0) = +0.0. -/
theorem test_shape : shape Curve.reset 0x3FF8000000000000 = 0x3FE8000000000000
    ∧ shape Curve.reset 0xBFF8000000000000 = 0xBFE8000000000000 ∧ shape Curve.reset cOne = cOne
    ∧ shape Curve.reset 0xC008000000000000 = 0 := by decide +kernel
/-- 47 R255, frames 1 to 3 and the three resizes. -/
theorem test_align : alignRun [0, 0] [1, 2, 3] = ([0, 0, 1], [2, 3]) ∧ resize [2, 3] 4 = [2, 3, 0, 0]
    ∧ resize [2, 3, 0, 0] 1 = [0] ∧ resize [2, 3] 1 = [3] := by decide
/-- 47 R255, frame 3: `A_MIX` = 0.25, w = 30, dd = 1 give 8.25. -/
theorem test_mix : mixWetDry cQuarter 0x403E000000000000 cOne = 0x4020800000000000 := by decide +kernel
/-- 48 R268: −50.0, −62.5, −31.25. -/
theorem test_envelope :
    let c := { Core.reset with aatt := cHalf, arel := 0x3FE8000000000000 }
    envUpdate cfg0 c cMinusHundred cOne = 0xC049000000000000 ∧ envUpdate cfg0 c 0xC049000000000000 cZero = 0xC04F400000000000
      ∧ envUpdate cfg0 c 0xC04F400000000000 cMinusOne = 0xC03F400000000000 := by decide +kernel
/-- 48 R262's roundings below the floor of 10 R48 (log 31): with e = nd = −100 and a = 0x3F409A841A53B0D8, `fl(a × e)` and
`fl(fl(1 − a) × nd)` round away from zero and their sum is the word below −100, 0xC059000000000001. -/
theorem test_envelope_rounds_below_floor : envBlend smooth cMinusHundred cMinusHundred = 0xC059000000000001 := by decide +kernel
/-- 49 R284: −2.0 × 0.0 = −0.0; +0.0 + −0.0 = +0.0; a subnormal is not flushed; an overflow is an infinity. -/
theorem test_float_zeros : fmul cMinusTwo cZero = 0x8000000000000000 ∧ fadd cZero 0x8000000000000000 = cZero
    ∧ fmul 0x0010000000000000 cHalf = 0x0008000000000000 ∧ fadd 0x7FEFFFFFFFFFFFFF 0x7FEFFFFFFFFFFFFF = infWord false := by
  decide +kernel
/-- 49 R288: the constants are the quotients of their decimals, rounded once. -/
theorem test_constants : fdiv (ofNat64 1) (ofNat64 100) = cHundredth ∧ fdiv (ofNat64 1) (ofNat64 1000000) = cMillionth
    ∧ fdiv (ofNat64 87) (ofNat64 10) = c8_7 ∧ fdiv (ofNat64 5842) (ofNat64 10000) = c0_5842
    ∧ fdiv (ofNat64 7886) (ofNat64 100000) = c0_07886 ∧ fdiv (ofNat64 1102) (ofNat64 10000) = c0_1102
    ∧ fdiv (ofNat64 4) (ofNat64 10) = c0_4 := by decide +kernel

/-! ### Witnesses: a concrete state and operands for the hypotheses of each statement, clause by clause -/

/-- The smallest positive word, the greatest finite one, the words next to 1.0 and 2.0, the infinities and a NaN. -/
def tiny : Word := 1
def huge : Word := 0x7FEFFFFFFFFFFFFF
def belowOne : Word := 0x3FEFFFFFFFFFFFFF
def aboveOne : Word := 0x3FF0000000000001
def belowTwo : Word := 0x3FFFFFFFFFFFFFFF
def plusInf : Word := 0x7FF0000000000000
def minusInf : Word := 0xFFF0000000000000
def aNan : Word := 0x7FF8000000000000

theorem witness_DecodeOfEncode : WellFormed (.frame [tiny, aNan]) ∧ WellFormed (.frame []) ∧ WellFormed (.prepare 15 15 0) := by
  decide

theorem witness_EncodeOfDecode : decode 0x09000000 [tiny, aNan] = .ok (.frame [tiny, aNan])
    ∧ decode 0x020000FF [0] = .ok (.prepare 15 15 0) := by decide

theorem witness_DecoderCoversEveryWord :
    (immField 0x02000112 &&& ~~~Op.prepare.format.usedImm ≠ 0)
    ∧ (immField 0x020000FF &&& ~~~Op.prepare.format.usedImm = 0 ∧ [hz48000].length = Op.prepare.format.operandWords 2)
    ∧ (opField 0x0A000000 ≠ 0x09) ∧ (opField 0x09FFFFFF = 0x09 ∧ inBlock2.core.life ≠ .unconf) := by decide

theorem witness_IllegalOpcodesRefused :
    (withCommand inBlock2 0x00000000 [0]).port.moves = .command 0x00000000 :: []
    ∧ ∀ b ∈ [(0x00 : BitVec 8), 0x05, 0x07, 0x0B, 0x0F, 0x1C, 0x1F, 0x23, 0xFF], illegalOp b = true := by decide

theorem witness_ReservedBitsRefused :
    ((withCommand inBlock2 0x09800000 [0, 0]).port.moves = .command 0x09800000 :: [] ∧ Op.frame.code = opField 0x09800000
      ∧ immField 0x09800000 &&& ~~~Op.frame.format.usedImm ≠ 0
      ∧ Op.frame.format.operandWords inBlock2.core.frameOperands ≤ (withCommand inBlock2 0x09800000 [0, 0]).port.operands.length)
    ∧ ((inLife .ready).core.life = .ready ∧ ((0 : BitVec 4) ≠ 1 ∧ (0 : BitVec 4) ≠ 2)) ∧ ((15 : BitVec 4) ≠ 0 ∧ (15 : BitVec 4) ≠ 1) := by
  decide

theorem witness_StepRunsDecoded :
    let s := withCommand inBlock2 0x09000000 [tiny, huge, 0]
    s.port.moves = .command 0x09000000 :: [] ∧ s.operandsFor 0x09000000 ≤ s.port.operands.length
      ∧ decode 0x09000000 (s.port.operands.take (s.operandsFor 0x09000000)) = .ok (.frame [tiny, huge]) := by decide

theorem witness_PlacedCommandRuns : WellFormed (.frame [tiny, huge])
    ∧ (Instr.frame [tiny, huge]).operands.length = (Instr.frame [tiny, huge]).op.format.operandWords inBlock2.core.frameOperands
    ∧ (Instr.frame []).operands.length = (Instr.frame []).op.format.operandWords State.reset.core.frameOperands := by decide

theorem witness_EveryCommandAnswered :
    let s := withCommand State.reset 0xFF000000 []
    s.port.moves = .command 0xFF000000 :: [] ∧ s.operandsFor 0xFF000000 ≤ s.port.operands.length := by decide

theorem witness_WaitsForTheHost : State.reset.port.moves = []
    ∧ (withCommand inBlock2 0x09000000 [0]).port.moves = .command 0x09000000 :: []
    ∧ (withCommand inBlock2 0x09000000 [0]).port.operands.length < (withCommand inBlock2 0x09000000 [0]).operandsFor 0x09000000 := by
  decide

theorem witness_PinAndObserver :
    ({ inBlock with port := { inBlock.port with moves := [.resetPin] } } : State).port.moves = .resetPin :: []
    ∧ ({ inBlock with port := { inBlock.port with moves := [.observe] } } : State).port.moves = .observe :: [] := by decide

/-- The core after PREPARE at f = 1 with the example's numbers, in a lifecycle state. -/
def preparedCore (cfg : Cfg) (life : Life) : Core :=
  { prepareCommit cfg written.core .mono .b64 hz48000 (Plan.bare 0) with life := life }

/-- It meets every clause of the invariant, whatever the configuration is. -/
theorem preparedCore_inv (cfg : Cfg) (life : Life) (h : life ≠ .unconf) : (preparedCore cfg life).InvFor cfg := by
  refine ⟨⟨rfl, rfl⟩, ⟨?_, ?_⟩, ?_, ⟨?_, ?_, ?_, ?_, ?_⟩, ?_, ?_, ?_, ⟨rfl, rfl, rfl, rfl⟩, fun hu => absurd hu h⟩
  · intro k; cases k <;> exact ⟨rfl, rfl⟩
  · intro k; cases k <;> exact ⟨rfl, rfl⟩
  · show Curve.reset = curveCoefs cHalf; decide +kernel
  · show isFinite cOne = true ∧ isFinite cOne = true ∧ inUnitRange cOne = true ∧ inUnitRange cHalf = true; decide +kernel
  · show isFinite cOne = true ∧ isFinite cOne = true ∧ inUnitRange cOne = true ∧ inUnitRange cHalf = true; decide +kernel
  · intro _; show isPositiveFinite hz240 = true; decide +kernel
  · intro _; show isPositiveFinite hz2400 = true; decide +kernel
  · intro _; show isPositiveFinite s0_3 = true; decide +kernel
  · intro _
    refine ⟨rfl, rfl, rfl, ?_, ⟨?_, ?_, ?_⟩, show fmul (ofNat64 (factor 0)) hz48000 = fmul (ofNat64 (factor 0)) hz48000 from rfl⟩
    · show isPositiveFinite hz48000 = true; decide +kernel
    · show isPositiveFinite hz240 = true; decide +kernel
    · show isPositiveFinite hz2400 = true; decide +kernel
    · show isPositiveFinite s0_3 = true; decide +kernel
  · intro _; exact ⟨Plan.bare 0, rfl, rfl, rfl, rfl, rfl, rfl⟩
  · intro _; exact ⟨rfl, rfl, rfl, rfl, rfl⟩

/-- The state after that PREPARE, about to take START. -/
def prepared : State :=
  { written with core := preparedCore Config.cfg .ready, port := { written.port with moves := [.command 0x03000000] } }

theorem witness_InvKeptByStep : prepared.core.Inv ∧ ∃ t, step prepared = .next t :=
  ⟨preparedCore_inv _ _ (by decide), _, rfl⟩

/-- Every flag set, in another lifecycle state. -/
def flagged : State :=
  { State.reset with
    core :=
      { Core.reset with
        life := .ready, latchg := true, xloW := true, xhiW := true, decayW := true, nonfin := true, rsfault := true, proto := true } }

theorem witness_StatusRegister :
    ((after .start (inLife .ready)).core.life ≠ (inLife .ready).core.life)
    ∧ (after .blkbegin (after (.setos 1) (inLife .active))).core.latchg = true
    ∧ (after .reset flagged).core.status = 0 ∧ flagged.core.status = 0x775
    ∧ (after (.setxlo tiny) State.reset).core.xloW = true ∧ (after (.setxhi huge) State.reset).core.xhiW = true
    ∧ (after (.setdecay tiny) State.reset).core.decayW = true ∧ (after .stop State.reset).core.proto = true := by decide +kernel

theorem witness_StatusRegister_nonfin : inBlock.core.nonfin = false ∧ (after (.frame [plusInf]) inBlock).core.nonfin = true := by
  decide +kernel

theorem witness_StatusRegister_rsfault :
    let s : State := { inBlockLin with core := { inBlockLin.core with chan0 := Channel.reset } }
    s.core.rsfault = false ∧ (after (.frame [plusInf]) s).core.rsfault = true := by decide +kernel

theorem witness_LifecycleTable : accepts .start .unconf = false ∧ accepts .start .ready = true
    ∧ (after .start (inLife .ready)).lastCode = some .ok ∧ accepts (.prepare 1 0 0) .unconf = true
    ∧ (after (.prepare 1 0 0) State.reset).lastCode = some .eRange := by decide +kernel

theorem witness_RefusalsArePrecise :
    let s := withCommand State.reset 0x03000000 []
    s.port.moves = .command 0x03000000 :: [] ∧ s.operandsFor 0x03000000 ≤ s.port.operands.length
      ∧ (stepped s).port.responses = s.port.responses ++ [⟨.eState, []⟩]
      ∧ flagged.core.proto = true ∧ (stepped (withCommand flagged 0x01000000 [])).core.proto = false := by decide

theorem witness_NeverRefused :
    (∀ i ∈ [Instr.reset, .setclip true, .setsplit true, .setos 3, .setphase .lin, .setenvm .rms, .getlat, .getstat, .getmeter],
      i.op ∈ [Op.reset, .setclip, .setsplit, .setos, .setphase, .setenvm, .getlat, .getstat, .getmeter])
    ∧ accepts (.frame [0]) .inblock = true ∧ accepts .blkbegin .active = true ∧ accepts .blkend .inblock = true
    ∧ accepts .start .ready = true ∧ accepts .stop .active = true := by decide

theorem witness_RequestLine : (after .blkbegin (after (.setphase .lin) (inLife .active))).irqLatchg = true
    ∧ (after .reset flagged).irqLatchg = false ∧ (after .getstat flagged).irqLatchg = true := by decide +kernel

theorem witness_CommitPoints : (inLife .active).core.life = .active ∧ (∃ t, exec .blkbegin (inLife .active) = .next t)
    ∧ (after (.prepare 2 1 hz48000) written).lastCode = some .ok ∧ (Instr.prepare 2 1 hz48000).op = .prepare
    ∧ (∃ t, exec .stop (inLife .active) = .next t) ∧ Op.stop ∉ [Op.reset, .prepare, .blkbegin]
    ∧ ∃ t, exec (.frame [0]) inBlock = .next t := by
  refine ⟨rfl, ⟨_, rfl⟩, by decide +kernel, rfl, ⟨_, rfl⟩, by decide, _, rfl⟩

theorem witness_TablesAndMeterKept : (∃ t, exec .blkbegin (inLife .active) = .next t) ∧ Instr.blkbegin ≠ .reset
    ∧ Instr.blkbegin ≠ .blkend ∧ Instr.blkbegin.op ≠ .prepare
    ∧ (∃ t, exec (.prepare 1 0 0) inBlock = .next t) ∧ inBlock.core.life = .inblock ∧ (inLife .active).core.life = .active := by
  refine ⟨⟨_, rfl⟩, by decide, by decide, by decide, ⟨_, rfl⟩, rfl, rfl⟩

theorem witness_PrepareCompletesAtUnity :
    written.core.life = .unconf ∧ isFinite hz48000 = true ∧ flt cZero hz48000 = true ∧ written.core.xloW = true
      ∧ written.core.xhiW = true ∧ written.core.decayW = true ∧ flt written.core.pending.xlo (fdiv hz48000 cTwo) = true
      ∧ flt written.core.pending.xhi (fdiv hz48000 cTwo) = true ∧ written.core.pending.os = 0 := by decide +kernel

/-- The same with P_OS = 1, and with the phase mode LIN too. -/
def written2 : State := { written with core := { written.core with pending := { written.core.pending with os := 1 } } }
def written2Lin : State := { written with core := { written.core with pending := { written.core.pending with os := 1, phase := .lin } } }

theorem witness_PrepareCommits :
    prepareChecks written2.core 2 1 hz48000 = .ok (.stereo, .b64)
      ∧ (planMode cfg0 hz48000 written2.core.pending.os written2.core.pending.phase).isSome = true
      ∧ prepareChecks written2Lin.core 1 0 hz48000 = .ok (.mono, .b32)
      ∧ (planMode cfg0 hz48000 written2Lin.core.pending.os written2Lin.core.pending.phase).isSome = true
      ∧ prepareChecks written.core 1 0 hz48000 = .ok (.mono, .b32)
      ∧ (planMode cfg0 hz48000 written.core.pending.os written.core.pending.phase).isSome = true := by decide +kernel

theorem witness_HistoriesCleared : (after .start (inLife .ready)).lastCode = some .ok
    ∧ (after .stop (inLife .active)).lastCode = some .ok ∧ (after (.prepare 2 1 hz48000) written).lastCode = some .ok
    ∧ Op.prepare ∈ [Op.start, .stop, .prepare] := by decide +kernel

theorem witness_StartResult : (inLife .ready).core.life = .ready ∧ State.reset.core.life ≠ .ready := by decide

theorem witness_StopResult : (inLife .active).core.life = .active ∧ inBlock.core.life ≠ .active := by decide

theorem witness_BlkbeginResult : (inLife .active).core.life = .active ∧ inBlock.core.life ≠ .active := by decide

theorem witness_BlkendResult : inBlock.core.life = .inblock ∧ (inLife .active).core.life ≠ .inblock := by decide

theorem witness_FrameCompletes : inBlock.core.life = .inblock ∧ inBlock2.core.life = .inblock ∧ flagged.core.nonfin = true
    ∧ flagged.core.rsfault = true := by decide

/-- Silence on one channel at f = 1, on two, through the MIN cascade at f = 2, whatever the configuration of the machine is. -/
theorem witness_FrameResult : inBlock.core.life = .inblock ∧ inBlock.core.nch = .mono
    ∧ (framePath Config.cfg inBlock.core inBlock.core.chan0 0).rightCounts = true
    ∧ (framePath Config.cfg inBlock.core inBlock.core.chan0 0).finite = true
    ∧ inBlock2.core.nch = .stereo ∧ (framePath Config.cfg inBlock2.core inBlock2.core.chan0 0).finite = true
    ∧ (framePath Config.cfg inBlock2.core inBlock2.core.chan1 0).rightCounts = true
    ∧ (framePath Config.cfg inBlock2.core inBlock2.core.chan1 0).finite = true
    ∧ inBlockMin.core.life = .inblock ∧ inBlockMin.core.usesResampler = false ∧ inBlockMin.core.active.os = 1
    ∧ (framePath Config.cfg inBlockMin.core inBlockMin.core.chan0 0).rightCounts = true
    ∧ (framePath Config.cfg inBlockMin.core inBlockMin.core.chan0 0).finite = true := by decide +kernel

/-- LIN mode at f = 2, on two channels, a sample of 0.5. -/
theorem witness_FrameResult_lin : inBlockLin2.core.life = .inblock ∧ inBlockLin2.core.usesResampler = true
    ∧ inBlockLin2.core.nch = .stereo
    ∧ (framePath cfgLin inBlockLin2.core inBlockLin2.core.chan0 cHalf).rightCounts = true
    ∧ (framePath cfgLin inBlockLin2.core inBlockLin2.core.chan0 cHalf).finite = true
    ∧ (framePath cfgLin inBlockLin2.core inBlockLin2.core.chan1 cHalf).rightCounts = true
    ∧ (framePath cfgLin inBlockLin2.core inBlockLin2.core.chan1 cHalf).finite = true := by decide +kernel

theorem witness_NonFiniteSampleFlagged :
    inBlock.core.life = .inblock ∧ (framePath cfg0 inBlock.core inBlock.core.chan0 (memRead [plusInf] 0)).rightCounts = true
    ∧ (framePath cfg0 inBlock.core inBlock.core.chan0 (memRead [plusInf] 0)).finite = false
    ∧ inBlock2.core.nch = .stereo ∧ (framePath cfg0 inBlock2.core inBlock2.core.chan1 (memRead [0, aNan] 1)).rightCounts = true
    ∧ (framePath cfg0 inBlock2.core inBlock2.core.chan1 (memRead [0, aNan] 1)).finite = false
    ∧ (framePath cfg0 inBlock2.core inBlock2.core.chan0 (memRead [0, tiny] 0)).finite = true
    ∧ (framePath cfg0 inBlock2.core inBlock2.core.chan1 (memRead [0, tiny] 1)).finite = true
    ∧ isFinite (sampleIn inBlock.core.fmt (memRead [plusInf] 0)) = false
    ∧ isFinite (sampleIn inBlock2.core.fmt (memRead [0, aNan] 1)) = false
    ∧ { inBlock.core with nonfin := true }.nonfin = true := by decide +kernel

/-- A finite sample whose d is not finite, the clip being off; with the clip on the same t is exempt, and so is `fl(G × mid)`. -/
theorem witness_NonFiniteSampleFlagged_exempt :
    let loud := { inBlock.core with active := { inBlock.core.active with ig := huge } }
    let clippedCore := { loud with active := { loud.active with clip := true } }
    let split := { inBlock.core with active := { inBlock.core.active with split := true }, ch := cOne, g := huge }
    isFinite (sampleIn loud.fmt huge) = true ∧ isFinite (gainClip loud (sampleIn loud.fmt huge)) = false
    ∧ isFinite (fmul huge clippedCore.active.ig) = false ∧ (framePath cfg0 clippedCore clippedCore.chan0 huge).finite = true
    ∧ isFinite (fmul split.g (fsub (fmul split.ch cTwo) (fmul split.cl cTwo))) = false
    ∧ (framePath cfg0 split split.chan0 cTwo).finite = true := by decide +kernel

theorem witness_MonoLeavesChannelOne : inBlock.core.nch = .mono ∧ ∃ t, exec (.frame [0]) inBlock = .next t := ⟨rfl, _, rfl⟩

/-- Channel 1 of two, channel 0 being silent or not finite. -/
theorem witness_ChannelsIndependent : inBlock2.core.life = .inblock ∧ inBlock2.core.nch = .stereo
    ∧ (framePath cfg0 inBlock2.core inBlock2.core.chan1 cHalf).rightCounts = true
    ∧ (framePath cfg0 inBlock2.core inBlock2.core.chan1 cHalf).finite = true
    ∧ (frameWith cfg0 [0, cHalf] inBlock2).core.nonfin = false ∧ (frameWith cfg0 [plusInf, cHalf] inBlock2).core.nonfin = true := by
  decide +kernel

theorem witness_Counters : inBlock.core.life = .inblock ∧ (∃ t, exec (.frame [0]) inBlock = .next t)
    ∧ (∃ t, exec .blkend inBlock = .next t) ∧ inBlockMin.core.lat < 2 ^ 64 ∧ ∃ t, exec .getlat inBlockMin = .next t :=
  ⟨rfl, ⟨_, rfl⟩, ⟨_, rfl⟩, by decide, _, rfl⟩

/-- f = 1 in either mode and MIN mode; then the right counts, a wrong up call, a wrong down call, a wrong call of channel 1 only. -/
theorem witness_ResamplerFaultRaised : inBlock.core.active.phase = .min ∧ inBlock.core.active.os = 0
    ∧ (∀ s ∈ [inBlockLin, inBlockLin2, inBlockLinBare], s.core.life = .inblock ∧ s.core.active.phase = .lin ∧ s.core.active.os ≠ 0)
    ∧ (frameWith cfgLin [cHalf, cHalf] inBlockLin2).core.rsfault = false
    ∧ (rsAnswer cfg0 inBlockLin.core.chan0.rsUp [cHalf]).1.length ≠ 2 ^ inBlockLin.core.active.os.toNat
    ∧ (rsAnswer cfgUp inBlockLin.core.chan0.rsUp [cHalf]).1.length = 2 ^ inBlockLin.core.active.os.toNat
    ∧ (rsAnswer cfgUp inBlockLin.core.chan0.rsDn [cHalf, cHalf]).1.length ≠ 1
    ∧ inBlockLinBare.core.nch = .stereo
    ∧ (rsAnswer cfgLin inBlockLinBare.core.chan1.rsUp [cHalf]).1.length ≠ 2 ^ inBlockLinBare.core.active.os.toNat := by
  decide +kernel

theorem witness_ResamplerCalls : inBlockLin.core.active.phase = .lin ∧ inBlockLin.core.active.os ≠ 0
    ∧ inBlockLin.core.chan0.rsUp = some ⟨0⟩ ∧ inBlockLin.core.chan0.rsDn = some ⟨0⟩
    ∧ cfg0.rsProcess ⟨0⟩ [cOne] = (⟨1⟩, [cOne]) ∧ [cOne].length ≠ 2 ^ inBlockLin.core.active.os.toNat
    ∧ cfg0.rsProcess ⟨0⟩ [cOne, cOne] = (⟨1⟩, [cOne, cOne]) ∧ [cOne, cOne].length ≠ 1
    ∧ [cOne, cOne].length = 2 ^ inBlockLin.core.active.os.toNat := by decide

theorem witness_SetGains : isFinite huge = true ∧ isFinite (fneg huge) = true ∧ isFinite plusInf = false ∧ isFinite aNan = false := by
  decide

theorem witness_SetMixAndCurve : (fle cZero cZero = true ∧ fle cZero cOne = true) ∧ (fle cZero cOne = true ∧ fle cOne cOne = true)
    ∧ fle cZero (fneg tiny) = false ∧ fle aboveOne cOne = false ∧ isNan aNan = true := by decide +kernel

theorem witness_SetCornersAndDecay : (isFinite tiny = true ∧ flt cZero tiny = true) ∧ (isFinite huge = true ∧ flt cZero huge = true)
    ∧ flt cZero cZero = false ∧ isFinite plusInf = false := by decide +kernel

theorem witness_LastEventWins : isSet (.setig plusInf) = true ∧ isSet (.setdecay 0) = true ∧ isSet .blkend = false
    ∧ (Instr.setig plusInf).op = (Instr.setig tiny).op ∧ (∃ t, exec (.setig plusInf) State.reset = .next t)
    ∧ (after (.setig tiny) State.reset).lastCode = some .ok := by
  refine ⟨by decide, by decide, by decide, rfl, ⟨_, rfl⟩, by decide +kernel⟩

/-- UNCONF after SETCLIP: a state other than reset that meets the invariant. -/
def clipped : State := { State.reset with core := { Core.reset with pending := { Params.reset with clip := true } } }

theorem witness_Queries : clipped.core.Inv ∧ clipped.core.life = .unconf ∧ ∃ t, exec .getlat clipped = .next t := by
  refine ⟨⟨⟨rfl, rfl⟩, ⟨?_, ?_⟩, ?_, ⟨?_, ?_, ?_, ?_, ?_⟩, ?_, ?_, ?_, ⟨rfl, rfl, rfl, rfl⟩, fun _ => ⟨rfl, rfl, rfl⟩⟩, rfl, _, rfl⟩
  · intro k; cases k <;> exact ⟨rfl, rfl⟩
  · intro k; cases k <;> exact ⟨rfl, rfl⟩
  · unfold Core.CurveInStep; decide +kernel
  · unfold Params.BlockLegal; decide +kernel
  · unfold Params.BlockLegal; decide +kernel
  all_goals (intro h; first | cases h | exact absurd rfl h)

theorem witness_GainClipBounds :
    let c := { Core.reset with active := { Params.reset with clip := true } }
    c.active.clip = true ∧ isNan (fmul plusInf c.active.ig) = false ∧ flt cOne (fmul plusInf c.active.ig) = true
      ∧ flt (fmul minusInf c.active.ig) cMinusOne = true ∧ flt cOne (fmul aboveOne c.active.ig) = true
      ∧ fle cMinusOne (fmul cOne c.active.ig) = true ∧ fle (fmul cOne c.active.ig) cOne = true
      ∧ fle cMinusOne (fmul cMinusOne c.active.ig) = true := by decide +kernel

theorem witness_GainClipBounds_nan : isNan (fmul aNan Params.reset.ig) = true := by
  rw [show fmul aNan Params.reset.ig = nanWord .mul aNan Params.reset.ig by rfl]
  exact isNan_nanWord _ _ _

theorem witness_ShapeOddAndBounded : feq (fneg cZero) cZero = true ∧ fle cTwo (fabs cTwo) = true ∧ fle cTwo (fabs minusInf) = true
    ∧ (flt cZero (fabs tiny) = true ∧ flt (fabs tiny) cTwo = true)
    ∧ (flt cZero (fabs (fneg belowTwo)) = true ∧ flt (fabs (fneg belowTwo)) cTwo = true)
    ∧ (flt cZero tiny = true ∧ fle tiny cOne = true) ∧ (flt cZero cOne = true ∧ fle cOne cOne = true)
    ∧ (flt cOne aboveOne = true ∧ flt aboveOne cTwo = true) ∧ (flt cOne belowTwo = true ∧ flt belowTwo cTwo = true) := by
  decide +kernel

theorem witness_DescriptorIndices : (3 % 2 = 1 ∧ 3 ≤ 3) ∧ (5 % 2 = 1 ∧ 3 ≤ 5) ∧ (Desc.ofTaps 5).pc = 1 ∧ (Desc.ofTaps 3).pc = 3
    ∧ 0 < (Desc.ofTaps 3).np := by decide

/-- A configuration whose stage 2 has 5 taps, so that at f = 4 both partial sums are even (44 R206): 4, then 1 + 1 + 2. -/
def cfg5 : Cfg := { cfg0 with stageSpec := fun _ _ k _ => (if k = .k2 then 5 else 3, cZero) }

/-- Plans that succeed and plans that fail: an odd partial sum, an even tap count, a latency beyond `LAT_MAX`, no instance. -/
theorem witness_PlannedTables : (planMode cfg0 hz48000 1 .min).isSome = true ∧ Stage.k1 ∈ stagesOf 1
    ∧ 2 < (cfg0.stageSpec hz48000 2 .k1 .up).1 ∧ (planMode cfg0 hz48000 1 .lin).isSome = true
    ∧ (planMode cfg0 hz48000 2 .min).isSome = false
    ∧ (planMode cfg5 hz48000 2 .min).isSome = true
    ∧ (planMode { cfg0 with stageSpec := fun _ _ _ _ => (4, cZero) } hz48000 1 .min).isSome = false
    ∧ (planMode { cfg0 with latMax := 49 } hz48000 1 .lin).isSome = false
    ∧ (planMode { cfg0 with rsCreate := fun _ _ _ _ => none } hz48000 1 .lin).isSome = false := by decide +kernel

/-- Design(5, 0.0) and Design(7, 0.0) with beta = 0: I0(0.0) is 1.0 after one pass, I0(1.0) ends after five. -/
theorem witness_PlannedTables_design : (besselSum cZero 1).ends = true ∧ (besselSum cOne 5).ends = true
    ∧ (∀ j < 5, 1 ≤ j → (besselSum cOne j).ends = false) ∧ (5 % 2 = 1 ∧ 5 % 4 = 1 ∧ 7 % 2 = 1)
    ∧ isFinite (betaRule cfg0 cZero) = true ∧ isFinite (i0 cfg0 (betaRule cfg0 cZero)) = true
    ∧ fle cOne (i0 cfg0 (betaRule cfg0 cZero)) = true ∧ isFinite (wnumRule (i0 cfg0) (betaRule cfg0 cZero) 3 2) = true
    ∧ fle cOne (wnumRule (i0 cfg0) (betaRule cfg0 cZero) 3 2) = true := by decide +kernel

theorem witness_HistoryShift : [cOne].length = (Desc.ofTaps 3).c ∧ 0 < (Desc.ofTaps 3).c
    ∧ [cOne].length = (Desc.ofTaps 3).n - 2 ∧ (zeros 5).length = (Desc.ofTaps 7).n - 2 ∧ 4 < (Desc.ofTaps 7).n - 2 := by decide

theorem witness_CascadeCounts : [cOne].length = 2 ^ inBlock.core.active.os.toNat
    ∧ [cOne, cOne].length = 2 ^ inBlockMin.core.active.os.toNat := by decide

theorem witness_CascadeLatencySum : cascadeLatency inBlockMin.core.descUp inBlockMin.core.descDn 1 = some 3
    ∧ cascadeLatency inBlockMin.core.descUp inBlockMin.core.descDn 0 = some 0
    ∧ cascadeLatency ⟨Desc.ofTaps 31, Desc.ofTaps 15, Desc.unwritten⟩ ⟨Desc.ofTaps 31, Desc.ofTaps 15, Desc.unwritten⟩ 2 = none := by
  decide

theorem witness_SplitOffKeepsSections : inBlock.core.active.split = false
    ∧ { inBlock.core with active := { inBlock.core.active with split := true } }.active.split = true := by decide

theorem witness_MixEnds : isFinite huge = true ∧ isFinite (fneg cZero) = true := by decide

theorem witness_ResizeKeepsSamples : [cOne].length ≤ 1 ∧ [cOne].length ≤ 2 ∧ 1 ≤ [cOne].length ∧ 0 ≤ [cOne].length := by decide

theorem witness_EnvelopeFloor : isNan (newDb cfg0 .peak cOne) = false ∧ feq (fneg cZero) cZero = true
    ∧ feq (fabs (fneg cZero)) cZero = true ∧ feq (fmul tiny tiny) cZero = true ∧ feq (fabs tiny) cZero = false
    ∧ flt cMinusHundred (newDb cfg0 inBlock.core.active.envm cOne) = true
    ∧ flt cMinusHundred (newDb cfg0 inBlock.core.active.envm cZero) = false := by decide +kernel

/-- The properties of 49 R287 hold of the test configuration. -/
theorem cfg0_numerics : CfgNumerics cfg0 := by
  refine ⟨rfl, ?_, ?_, by decide +kernel, by decide +kernel, rfl, ?_, ?_, ?_, rfl⟩
  · intro x h1 h2
    have e : cfg0.fTan x = x := rfl
    rw [e]
    have a : fle cMinusOne (fneg (fdiv cPi 0x4010000000000000)) = true := by decide +kernel
    have b : fle (fdiv cPi 0x4010000000000000) cOne = true := by decide +kernel
    rw [flt_iff] at h1 h2
    rw [fle_iff] at a b
    refine ⟨(fle_iff _ _).2 ⟨a.1, h1.2.1, by omega⟩, (fle_iff _ _).2 ⟨h1.2.1, b.2.1, by omega⟩, rfl, rfl⟩
  · intro x _
    show fle cZero (if feq x cZero then cOne else if isFinite x then smooth else cZero) = true
      ∧ fle (if feq x cZero then cOne else if isFinite x then smooth else cZero) cOne = true
    split
    · decide +kernel
    · split <;> decide +kernel
  · intro _ _; show isFinite cZero = true; decide
  · intro _ _; show fle cZero cOne = true; decide +kernel
  · intro _ _ _; show isFinite cZero = true ∧ fle cZero cZero = true; decide +kernel

/-- The constraints of 00 R6 and 44 R207 hold of the test configuration. -/
theorem cfg0_legal : CfgLegal cfg0 := by
  refine ⟨by decide, fun _ => show 50 ≤ 100 by decide, ?_, by decide, fun _ _ => ?_, fun _ _ _ => ?_⟩
  · have h : ∀ os : BitVec 2, ∀ d : PerStage Desc, d = entryOf (stagesOf os) Desc.unwritten (fun _ => Desc.ofTaps 3) →
        cascadeLatency d d os ≠ some 50 := by
      intro os d hd; subst hd; revert os; decide
    intro rate os lat _ hl heq
    subst heq
    exact h os _ rfl hl
  · show isFinite cTwo = true ∧ feq cTwo cZero = false; decide +kernel
  · show isFinite cZero = true ∧ fle cZero cZero = true; decide +kernel

theorem witness_EnvelopeRanges : CfgNumerics cfg0 ∧ isPositiveFinite tiny = true ∧ isPositiveFinite huge = true
    ∧ isFinite cMinusHundred = true := ⟨cfg0_numerics, by decide +kernel, by decide +kernel, by decide⟩

theorem witness_EnvelopeFloorKept :
    CfgLegal cfg0 ∧ CfgNumerics cfg0 ∧ (preparedCore cfg0 .inblock).InvFor cfg0 ∧ (preparedCore cfg0 .inblock).EnvelopesAboveFloor :=
  ⟨cfg0_legal, cfg0_numerics, preparedCore_inv _ _ (by decide), fun _ e he => by
    have h : e = cMinusHundred := by simpa [preparedCore] using he
    subst h; decide +kernel⟩

theorem witness_SamplePort :
    let exponent := fun v : BitVec 32 => v.extractLsb' 23 8
    let fraction := fun v : BitVec 32 => v.extractLsb' 0 23
    (exponent 0 ≠ 0xFF ∧ exponent 0x807FFFFF ≠ 0xFF ∧ exponent 0x7F7FFFFF ≠ 0xFF)
    ∧ (exponent 0xFF800000 = 0xFF ∧ fraction 0xFF800000 = 0) ∧ (exponent 0x7F800001 = 0xFF ∧ fraction 0x7F800001 ≠ 0)
    ∧ isFinite huge = true ∧ isFinite (fneg cZero) = true ∧ isNan aNan = true := by decide

theorem witness_ComparisonsFollowValues : isNan aNan = true ∧ isFinite huge = true ∧ isFinite (fneg huge) = true
    ∧ isFinite (fneg tiny) = true ∧ plusInf = infWord false ∧ minusInf = infWord true ∧ isFinite plusInf = false := by decide

/-- Finite operands: one and minus one, whose sum is zero, a zero of each sign, the greatest; and a NaN. -/
theorem witness_BasicOperationsRoundOnce : isFinite huge = true ∧ isFinite cOne = true ∧ isFinite cMinusOne = true
    ∧ isFinite (fneg cZero) = true ∧ wordVal cOne ≠ 0 ∧ 0 ≤ wordVal cOne ∧ wordVal cMinusOne < 0
    ∧ wordVal cOne + wordVal cMinusOne = 0 ∧ wordVal cOne - wordVal cOne = 0 ∧ wordVal cZero = 0 ∧ wordVal (fneg cZero) = 0
    ∧ isNan aNan = true := by
  have h1 : unpack cOne = .fin false (2 ^ 52) (-52) := by decide +kernel
  have h2 : unpack cMinusOne = .fin true (2 ^ 52) (-52) := by decide +kernel
  have h3 : unpack cZero = .fin false 0 (-1074) := by decide +kernel
  have h4 : unpack (fneg cZero) = .fin true 0 (-1074) := by decide +kernel
  have v1 : wordVal cOne = 1 := by simp only [wordVal, h1]; norm_num
  have v2 : wordVal cMinusOne = -1 := by simp only [wordVal, h2]; norm_num
  have v3 : wordVal cZero = 0 := by simp only [wordVal, h3]; norm_num
  have v4 : wordVal (fneg cZero) = 0 := by simp only [wordVal, h4]; norm_num
  rw [v1, v2, v3, v4]
  refine ⟨by decide, by decide, by decide, by decide, by norm_num, by norm_num, by norm_num, by norm_num, by norm_num, rfl, rfl, by decide⟩

end Sys2Proof.Tests
end

/-! ## Proofs about the state: the invariant, `STATUS`, the files and tables (10_state.md) -/

namespace Sys2Proof.Machine

open Sys2Proof.Config (Cfg Stage Dir RsState)

/-! ### The stage descriptors (O46) -/

/-- The fields of a descriptor by its tap count 4q + 1 or 4q + 3 (10 R40). -/
theorem ofTaps_cases {n : Nat} (ho : n % 2 = 1) :
    (∃ q, n = 4 * q + 1 ∧ Desc.ofTaps n = ⟨n, 2 * q, q, 1, 1, q⟩)
      ∨ ∃ q, n = 4 * q + 3 ∧ Desc.ofTaps n = ⟨n, 2 * q + 1, q, 3, 0, q + 1⟩ := by
  obtain h | h : n % 4 = 1 ∨ n % 4 = 3 := by omega
  · refine .inl ⟨n / 4, by omega, ?_⟩
    have hc : (n - 1) / 2 = 2 * (n / 4) := by omega
    simp [Desc.ofTaps, h, hc]
  · refine .inr ⟨n / 4, by omega, ?_⟩
    have hc : (n - 1) / 2 = 2 * (n / 4) + 1 := by omega
    have ht : (2 * (n / 4) + 1) / 2 = n / 4 := by omega
    simp [Desc.ofTaps, h, hc, ht]

/-! ### The filter design and the planning (O47, O13) -/

/-! #### Arithmetic at 0.0 and from 1.0 on -/

theorem msb_of_ge_one {w : Word} (h : fle cOne w = true) : w.msb = false := by
  have hk := ((fle_iff _ _).1 h).2.2
  rw [orderKey_eq w, show orderKey cOne = 1023 * 2 ^ 52 by decide] at hk
  cases hm : w.msb
  · rfl
  · rw [hm, if_pos rfl] at hk; omega

theorem one_le_of_ge_one {w : Word} {s : Bool} {m : Nat} {e : Int} (hw : unpack w = .fin s m e) (h : fle cOne w = true) :
    (1 : ℝ) ≤ m * 2 ^ e := by
  obtain ⟨ex, frac, hn, hf, h1, h2⟩ := exists_normal (isFinite_of_unpack hw) h
  rw [unpack_normal hn hf (by omega) h2] at hw
  cases hw
  calc (1 : ℝ) = 2 ^ 52 * 2 ^ (-52 : ℤ) := by norm_num
    _ ≤ (2 ^ 52 + frac : ℕ) * 2 ^ (-1074 + (ex : ℤ) - 1) := by
      gcongr
      · push_cast; linarith [(Nat.cast_nonneg frac : (0 : ℝ) ≤ frac)]
      · norm_num
      · omega

/-- Rounding carries no value from 1.0 on below it. -/
theorem round64_ge_one {m : Nat} {e : Int} (h : (1 : ℝ) ≤ m * 2 ^ e) : fle cOne (round64 false m e) = true := by
  refine (fle_iff _ _).2 ⟨by decide, isNan_round64 _ _ _, ?_⟩
  have hm := roundMag_mono binary64 (by decide) (m := 1) (d := 0) (n := m) (e := e) (by simpa using h)
  rw [show roundMag binary64 1 0 = 1023 * 2 ^ 52 by decide +kernel] at hm
  rw [orderKey_round64, show orderKey cOne = 1023 * 2 ^ 52 by decide]
  simp only [Bool.false_eq_true, if_false]
  exact_mod_cast hm

theorem ofNat64_ge_one {n : Nat} (h : 1 ≤ n) : fle cOne (ofNat64 n) = true :=
  round64_ge_one (by simpa using h)

/-- A square of a word from 1.0 on is from 1.0 on, an overflow to +∞ included. -/
theorem fmul_self_ge_one {a : Word} (ha : fle cOne a = true) : fle cOne (fmul a a) = true := by
  have hs := msb_of_ge_one ha
  cases hu : unpack a with
  | nan => exact absurd (isNan_of_unpack hu) (by rw [((fle_iff _ _).1 ha).2.1]; decide)
  | inf s => rw [fmul_inf_inf hu hu, Bool.xor_self]; decide
  | fin s m e =>
    rw [fmul_finite hu hu, Bool.xor_self]
    refine round64_ge_one ?_
    have h1 := one_le_of_ge_one hu ha
    calc (1 : ℝ) ≤ (m * 2 ^ e) * (m * 2 ^ e) := one_le_mul_of_one_le_of_one_le h1 h1
      _ = (m * m : ℕ) * 2 ^ (e + e) := by rw [zpow_add₀ (by norm_num)]; push_cast; ring

/-- +0.0 divided by a word from 1.0 on, +∞ included, is +0.0. -/
theorem zero_fdiv_of_ge_one {b : Word} (h : fle cOne b = true) : fdiv cZero b = cZero := by
  have hz : unpack cZero = .fin false 0 (-1074) := unpack_zeroWord false
  have hs := msb_of_ge_one h
  cases hb : unpack b with
  | nan => exact absurd (isNan_of_unpack hb) (by rw [((fle_iff _ _).1 h).2.1]; decide)
  | inf t => rw [fdiv_fin_inf hz hb, (msb_of_unpack_inf hb).1, hs]; rfl
  | fin t n e =>
    have hn : n ≠ 0 := by
      rintro rfl
      have := one_le_of_ge_one hb h
      norm_num at this
    rw [fdiv_fin_fin hz hb, if_neg hn, (unpack_fin hb).1, hs]
    simp only [divFinite, Nat.zero_mul, Nat.zero_div, Nat.zero_mod, if_true, Nat.mul_zero, Nat.add_zero, round64_zero]
    rfl

theorem zero_fmul_of_ge_one {w : Word} (hf : isFinite w = true) (h : fle cOne w = true) : fmul cZero w = cZero := by
  rw [zero_fmul hf, msb_of_ge_one h]; rfl

theorem fmul_one {w : Word} (h : isFinite w = true) : fmul w cOne = w := by
  obtain ⟨s, m, e, hw⟩ := unpack_of_finite h
  obtain ⟨t, n, d, h1⟩ := unpack_of_finite (show isFinite cOne = true by decide)
  rw [fmul_finite hw h1, Bool.xor_comm, Nat.mul_comm, Int.add_comm, ← fmul_finite h1 hw, one_fmul h]

/-! #### The design -/

/-- At the centre the window's numerator is `I0(beta)` (42 R164 at n = 0). -/
theorem wnumRule_zero (bessel : Word → Word) {beta : Word} {c : Nat} (hc : 1 ≤ c) (hb : isFinite beta = true) :
    wnumRule bessel beta c 0 = bessel beta := by
  have h0 : fmul (ofNat64 0) (ofNat64 0) = cZero := by decide +kernel
  have h1 : fsqrt (fsub cOne cZero) = cOne := by decide +kernel
  unfold wnumRule
  rw [if_neg (by omega), h0, zero_fdiv_of_ge_one (fmul_self_ge_one (ofNat64_ge_one hc)), h1, fmul_one hb]

theorem wnumRule_end (bessel : Word → Word) (beta : Word) (c : Nat) : wnumRule bessel beta c c = bessel cZero := if_pos rfl

theorem idealRule_even {j : Nat} (h : j % 2 = 0) (h0 : j ≠ 0) : idealRule j = cZero := by
  unfold idealRule
  rw [if_neg h0, if_neg (by omega), if_neg (by omega)]

/-- The coefficients of `Design` on both sides of the centre, by the rules (42 R167). -/
theorem design_getElem?_rule (cfg : Cfg) (n : Nat) (att : Word) {j : Nat} (hj : j ≤ (n - 1) / 2) :
    let v := fdiv (fmul (idealRule j) (wnumRule (i0 cfg) (betaRule cfg att) ((n - 1) / 2) j)) (i0 cfg (betaRule cfg att))
    (design cfg n att)[(n - 1) / 2 + j]? = some v ∧ (design cfg n att)[(n - 1) / 2 - j]? = some v := by
  have h := design_getElem? cfg n att hj
  rw [kaiserBeta_eq] at h
  unfold coefAt at h
  rw [ideal_eq, windowNum_eq] at h
  exact h

/-- A table is its own mirror image (42 R167). -/
theorem design_symmetric (cfg : Cfg) {n : Nat} (att : Word) (ho : n % 2 = 1) {j : Nat} (hj : j < n) :
    (design cfg n att)[j]? = (design cfg n att)[n - 1 - j]? := by
  rcases Nat.le_total j ((n - 1) / 2) with h | h
  · obtain ⟨hi, lo⟩ := design_getElem? cfg n att (Nat.sub_le ((n - 1) / 2) j)
    rw [show (n - 1) / 2 - ((n - 1) / 2 - j) = j by omega] at lo
    rw [show (n - 1) / 2 + ((n - 1) / 2 - j) = n - 1 - j by omega] at hi
    rw [hi, lo]
  · obtain ⟨hi, lo⟩ := design_getElem? cfg n att (j := j - (n - 1) / 2) (by omega)
    rw [show (n - 1) / 2 + (j - (n - 1) / 2) = j by omega] at hi
    rw [show (n - 1) / 2 - (j - (n - 1) / 2) = n - 1 - j by omega] at lo
    rw [hi, lo]

/-- The centre tap is 0.5 (42 R167 (b)). -/
theorem design_centre (cfg : Cfg) {n : Nat} (att : Word) (h3 : 3 ≤ n) (hb : isFinite (betaRule cfg att) = true)
    (hf : isFinite (i0 cfg (betaRule cfg att)) = true) (h1 : fle cOne (i0 cfg (betaRule cfg att)) = true) :
    (design cfg n att)[(n - 1) / 2]? = some cHalf := by
  have h := (design_getElem?_rule cfg n att (Nat.zero_le _)).1
  rwa [wnumRule_zero _ (by omega) hb, show idealRule 0 = cHalf from rfl, half_fmul_fdiv hf h1] at h

/-- The taps at an even distance from the centre are +0.0 (42 R167 (c)). -/
theorem design_even (cfg : Cfg) {n : Nat} (att : Word) {j : Nat} (hj : j ≤ (n - 1) / 2) (he : j % 2 = 0) (h0 : j ≠ 0)
    (h1 : fle cOne (i0 cfg (betaRule cfg att)) = true)
    (hf : isFinite (wnumRule (i0 cfg) (betaRule cfg att) ((n - 1) / 2) j) = true)
    (hw : fle cOne (wnumRule (i0 cfg) (betaRule cfg att) ((n - 1) / 2) j) = true) :
    (design cfg n att)[(n - 1) / 2 + j]? = some cZero ∧ (design cfg n att)[(n - 1) / 2 - j]? = some cZero := by
  have h := design_getElem?_rule cfg n att hj
  rwa [idealRule_even he h0, zero_fmul_of_ge_one hf hw, zero_fdiv_of_ge_one h1] at h

/-- The end taps for `PC` = 1 are +0.0 (42 R167 (d)): the window's numerator there is `I0(0.0)` = 1.0. -/
theorem design_ends (cfg : Cfg) {n : Nat} (att : Word) (h3 : 3 ≤ n) (h4 : n % 4 = 1)
    (h1 : fle cOne (i0 cfg (betaRule cfg att)) = true) :
    (design cfg n att)[0]? = some cZero ∧ (design cfg n att)[n - 1]? = some cZero := by
  have hw : wnumRule (i0 cfg) (betaRule cfg att) ((n - 1) / 2) ((n - 1) / 2) = cOne := by rw [wnumRule_end, i0_zero]
  obtain ⟨hi, lo⟩ := design_even cfg att (le_refl ((n - 1) / 2)) (by omega) (by omega) h1 (by rw [hw]; decide)
    (by rw [hw]; decide +kernel)
  rw [Nat.sub_self] at lo
  rw [show (n - 1) / 2 + (n - 1) / 2 = n - 1 by omega] at hi
  exact ⟨lo, hi⟩

/-! #### The plan -/

/-- When `PlanMode` succeeds in MIN mode, and with what plan. -/
theorem planMin_eq_some (cfg : Cfg) (rate : Word) (os : BitVec 2) (p : Plan) :
    planMin cfg rate os = some p ↔
      (∀ k ∈ stagesOf os, ∀ dir : Dir, UsableSpec cfg (cfg.stageSpec rate (factor os) k dir))
        ∧ ∃ lat, cascadeLatency (planDescs cfg rate (factor os) (stagesOf os) .up)
            (planDescs cfg rate (factor os) (stagesOf os) .dn) os = some lat
          ∧ lat ≤ cfg.latMax
          ∧ p =
            { descUp := planDescs cfg rate (factor os) (stagesOf os) .up
              descDn := planDescs cfg rate (factor os) (stagesOf os) .dn
              coefUp := planTables cfg rate (factor os) (stagesOf os) .up
              coefDn := planTables cfg rate (factor os) (stagesOf os) .dn
              lat := lat, rsUp := none, rsDn := none } := by
  rw [← specsOk_iff]
  unfold planMin
  simp only
  split
  next h =>
    generalize cascadeLatency _ _ os = r
    cases r with
    | none => simp
    | some lat =>
      by_cases hl : cfg.latMax < lat
      · simp [hl, not_le.2 hl]
      · simp [h, hl, not_lt.1 hl, eq_comm]
  next h => simp [h]

theorem entryOf_get {α : Type} {stages : List Stage} {k : Stage} (h : k ∈ stages) (u : α) (v : Stage → α) :
    (entryOf stages u v).get k = v k := by
  simp [entryOf, h]

theorem planMode_min {cfg : Cfg} {rate : Word} {os : BitVec 2} (h : os ≠ 0) : planMode cfg rate os .min = planMin cfg rate os :=
  if_neg h

theorem planMode_lin {cfg : Cfg} {rate : Word} {os : BitVec 2} (h : os ≠ 0) : planMode cfg rate os .lin = planLin cfg rate os :=
  if_neg h

/-- The latency of a plan is that of the descriptors of all three stages, the stages not in use among them, which it does not
read (44 R206). -/
theorem cascadeLatency_planDescs (cfg : Cfg) (rate : Word) (f : Nat) (os : BitVec 2) :
    cascadeLatency (planDescs cfg rate f (stagesOf os) .up) (planDescs cfg rate f (stagesOf os) .dn) os
      = cascadeLatency (PerStage.ofFn fun k => Desc.ofTaps (cfg.stageSpec rate f k .up).1)
          (PerStage.ofFn fun k => Desc.ofTaps (cfg.stageSpec rate f k .dn).1) os := by
  refine latencyFrom_congr _ _ fun k hk => ?_
  unfold planDescs
  rw [entryOf_get (List.mem_reverse.1 hk), entryOf_get (List.mem_reverse.1 hk), PerStage.get_ofFn, PerStage.get_ofFn]
  exact ⟨rfl, rfl⟩

/-- A design scaled tap by tap keeps its length and its symmetry (42 R169). -/
theorem scaledDesign_symmetric (cfg : Cfg) {n : Nat} (att : Word) (ho : n % 2 = 1) (g : Word → Word) :
    ((design cfg n att).map g).length = n
      ∧ ∀ j < n, ((design cfg n att).map g)[j]? = ((design cfg n att).map g)[n - 1 - j]? := by
  refine ⟨by rw [List.length_map, length_design cfg n att ho], fun j hj => ?_⟩
  rw [List.getElem?_map, List.getElem?_map, design_symmetric cfg att ho hj]

/-- What a successful plan holds for a stage in use in MIN mode (40 R103, 42 R168, R169). -/
theorem planMin_stage {cfg : Cfg} {rate : Word} {os : BitVec 2} {p : Plan} (h : planMin cfg rate os = some p) {k : Stage}
    (hk : k ∈ stagesOf os) :
    let su := cfg.stageSpec rate (factor os) k .up
    let sd := cfg.stageSpec rate (factor os) k .dn
    UsableSpec cfg su ∧ UsableSpec cfg sd
      ∧ p.descUp.get k = Desc.ofTaps su.1 ∧ p.descDn.get k = Desc.ofTaps sd.1
      ∧ p.coefUp.get k = (design cfg su.1 su.2).map (fmul cTwo) ∧ p.coefDn.get k = design cfg sd.1 sd.2 := by
  obtain ⟨usable, lat, -, -, rfl⟩ := (planMin_eq_some _ _ _ _).1 h
  exact ⟨usable k hk .up, usable k hk .dn, entryOf_get hk _ _, entryOf_get hk _ _, entryOf_get hk _ _, entryOf_get hk _ _⟩

/-! ### The core's invariant (O12, O13) -/

/-- What the invariant asks of the files of one channel (10 R42, R43, R47, R51). -/
structure Core.ChannelFits (c : Core) (ch : Channel) : Prop where
  lq : ch.lq.length = c.lat
  hist : c.HistoriesFit ch
  rsUp : ch.rsUp.isSome = c.usesResampler
  rsDn : ch.rsDn.isSome = c.usesResampler

/-- What the invariant asks of the registers, the tables among them. -/
structure Core.RegistersInStep (cfg : Cfg) (c : Core) : Prop where
  curve : c.CurveInStep
  params : c.ParamsLegal
  prepared : c.PreparedLegal
  plan : c.PlanInStep cfg
  coefs : c.CoefsInStep cfg
  bare : c.UnconfiguredBare

/-- The invariant, sorted by channel and registers. -/
theorem invFor_iff (cfg : Cfg) (c : Core) :
    c.InvFor cfg ↔ c.ChannelFits c.chan0 ∧ c.ChannelFits c.chan1 ∧ c.RegistersInStep cfg := by
  constructor
  · rintro ⟨⟨q0, q1⟩, ⟨h0, h1⟩, curve, params, prepared, plan, coefs, ⟨u0, d0, u1, d1⟩, bare⟩
    exact ⟨⟨q0, h0, u0, d0⟩, ⟨q1, h1, u1, d1⟩, curve, params, prepared, plan, coefs, bare⟩
  · rintro ⟨⟨q0, h0, u0, d0⟩, ⟨q1, h1, u1, d1⟩, curve, params, prepared, plan, coefs, bare⟩
    exact ⟨⟨q0, q1⟩, ⟨h0, h1⟩, curve, params, prepared, plan, coefs, ⟨u0, d0, u1, d1⟩, bare⟩

/-! #### Reset -/

theorem blockLegal_reset : Params.reset.BlockLegal := by
  unfold Params.BlockLegal; decide +kernel

theorem channelFits_reset : Core.reset.ChannelFits Channel.reset where
  lq := rfl
  hist k := by cases k <;> exact ⟨rfl, rfl⟩
  rsUp := rfl
  rsDn := rfl

theorem registersInStep_reset (cfg : Cfg) : Core.reset.RegistersInStep cfg where
  curve := by unfold Core.CurveInStep; decide +kernel
  params := ⟨blockLegal_reset, blockLegal_reset, nofun, nofun, nofun⟩
  prepared h := absurd rfl h
  plan h := absurd rfl h
  coefs h := absurd rfl h
  bare _ := ⟨rfl, rfl, rfl⟩

theorem invFor_reset (cfg : Cfg) : Core.reset.InvFor cfg :=
  (invFor_iff _ _).2 ⟨channelFits_reset, channelFits_reset, registersInStep_reset cfg⟩

/-! #### The setters and the refusal -/

/-- The invariant does not read `PROTO`, which is all that a refusal writes (60 R301). -/
theorem invFor_refuse {cfg : Cfg} {s : State} (code : RespCode) (h : s.core.InvFor cfg) : (s.refuse code).core.InvFor cfg := h

/-- A setter keeps the invariant where the pending copy it writes is legal and it clears no written flag. -/
theorem invFor_setPending {cfg : Cfg} {c : Core} (h : c.InvFor cfg) {p : Params} {wlo whi wd : Bool} (hb : p.BlockLegal)
    (hlo : wlo = true → isPositiveFinite p.xlo = true) (hhi : whi = true → isPositiveFinite p.xhi = true)
    (hd : wd = true → isPositiveFinite p.decay = true)
    (mlo : c.xloW = true → wlo = true) (mhi : c.xhiW = true → whi = true) (md : c.decayW = true → wd = true) :
    ({ c with pending := p, xloW := wlo, xhiW := whi, decayW := wd } : Core).InvFor cfg := by
  obtain ⟨queues, hists, curve, params, prepared, plan, coefs, insts, bare⟩ := h
  refine ⟨queues, hists, curve, ⟨hb, params.2.1, hlo, hhi, hd⟩, fun hl => ?_, plan, coefs, insts, bare⟩
  obtain ⟨w1, w2, w3, rest⟩ := prepared hl
  exact ⟨mlo w1, mhi w2, md w3, rest⟩

/-- A setter of one of the registers 0 to 7 and 10, which have no written flag. -/
theorem invFor_setUnflagged {cfg : Cfg} {c : Core} (h : c.InvFor cfg) {p : Params} (hb : p.BlockLegal)
    (hlo : p.xlo = c.pending.xlo) (hhi : p.xhi = c.pending.xhi) (hd : p.decay = c.pending.decay) :
    ({ c with pending := p } : Core).InvFor cfg := by
  obtain ⟨-, -, -, ⟨-, -, lo, hi, d⟩, -⟩ := id h
  exact invFor_setPending h hb (hlo ▸ lo) (hhi ▸ hi) (hd ▸ d) id id id

/-- A SET whose operand is checked keeps the invariant if the accepted write does. -/
theorem invFor_setRanged {cfg : Cfg} {s t : State} {legal : Bool} {c : Core} (h : s.core.InvFor cfg)
    (e : s.setRanged legal c = .next t) (hc : legal = true → c.InvFor cfg) : t.core.InvFor cfg := by
  rcases setRanged_cases e with ⟨hl, rfl⟩ | ⟨-, rfl⟩
  · exact hc hl
  · exact invFor_refuse _ h

/-! #### START and STOP -/

/-- A successful planning in LIN mode with f > 1 has created both instances (40 R103). -/
theorem rsCreate_isSome_of_planMode {cfg : Cfg} {rate : Word} {os : BitVec 2} {p : Plan} (hos : os ≠ 0)
    (h : planMode cfg rate os .lin = some p) :
    (rsCreateUp cfg rate (factor os)).isSome = true ∧ (rsCreateDn cfg rate (factor os)).isSome = true := by
  rcases planMode_cases h with ⟨h0, -⟩ | ⟨-, hp, -⟩ | ⟨-, -, hp⟩
  · exact absurd h0 hos
  · cases hp
  · obtain ⟨up, dn, hu, hd, -⟩ := (planLin_eq_some _ _ _ _).1 hp
    exact ⟨by rw [hu]; rfl, by rw [hd]; rfl⟩

/-- The planned instances are present exactly in LIN mode with f > 1 (40 R103). -/
theorem planMode_instances {cfg : Cfg} {rate : Word} {os : BitVec 2} {phase : Phase} {p : Plan}
    (h : planMode cfg rate os phase = some p) :
    p.rsUp.isSome = (decide (phase = .lin) && os != 0) ∧ p.rsDn.isSome = (decide (phase = .lin) && os != 0) := by
  rcases planMode_cases h with ⟨rfl, rfl⟩ | ⟨-, rfl, hp⟩ | ⟨hos, rfl, hp⟩
  · simp [Plan.bare]
  · obtain ⟨-, lat, -, -, rfl⟩ := (planMin_eq_some _ _ _ _).1 hp
    exact ⟨rfl, rfl⟩
  · obtain ⟨up, dn, -, -, -, rfl⟩ := (planLin_eq_some _ _ _ _).1 hp
    rw [bne_iff_ne.2 hos]
    exact ⟨rfl, rfl⟩

theorem usesResampler_iff (c : Core) : c.usesResampler = true ↔ c.active.phase = .lin ∧ c.active.os ≠ 0 := by
  simp [Core.usesResampler]

/-- START and STOP keep the shape of a channel's files (40 R105). -/
theorem channelFits_restartChannel {cfg : Cfg} {c : Core} {ch : Channel} (h : c.ChannelFits ch) (hp : c.PlanInStep cfg)
    (hl : c.life ≠ .unconf) : c.ChannelFits (restartChannel cfg c ch) := by
  have cleared : c.ChannelFits ch.clearFilters := ⟨h.lq, fun k => by simpa using h.hist k, h.rsUp, h.rsDn⟩
  unfold restartChannel
  split
  next hr =>
    have hu := (usesResampler_iff c).2 hr
    obtain ⟨p, hplan, -⟩ := hp hl
    rw [hr.1] at hplan
    obtain ⟨up, dn⟩ := rsCreate_isSome_of_planMode hr.2 hplan
    exact ⟨cleared.lq, cleared.hist, up.trans hu.symm, dn.trans hu.symm⟩
  next => exact cleared

/-- START and STOP keep the invariant outside UNCONF (40 R105, R106). -/
theorem invFor_restart {cfg : Cfg} {c : Core} {life : Life} (h : c.InvFor cfg) (hl : c.life ≠ .unconf) (hl' : life ≠ .unconf) :
    (restart cfg c life).InvFor cfg := by
  obtain ⟨h0, h1, curve, params, prepared, plan, coefs, -⟩ := (invFor_iff _ _).1 h
  obtain ⟨q0, f0, u0, d0⟩ := channelFits_restartChannel h0 plan hl
  obtain ⟨q1, f1, u1, d1⟩ := channelFits_restartChannel h1 plan hl
  exact (invFor_iff _ _).2 ⟨⟨q0, f0, u0, d0⟩, ⟨q1, f1, u1, d1⟩, curve, params, fun _ => prepared hl, fun _ => plan hl,
    fun _ => coefs hl, fun e => absurd e hl'⟩

/-! #### PREPARE -/

/-- PREPARE gives every file the length of its plan (40 R102). -/
theorem channelFits_prepareChannel {cfg : Cfg} {c : Core} {chs : Channels} {sf : SampleFormat} {rate : Word} {p : Plan}
    (hp : planMode cfg rate c.pending.os c.pending.phase = some p) (ch : Channel) :
    (prepareCommit cfg c chs sf rate p).ChannelFits (prepareChannel p ch) where
  lq := by simp
  hist k := by simp
  rsUp := (planMode_instances hp).1
  rsDn := (planMode_instances hp).2

/-- A successful PREPARE reaches the invariant from a state that meets it (40 R102). -/
theorem invFor_prepareCommit {cfg : Cfg} {c : Core} {nch fmt : BitVec 4} {f : Channels × SampleFormat} {rate : Word} {p : Plan}
    (h : c.InvFor cfg) (hc : prepareChecks c nch fmt rate = .ok f) (hp : planMode cfg rate c.pending.os c.pending.phase = some p) :
    (prepareCommit cfg c f.1 f.2 rate p).InvFor cfg := by
  obtain ⟨-, -, curve, ⟨pend, act, lo, hi, d⟩, -⟩ := (invFor_iff _ _).1 h
  obtain ⟨-, -, -, -, hrate, wlo, whi, wd, -⟩ := prepareChecks_ok hc
  refine (invFor_iff _ _).2 ⟨channelFits_prepareChannel hp _, channelFits_prepareChannel hp _, curve, ⟨pend, act, lo, hi, d⟩,
    fun _ => ⟨wlo, whi, wd, hrate, ⟨lo wlo, hi whi, d wd⟩, rfl⟩, fun _ => ⟨p, hp, rfl, rfl, rfl, rfl, rfl⟩,
    fun _ => ⟨rfl, rfl, rfl, rfl, rfl⟩, nofun⟩

/-! #### BLKBEGIN and BLKEND -/

theorem invFor_beginBlock {cfg : Cfg} {c : Core} (h : c.InvFor cfg) (hl : c.life ≠ .unconf) : (beginBlock c).InvFor cfg := by
  obtain ⟨⟨q0, f0, u0, d0⟩, ⟨q1, f1, u1, d1⟩, -, ⟨pend, -, flagged⟩, prepared, plan, coefs, -⟩ := (invFor_iff _ _).1 h
  exact (invFor_iff _ _).2 ⟨⟨q0, f0, u0, d0⟩, ⟨q1, f1, u1, d1⟩, rfl, ⟨pend, pend, flagged⟩, fun _ => prepared hl,
    fun _ => plan hl, fun _ => coefs hl, nofun⟩

theorem invFor_endBlock {cfg : Cfg} {c : Core} (n : Nat) (h : c.InvFor cfg) (hl : c.life ≠ .unconf) :
    (endBlock cfg c n).InvFor cfg := by
  obtain ⟨⟨q0, f0, u0, d0⟩, ⟨q1, f1, u1, d1⟩, curve, params, prepared, plan, coefs, -⟩ := (invFor_iff _ _).1 h
  exact (invFor_iff _ _).2 ⟨⟨q0, f0, u0, d0⟩, ⟨q1, f1, u1, d1⟩, curve, params, fun _ => prepared hl,
    fun _ => plan hl, fun _ => coefs hl, nofun⟩

/-! #### FRAME: every operation of the sample path keeps the shape of its channel's files -/

theorem resample_inst_isSome (cfg : Cfg) (n : Nat) (inst : Option RsState) (input : List Word) (want : Nat) :
    (resample cfg n inst input want).inst.isSome = inst.isSome := by
  rcases resample_cases cfg n inst input want with ⟨st, rfl, -, -, hi, -⟩ | ⟨-, hi, -⟩
  · rw [hi]; rfl
  · exact hi

theorem channelFits_convertUp {cfg : Cfg} {c : Core} {n : Nat} {ch : Channel} {d : Word} (h : c.ChannelFits ch) :
    c.ChannelFits (convertUp cfg c n ch d).chan := by
  unfold convertUp
  split
  · exact h
  · split
    · refine ⟨h.lq, fun k => ⟨?_, (h.hist k).2⟩, h.rsUp, h.rsDn⟩
      exact length_cascade_hist upStage (fun k => (c.descUp.get k).c) _ _ (fun _ hist xs => length_upStage_hist _ _ xs hist) _ _ _
        (fun j => (h.hist j).1) k
    · exact ⟨h.lq, h.hist, (resample_inst_isSome _ _ _ _ _).trans h.rsUp, h.rsDn⟩

theorem channelFits_convertDown {cfg : Cfg} {c : Core} {n : Nat} {ch : Channel} {p : List Word} (h : c.ChannelFits ch) :
    c.ChannelFits (convertDown cfg c n ch p).chan := by
  unfold convertDown
  split
  · exact h
  · split
    · refine ⟨h.lq, fun k => ⟨(h.hist k).1, ?_⟩, h.rsUp, h.rsDn⟩
      exact length_cascade_hist dnStage (fun k => (c.descDn.get k).n - 2) _ _ (fun _ hist xs => length_dnStage_hist _ _ xs hist) _ _ _
        (fun j => (h.hist j).2) k
    · exact ⟨h.lq, h.hist, h.rsUp, (resample_inst_isSome _ _ _ _ _).trans h.rsDn⟩

theorem channelFits_nonLinAll {c : Core} {ch : Channel} {vs : List Word} (h : c.ChannelFits ch) :
    c.ChannelFits (nonLinAll c ch vs).chan := by
  obtain ⟨hup, hdn, lq, -, -, rsUp, rsDn⟩ := nonLinAll_frame c vs ch
  exact ⟨by rw [lq]; exact h.lq, fun k => by rw [hup, hdn]; exact h.hist k, by rw [rsUp]; exact h.rsUp,
    by rw [rsDn]; exact h.rsDn⟩

theorem channelFits_processChannel {cfg : Cfg} {c : Core} {n : Nat} {ch : Channel} {x : Word} (h : c.ChannelFits ch) :
    c.ChannelFits (processChannel cfg c n ch x).chan := by
  have converted := channelFits_convertDown (cfg := cfg)
    (n := n + (convertUp cfg c n ch (gainClip c x)).used)
    (p := (nonLinAll c (convertUp cfg c n ch (gainClip c x)).chan (convertUp cfg c n ch (gainClip c x)).out).out)
    (channelFits_nonLinAll (vs := (convertUp cfg c n ch (gainClip c x)).out) (channelFits_convertUp (cfg := cfg) (n := n)
      (d := gainClip c x) h))
  exact ⟨(length_align _ _).trans converted.lq, converted.hist, converted.rsUp, converted.rsDn⟩

theorem channelFits_scrambleChannel {c : Core} {free : Nat → Word} {n : Nat} {ch : Channel} (h : c.ChannelFits ch) :
    c.ChannelFits (scrambleChannel free n ch).1 :=
  ⟨by simpa using h.lq, fun k => by simpa using h.hist k, h.rsUp, h.rsDn⟩

theorem channelFits_frameChannel {cfg : Cfg} {c : Core} {n : Nat} {ch : Channel} {opd : Word} (h : c.ChannelFits ch) :
    c.ChannelFits (frameChannel cfg c n ch opd).chan := by
  obtain ⟨r, rfl, -, ⟨-, hc, -⟩ | ⟨-, hc, -⟩⟩ := frameChannel_cases cfg c n ch opd
  · rw [hc]; exact channelFits_processChannel h
  · rw [hc]; exact channelFits_scrambleChannel (channelFits_processChannel h)

/-- FRAME keeps the invariant: it writes only files, flags and counters (40 R110). -/
theorem invFor_frameCore {cfg : Cfg} {c : Core} (n : Nat) (samples : List Word) (h : c.InvFor cfg) :
    (frameCore c (frameChannels cfg c n samples)).InvFor cfg := by
  obtain ⟨h0, h1, curve, params, prepared, plan, coefs, bare⟩ := (invFor_iff _ _).1 h
  obtain ⟨e0, e1⟩ := frameChannels_cases cfg c n samples
  have fit0 : c.ChannelFits (frameChannels cfg c n samples).1.chan := by rw [e0]; exact channelFits_frameChannel h0
  have fit1 : c.ChannelFits (frameChannels cfg c n samples).2.chan := by
    rcases e1 with ⟨-, e⟩ | ⟨-, n', e⟩
    · rw [e]; exact h1
    · rw [e]; exact channelFits_frameChannel h1
  exact (invFor_iff _ _).2 ⟨⟨fit0.lq, fit0.hist, fit0.rsUp, fit0.rsDn⟩, ⟨fit1.lq, fit1.hist, fit1.rsUp, fit1.rsDn⟩,
    curve, params, prepared, plan, coefs, bare⟩

/-! #### Commands and steps -/

/-- A command that UNCONF does not accept is accepted outside UNCONF (40 R100). -/
theorem life_ne_unconf {i : Instr} {l : Life} (ha : accepts i l = true) (hi : accepts i .unconf = false) : l ≠ .unconf := by
  rintro rfl
  rw [hi] at ha
  cases ha

/-- Every command keeps the invariant. -/
theorem inv_exec {i : Instr} {s t : State} (h : s.core.Inv) (e : exec i s = .next t) : t.core.Inv := by
  obtain ⟨⟨ig, og, mix, curve⟩, -, lo, hi, d⟩ := ((invFor_iff _ _).1 h).2.2.params
  cases i
  case setig v => exact invFor_setRanged h e fun hv => invFor_setUnflagged h ⟨hv, og, mix, curve⟩ rfl rfl rfl
  case setog v => exact invFor_setRanged h e fun hv => invFor_setUnflagged h ⟨ig, hv, mix, curve⟩ rfl rfl rfl
  case setmix v => exact invFor_setRanged h e fun hv => invFor_setUnflagged h ⟨ig, og, hv, curve⟩ rfl rfl rfl
  case setcurve v => exact invFor_setRanged h e fun hv => invFor_setUnflagged h ⟨ig, og, mix, hv⟩ rfl rfl rfl
  case setxlo v =>
    exact invFor_setRanged h e fun hv => invFor_setPending h ⟨ig, og, mix, curve⟩ (fun _ => hv) hi d (fun _ => rfl) id id
  case setxhi v =>
    exact invFor_setRanged h e fun hv => invFor_setPending h ⟨ig, og, mix, curve⟩ lo (fun _ => hv) d id (fun _ => rfl) id
  case setdecay v =>
    exact invFor_setRanged h e fun hv => invFor_setPending h ⟨ig, og, mix, curve⟩ lo hi (fun _ => hv) id id (fun _ => rfl)
  all_goals
    rcases exec_cases e with ⟨code, rfl, -⟩ | ⟨-, ha, hc⟩
    · exact invFor_refuse code h
    unfold Core.Inv
  case reset => rw [hc]; exact invFor_reset _
  case prepare => obtain ⟨f, p, hk, hp, hc⟩ := hc; rw [hc]; exact invFor_prepareCommit h hk hp
  case start => rw [hc]; exact invFor_restart h (life_ne_unconf ha rfl) nofun
  case stop => rw [hc]; exact invFor_restart h (life_ne_unconf ha rfl) nofun
  case blkbegin => rw [hc]; exact invFor_beginBlock h (life_ne_unconf ha rfl)
  case frame => rw [hc]; exact invFor_frameCore _ _ h
  case blkend => rw [hc]; exact invFor_endBlock _ h (life_ne_unconf ha rfl)
  case getlat => rw [hc]; exact h
  case getstat => rw [hc]; exact h
  case getmeter => rw [hc]; exact h
  all_goals rw [hc]; exact invFor_setUnflagged h ⟨ig, og, mix, curve⟩ rfl rfl rfl

/-- What a step does to the core: a command, a refused illegal command, the reset pin, or nothing (20 R66). -/
theorem step_core_cases {s t : State} (h : step s = .next t) :
    t.core = s.core ∨ t.core = Core.reset ∨ (∃ s' : State, s'.core = s.core ∧ t = s'.refuse .eIllegal)
      ∨ ∃ (i : Instr) (s' : State), s'.core = s.core ∧ exec i s' = .next t := by
  unfold step at h
  rcases fetch_cases s with e | ⟨_, -, e⟩ | ⟨_, -, e⟩ | ⟨_, _, i, -, -, -, e⟩ | ⟨_, _, _, -, -, -, e⟩ <;> rw [e] at h
  · cases h; exact .inl rfl
  · cases h; exact .inr (.inl rfl)
  · cases h; exact .inl rfl
  · exact .inr (.inr (.inr ⟨i, s.popCommand _, rfl, h⟩))
  · cases h; exact .inr (.inr (.inl ⟨s.popCommand _, rfl, rfl⟩))

/-! ### `STATUS`: its layout, and which commands change which bit (O15) -/

/-- The layout of `STATUS`, bit by bit (10 R36). -/
theorem status_layout (c : Core) :
    c.status.extractLsb' 0 2 = c.life.code ∧ c.status.getLsbD 2 = c.latchg ∧ c.status.getLsbD 3 = false
      ∧ c.status.getLsbD 4 = c.xloW ∧ c.status.getLsbD 5 = c.xhiW ∧ c.status.getLsbD 6 = c.decayW
      ∧ c.status.getLsbD 7 = false ∧ c.status.getLsbD 8 = c.nonfin ∧ c.status.getLsbD 9 = c.rsfault
      ∧ c.status.getLsbD 10 = c.proto ∧ c.status.extractLsb' 11 21 = 0 := by
  have bit (j : Nat) : c.status.getLsbD j =
      ((0 : BitVec 21) ++ BitVec.ofBool c.proto ++ BitVec.ofBool c.rsfault ++ BitVec.ofBool c.nonfin ++ (0 : BitVec 1)
        ++ BitVec.ofBool c.decayW ++ BitVec.ofBool c.xhiW ++ BitVec.ofBool c.xloW ++ (0 : BitVec 1)
        ++ BitVec.ofBool c.latchg ++ c.life.code).getLsbD j := rfl
  simp only [BitVec.getLsbD_append] at bit
  refine ⟨BitVec.extractLsb'_append_eq_right, ?_, ?_, ?_, ?_, ?_, ?_, ?_, ?_, ?_, ?reserved⟩
  case reserved =>
    apply BitVec.eq_of_getLsbD_eq
    intro i hi
    rw [BitVec.getLsbD_extractLsb', bit]
    repeat rw [if_neg (by omega)]
    simp
  all_goals rw [bit]; simp

/-- How a command may change a bit: not at all, to 0 where it may clear it, to 1 where it may set it. -/
def FlagChange (sets clears : Prop) (before after : Bool) : Prop :=
  after = before ∨ (clears ∧ after = false) ∨ (sets ∧ after = true)

section
variable {sets clears : Prop} {before after : Bool}

theorem FlagChange.of_set (h : FlagChange sets clears before after) (hb : before = false) (ha : after = true) : sets := by
  rcases h with h | ⟨-, h⟩ | ⟨h, -⟩
  · rw [h, hb] at ha; cases ha
  · rw [h] at ha; cases ha
  · exact h

theorem FlagChange.of_clear (h : FlagChange sets clears before after) (hb : before = true) (ha : after = false) : clears := by
  rcases h with h | ⟨h, -⟩ | ⟨-, h⟩
  · rw [h, hb] at ha; cases ha
  · exact h
  · rw [h] at ha; cases ha

/-- A sticky bit, set where `x` is 1. -/
theorem flagChange_or {x : Bool} (h : x = true → sets) : FlagChange sets clears before (before || x) := by
  cases x
  · exact .inl (Bool.or_false before)
  · exact .inr (.inr ⟨h rfl, Bool.or_true before⟩)

end

/-- The only commands that change each piece of `STATUS` (10 R36). -/
structure StatusChange (i : Instr) (s t : State) : Prop where
  life : t.core.life = s.core.life ∨ i.op ∈ [Op.reset, Op.prepare, Op.start, Op.stop, Op.blkbegin, Op.blkend]
  latchg : FlagChange (i = .blkbegin ∧ s.core.modeDiffers = true) (i = .reset ∨ (i.op = .prepare ∧ t.lastCode = some .ok))
    s.core.latchg t.core.latchg
  xloW : FlagChange (i.op = .setxlo) (i = .reset) s.core.xloW t.core.xloW
  xhiW : FlagChange (i.op = .setxhi) (i = .reset) s.core.xhiW t.core.xhiW
  decayW : FlagChange (i.op = .setdecay) (i = .reset) s.core.decayW t.core.decayW
  nonfin : FlagChange (i.op = .frame) (i = .reset) s.core.nonfin t.core.nonfin
  rsfault : FlagChange (i.op = .frame) (i = .reset) s.core.rsfault t.core.rsfault
  proto : FlagChange (t.lastCode = some .eState) (i = .reset) s.core.proto t.core.proto

/-- The codes of `exec` that set `PROTO`: `E_ILLEGAL` is the step's alone (60 R301). -/
theorem eState_of_setsProto {code : RespCode} (h : code.setsProto = true) (hi : code ≠ .eIllegal) : code = .eState := by
  cases code with
  | eState => rfl
  | eIllegal => exact absurd rfl hi
  | _ => cases h

theorem statusChange_refuse {i : Instr} {s : State} {code : RespCode} (h : code ≠ .eIllegal) :
    StatusChange i s (s.refuse code) := by
  refine ⟨.inl rfl, .inl rfl, .inl rfl, .inl rfl, .inl rfl, .inl rfl, .inl rfl, flagChange_or fun hc => ?_⟩
  rw [lastCode_refuse, eState_of_setsProto hc h]

/-- What a command that answers `OK` does to `STATUS`, one case for each that changes a bit. -/
theorem statusChange_ok {i : Instr} {s t : State} (ht : t.lastCode = some .ok) (h : CoreAfter s t.core i) :
    StatusChange i s t := by
  obtain ⟨c, port, n⟩ := t
  cases i with
  | reset =>
    cases h
    have cleared (sets : Prop) (b : Bool) : FlagChange sets (Instr.reset = .reset) b false := .inr (.inl ⟨rfl, rfl⟩)
    exact ⟨.inr (by decide), .inr (.inl ⟨.inl rfl, rfl⟩), cleared _ _, cleared _ _, cleared _ _, cleared _ _, cleared _ _,
      cleared _ _⟩
  | prepare =>
    obtain ⟨_, _, -, -, rfl⟩ := h
    exact ⟨.inr (by simp [Instr.op]), .inr (.inl ⟨.inr ⟨rfl, ht⟩, rfl⟩), .inl rfl, .inl rfl, .inl rfl, .inl rfl, .inl rfl,
      .inl rfl⟩
  | start | stop | blkend =>
    cases h
    exact ⟨.inr (by decide), .inl rfl, .inl rfl, .inl rfl, .inl rfl, .inl rfl, .inl rfl, .inl rfl⟩
  | blkbegin =>
    cases h
    exact ⟨.inr (by decide), flagChange_or fun hm => ⟨rfl, hm⟩, .inl rfl, .inl rfl, .inl rfl, .inl rfl, .inl rfl, .inl rfl⟩
  | frame =>
    cases h
    have sticky {b x y : Bool} : FlagChange (Op.frame = .frame) (Instr.frame ‹_› = .reset) b (b || x || y) := by
      rw [Bool.or_assoc]; exact flagChange_or fun _ => rfl
    exact ⟨.inl rfl, .inl rfl, .inl rfl, .inl rfl, .inl rfl, sticky, sticky, .inl rfl⟩
  | setxlo =>
    cases h
    exact ⟨.inl rfl, .inl rfl, .inr (.inr ⟨rfl, rfl⟩), .inl rfl, .inl rfl, .inl rfl, .inl rfl, .inl rfl⟩
  | setxhi =>
    cases h
    exact ⟨.inl rfl, .inl rfl, .inl rfl, .inr (.inr ⟨rfl, rfl⟩), .inl rfl, .inl rfl, .inl rfl, .inl rfl⟩
  | setdecay =>
    cases h
    exact ⟨.inl rfl, .inl rfl, .inl rfl, .inl rfl, .inr (.inr ⟨rfl, rfl⟩), .inl rfl, .inl rfl, .inl rfl⟩
  | _ =>
    cases h
    exact ⟨.inl rfl, .inl rfl, .inl rfl, .inl rfl, .inl rfl, .inl rfl, .inl rfl, .inl rfl⟩

theorem exec_statusChange {i : Instr} {s t : State} (h : exec i s = .next t) : StatusChange i s t := by
  rcases exec_cases h with ⟨code, rfl, -, hc, -⟩ | ⟨ht, -, hc⟩
  · exact statusChange_refuse hc
  · exact statusChange_ok ht hc

/-! ### Cleared histories (O25) -/

theorem mem_zeros {n : Nat} {w : Word} (h : w ∈ zeros n) : w = 0 := List.eq_of_mem_replicate h

theorem mem_clearStages {t : PerStage (List Word)} {k : Stage} {w : Word} (h : w ∈ (clearStages t).get k) : w = 0 := by
  cases k <;> exact mem_zeros h

theorem restartChannel_hup (cfg : Cfg) (c : Core) (ch : Channel) : (restartChannel cfg c ch).hup = clearStages ch.hup := by
  unfold restartChannel; split <;> rfl

theorem restartChannel_hdn (cfg : Cfg) (c : Core) (ch : Channel) : (restartChannel cfg c ch).hdn = clearStages ch.hdn := by
  unfold restartChannel; split <;> rfl

/-- Every history element of a channel is +0.0 (10 R44). -/
def HistoriesZero (ch : Channel) : Prop := ∀ k : Stage, (∀ w ∈ ch.hup.get k, w = 0) ∧ ∀ w ∈ ch.hdn.get k, w = 0

theorem historiesZero_restartChannel (cfg : Cfg) (c : Core) (ch : Channel) : HistoriesZero (restartChannel cfg c ch) := by
  intro k
  rw [restartChannel_hup, restartChannel_hdn]
  exact ⟨fun _ => mem_clearStages, fun _ => mem_clearStages⟩

theorem historiesZero_prepareChannel (p : Plan) (ch : Channel) : HistoriesZero (prepareChannel p ch) := by
  intro k
  rw [prepareChannel_hup, prepareChannel_hdn, PerStage.get_ofFn, PerStage.get_ofFn]
  exact ⟨fun _ => mem_zeros, fun _ => mem_zeros⟩

/-- The cores that START, STOP and PREPARE leave have both channels' histories cleared. -/
theorem historiesZero_coreAfter {i : Instr} {s : State} {c : Core} (hi : i.op ∈ [Op.start, .stop, .prepare])
    (h : CoreAfter s c i) : HistoriesZero c.chan0 ∧ HistoriesZero c.chan1 := by
  cases i with
  | start | stop => cases h; exact ⟨historiesZero_restartChannel _ _ _, historiesZero_restartChannel _ _ _⟩
  | prepare =>
    obtain ⟨_, _, -, -, rfl⟩ := h
    exact ⟨historiesZero_prepareChannel _ _, historiesZero_prepareChannel _ _⟩
  | _ => simp [Instr.op] at hi

end Sys2Proof.Machine

namespace Sys2Proof.Proofs

open Sys2Proof Sys2Proof.Machine

/-! ### The statements -/

/-- Settles O12: the reset values meet every clause, whatever the configuration is. -/
theorem invHoldsAtReset : Obligations.InvHoldsAtReset := invFor_reset Config.cfg

/-- Settles O13, by what a step can do to the core and, for a command, by its constructor. -/
theorem invKeptByStep : Obligations.InvKeptByStep := by
  intro s t h e
  rcases step_core_cases e with hc | hc | ⟨s', hs, rfl⟩ | ⟨i, s', hs, hx⟩
  · rw [hc]; exact h
  · rw [hc]; exact invFor_reset _
  · exact invFor_refuse _ (hs ▸ h)
  · exact inv_exec (hs ▸ h) hx

/-- Settles O15: the layout bit by bit, and what each command can change. -/
theorem statusRegister : Obligations.StatusRegister := by
  refine ⟨status_layout, by decide, fun _ => rfl, fun i s t h => ?_⟩
  obtain ⟨life, latchg, xloW, xhiW, decayW, nonfin, rsfault, proto⟩ := exec_statusChange h
  exact ⟨life.resolve_left, latchg.of_set, latchg.of_clear, xloW.of_set, xloW.of_clear, xhiW.of_set, xhiW.of_clear,
    decayW.of_set, decayW.of_clear, nonfin.of_set, nonfin.of_clear, rsfault.of_set, rsfault.of_clear,
    proto.of_set, proto.of_clear⟩

/-- Settles O25: a refused command does not answer `OK`, and each of the three leaves cleared channels. -/
theorem historiesCleared : Obligations.HistoriesCleared := by
  intro i s t hi h hok ch hch
  rcases exec_cases h with ⟨code, rfl, hne, -⟩ | ⟨-, -, hc⟩
  · rw [lastCode_refuse] at hok
    exact absurd (Option.some.inj hok) hne
  · obtain ⟨h0, h1⟩ := historiesZero_coreAfter hi hc
    rcases List.mem_pair.1 hch with rfl | rfl
    · exact h0
    · exact h1

/-- Settles O33: a frame of a mono stream hands channel 1 on as it is, and a refused one changes no channel. -/
theorem monoLeavesChannelOne : Obligations.MonoLeavesChannelOne := by
  intro samples s t hm h
  cases h
  rcases frame_cases samples s with ⟨-, hc, -⟩ | ⟨-, e⟩
  · rcases (frameChannels_cases Config.cfg s.core s.freeCount samples).2 with ⟨-, h1⟩ | ⟨hs, -⟩
    · rw [hc, frameCore_chan1, h1]; rfl
    · rw [hm] at hs; cases hs
  · rw [e]; rfl

/-- Settles O47, clause by clause from the facts about the planning, `I0` and `Design`. -/
theorem plannedTables : Obligations.PlannedTables := by
  refine ⟨fun cfg rate os p h => ?_, fun _ _ _ => rfl, fun cfg rate os hos => ⟨?_, fun p => ?_⟩,
    fun cfg x k h1 h2 he hn => i0_eq cfg h1 h2 he hn, besselSum_ge_one, i0_zero, fun cfg n att ho h3 => ?_⟩
  · rcases planMode_cases h with ⟨rfl, rfl⟩ | ⟨-, -, hp⟩ | ⟨-, hl, -⟩
    · exact ⟨Nat.zero_le _, fun k hk => absurd hk (List.not_mem_nil)⟩
    · obtain ⟨-, lat, -, hlat, e⟩ := (planMin_eq_some _ _ _ _).1 hp
      refine ⟨by rw [e]; exact hlat, fun k hk => ?_⟩
      obtain ⟨⟨ou, u3, um, -⟩, ⟨od, d3, dm, -⟩, du, dd, cu, cd⟩ := planMin_stage hp hk
      obtain ⟨lu, mu⟩ := scaledDesign_symmetric cfg (cfg.stageSpec rate (factor os) k .up).2 ou (fmul cTwo)
      exact ⟨ou, u3, um, od, d3, dm, du, dd, congrArg Desc.n du, congrArg Desc.n dd, cu, cd, cu ▸ lu,
        cd ▸ length_design cfg _ _ od, cu ▸ mu, cd ▸ fun j hj => design_symmetric cfg _ od hj⟩
    · cases hl
  · rw [planMode_min hos, planMin_isSome, cascadeLatency_planDescs]
    rfl
  · rw [planMode_lin hos, planLin_eq_some]
    rfl
  · intro c beta ib wnum
    exact ⟨length_design cfg n att ho, fun j hj => design_getElem?_rule cfg n att hj, fun hf h1 =>
      ⟨fun hb => design_centre cfg att h3 hb hf h1,
        fun j hj he h0 hwf hw => design_even cfg att hj he h0 h1 hwf hw,
        fun h4 => design_ends cfg att h3 h4 h1⟩⟩

/-- A block at f = 1 right after PREPARE, on the test configuration, whose smoothing coefficients are those of log 31. -/
def blockAtFloor : State := { Tests.written with core := Tests.preparedCore Tests.cfg0 .inblock }

/-- One frame of silence leaves `NONFIN` clear and the input envelope one place below −100. -/
theorem silence_below_floor :
    (frameWith Tests.cfg0 [0] blockAtFloor).core.nonfin = false
      ∧ (frameWith Tests.cfg0 [0] blockAtFloor).core.chan0.envIn = 0xC059000000000001 := by
  decide +kernel

/-- Refutes O56: silence keeps the new dB value at −100, and the three roundings of 48 R262 carry the envelope from −100 to
the word below it. -/
theorem not_envelopeFloorKept : ¬ Obligations.EnvelopeFloorKept := by
  intro h
  obtain ⟨legal, numerics, inv, floor⟩ := Tests.witness_EnvelopeFloorKept
  obtain ⟨finite, env⟩ := silence_below_floor
  have kept := h Tests.cfg0 [0] blockAtFloor legal numerics inv floor finite _ (List.mem_cons_self ..)
  rw [env] at kept
  exact absurd kept (by decide +kernel)

/-- Settles O46: with the fields in closed form for either kind of tap count, every clause is linear. -/
theorem descriptorIndices : Obligations.DescriptorIndices := by
  intro n ho h3 d
  rcases ofTaps_cases ho with ⟨q, rfl, e⟩ | ⟨q, rfl, e⟩ <;> rw [show d = _ from e]
  · refine ⟨rfl, ?_, ?_, ?_, ?_, .inl rfl, fun _ => rfl, nofun, rfl, ?_, ?_, fun i (hi : i < q) => ?_⟩ <;> dsimp only <;> omega
  · refine ⟨rfl, ?_, ?_, ?_, ?_, .inr rfl, nofun, fun _ => rfl, rfl, ?_, ?_, fun i (hi : i < q + 1) => ?_⟩ <;> dsimp only <;> omega

end Sys2Proof.Proofs

/-! ## Proofs about the commands' effects: the step, the commit points, what PREPARE and BLKEND alone write (20_memory.md) -/

namespace Sys2Proof.Machine

open Sys2Proof.Config (Cfg)

/-! ### The step runs the decoded command (O7) -/

/-- A command whose operand words are there and that decodes is fetched whole (30 R80). -/
theorem fetch_of_decode {s : State} {cw : CmdWord} {rest : List Move} {i : Instr} (hm : s.port.moves = .command cw :: rest)
    (hn : s.operandsFor cw ≤ s.port.operands.length)
    (hd : decode cw (s.port.operands.take (s.operandsFor cw)) = .ok i) :
    fetch s = .run i (s.popCommand (s.operandsFor cw)) := by
  simp only [fetch, hm, if_neg (Nat.not_lt.2 hn), hd]

/-- What the port holds after a command is taken from its head. -/
theorem popCommand_of_moves {s : State} {m : Move} {rest : List Move} (hm : s.port.moves = m :: rest) (n : Nat) :
    s.popCommand n = { s with port := { s.port with moves := rest, operands := s.port.operands.drop n } } := by
  rw [State.popCommand, hm, List.tail_cons]

/-! ### What a command keeps, from its two outcomes -/

/-- A command that answers `OK` leaves the core that its rule gives. -/
theorem coreAfter_of_ok {i : Instr} {s t : State} (h : exec i s = .next t) (hok : t.lastCode = some .ok) :
    CoreAfter s t.core i := by
  rcases exec_cases h with ⟨code, rfl, hne, -⟩ | ⟨-, -, hc⟩
  · rw [lastCode_refuse] at hok
    exact absurd (Option.some.inj hok) hne
  · exact hc

/-- What a refusal keeps, a command keeps if it keeps it where it answers `OK`. -/
theorem exec_keeps {α : Type} {f : Core → α} {i : Instr} {s t : State} (h : exec i s = .next t)
    (refused : ∀ code, f (s.refuse code).core = f s.core)
    (completed : t.lastCode = some .ok → CoreAfter s t.core i → f t.core = f s.core) : f t.core = f s.core := by
  rcases exec_cases h with ⟨code, rfl, -⟩ | ⟨hok, -, hc⟩
  · exact refused code
  · exact completed hok hc

/-! ### The commit points (O20) -/

/-- RESET, PREPARE and BLKBEGIN alone write an active copy (20 R68). -/
theorem active_of_coreAfter {i : Instr} {s : State} {c : Core} (hi : i.op ∉ [Op.reset, .prepare, .blkbegin])
    (h : CoreAfter s c i) : c.active = s.core.active := by
  cases i with
  | reset | prepare | blkbegin => simp [Instr.op] at hi
  | _ => cases h; rfl

/-- The core with other pending copies. -/
def Core.withPending (c : Core) (p : Params) : Core := { c with pending := p }

/-- The state with other pending copies. -/
def State.withPending (s : State) (p : Params) : State := s.setCore (s.core.withPending p)

section
variable (cfg : Cfg) (c : Core) (p : Params)

/-- The waveshaper reads the curve, the split coefficients and the active `SPLIT` (40 R114). -/
theorem nonLin_withPending (ch : Channel) (v : Word) : nonLin (c.withPending p) ch v = nonLin c ch v := rfl

theorem nonLinAll_withPending (ch : Channel) (vs : List Word) : nonLinAll (c.withPending p) ch vs = nonLinAll c ch vs := by
  induction vs generalizing ch with
  | nil => rfl
  | cons v vs ih => simp only [nonLinAll, nonLin_withPending, ih]

/-- The rate conversions read the active mode, the descriptors and the tables (40 R113, R115). -/
theorem convertUp_withPending (n : Nat) (ch : Channel) (d : Word) :
    convertUp cfg (c.withPending p) n ch d = convertUp cfg c n ch d := rfl

theorem convertDown_withPending (n : Nat) (ch : Channel) (ws : List Word) :
    convertDown cfg (c.withPending p) n ch ws = convertDown cfg c n ch ws := rfl

/-- The gain and the clip are the active ones (40 R112). -/
theorem gainClip_withPending (x : Word) : gainClip (c.withPending p) x = gainClip c x := rfl

theorem envUpdate_withPending (e x : Word) : envUpdate cfg (c.withPending p) e x = envUpdate cfg c e x := rfl

/-- The sample path of a channel reads no pending copy (20 R68): each of its parts reads none. -/
theorem processChannel_withPending (n : Nat) (ch : Channel) (x : Word) :
    processChannel cfg (c.withPending p) n ch x = processChannel cfg c n ch x := by
  simp only [processChannel, gainClip_withPending, convertUp_withPending, nonLinAll_withPending, convertDown_withPending,
    envUpdate_withPending]
  rfl

/-- Nor does what stands for it after `NonFinite`: free values by their number alone (log 32). -/
theorem frameChannel_withPending (n : Nat) (ch : Channel) (opd : Word) :
    frameChannel cfg (c.withPending p) n ch opd = frameChannel cfg c n ch opd := by
  simp only [frameChannel, processChannel_withPending]
  rfl

theorem frameChannels_withPending (n : Nat) (samples : List Word) :
    frameChannels cfg (c.withPending p) n samples = frameChannels cfg c n samples := by
  simp only [frameChannels, frameChannel_withPending]
  rfl

theorem frameCore_withPending (r : ChannelResult × ChannelResult) :
    frameCore (c.withPending p) r = (frameCore c r).withPending p := rfl

/-- FRAME uses the active copies only (20 R68), and hands the pending ones on. -/
theorem frameWith_withPending (samples : List Word) (s : State) :
    frameWith cfg samples (s.withPending p) = (frameWith cfg samples s).withPending p := by
  have life : (s.withPending p).core.life = s.core.life := rfl
  have channels : frameChannels cfg (s.withPending p).core (s.withPending p).freeCount samples
      = frameChannels cfg s.core s.freeCount samples := frameChannels_withPending cfg s.core p s.freeCount samples
  unfold frameWith
  rw [life, channels]
  split <;> rfl

end

/-! ### The stream format, the tables and the mailbox (O21) -/

/-- What only PREPARE and RESET write (20 R70): the stream format, `WRATE`, `LAT`, the descriptors, tables and coefficients. -/
def Core.prepared (c : Core) :=
  (c.rate, c.nch, c.fmt, c.wrate, c.lat, c.descUp, c.descDn, c.coefUp, c.coefDn, c.cl, c.ch, c.g, c.gr, c.aatt, c.arel)

theorem prepared_of_coreAfter {i : Instr} {s : State} {c : Core} (hr : i ≠ .reset) (hp : i.op ≠ .prepare)
    (h : CoreAfter s c i) : c.prepared = s.core.prepared := by
  cases i with
  | reset => exact absurd rfl hr
  | prepare => exact absurd rfl hp
  | _ => cases h; rfl

/-- What only BLKEND and RESET write (10 R52): the meter record and the count of records. -/
def Core.mailbox (c : Core) := (c.meter, c.mseq)

theorem mailbox_of_coreAfter {i : Instr} {s : State} {c : Core} (hr : i ≠ .reset) (hb : i ≠ .blkend)
    (h : CoreAfter s c i) : c.mailbox = s.core.mailbox := by
  cases i with
  | reset => exact absurd rfl hr
  | blkend => exact absurd rfl hb
  | prepare => obtain ⟨_, _, -, -, rfl⟩ := h; rfl
  | _ => cases h; rfl

/-- The lifecycle table has no cell for PREPARE while processing is possible (40 R100, 20 R70). -/
theorem accepts_prepare_processing {i : Instr} {l : Life} (hi : i.op = .prepare) (hl : l = .active ∨ l = .inblock) :
    accepts i l = false := by
  cases i with
  | prepare => rcases hl with rfl | rfl <;> rfl
  | _ => cases hi

end Sys2Proof.Machine

namespace Sys2Proof.Proofs

open Sys2Proof Sys2Proof.Machine

/-- Settles O7: the fetch hands over the decoded command and the state with its words consumed. -/
theorem stepRunsDecoded : Obligations.StepRunsDecoded := by
  intro s cw rest i hm hn hd
  rw [step, fetch_of_decode hm hn hd, popCommand_of_moves hm]

/-- Settles O20: what the two commits write, that no other command that completes writes an active copy, and that no part of the
sample path reads a pending one. -/
theorem commitPoints : Obligations.CommitPoints := by
  refine ⟨fun s t hl h => ?blkbegin, fun i s t hi h hok => ?prepare, fun i s t h hi => ?others, fun samples s t p h => ?frame⟩
  case blkbegin =>
    rcases execBlkbegin_cases h with ⟨-, rfl⟩ | ⟨hne, -⟩
    · rfl
    · exact absurd hl hne
  case prepare =>
    have hc := coreAfter_of_ok h hok
    cases i with
    | prepare =>
      obtain ⟨_, _, -, -, hc⟩ := hc
      rw [hc]; rfl
    | _ => cases hi
  case others => exact exec_keeps (f := Core.active) h (fun _ => rfl) fun _ => active_of_coreAfter hi
  case frame =>
    cases h
    exact congrArg Host.Outcome.next (frameWith_withPending Config.cfg p samples s)

/-- Settles O21: a refusal keeps both parts of the core, and so does every command that completes, but for their writers. -/
theorem tablesAndMeterKept : Obligations.TablesAndMeterKept := by
  refine ⟨fun i s t h hr hp => ?tables, fun i s t hi h hl => ?refused, fun i s t h hr hb => ?meter⟩
  case tables =>
    have kept : t.core.prepared = s.core.prepared :=
      exec_keeps h (fun _ => rfl) fun hok => prepared_of_coreAfter hr fun hi => hp ⟨hi, hok⟩
    simpa only [Core.prepared, Prod.mk.injEq] using kept
  case refused =>
    have refuses := accepts_prepare_processing hi hl
    rcases exec_cases h with ⟨code, rfl, -, -, hcode, -⟩ | ⟨-, ha, -⟩
    · rw [lastCode_refuse, hcode.2 refuses]
    · rw [refuses] at ha; cases ha
  case meter =>
    have kept : t.core.mailbox = s.core.mailbox := exec_keeps h (fun _ => rfl) fun _ => mailbox_of_coreAfter hr hb
    simpa only [Core.mailbox, Prod.mk.injEq] using kept

end Sys2Proof.Proofs

/-! ## Proofs about the encoding: the decoder and the encoder undo each other, illegal command words (30_encoding.md) -/

namespace Sys2Proof

/-! ### Opcodes: every byte of the map names one opcode (30 R86, R91) -/

theorem mem_allOps (op : Op) : op ∈ allOps := by cases op <;> decide

/-- No two rows of the map share a byte. -/
theorem Op.code_injective : Function.Injective Op.code := by
  have distinct : ∀ a ∈ allOps, ∀ b ∈ allOps, a.code = b.code → a = b := by decide
  exact fun a b => distinct a (mem_allOps a) b (mem_allOps b)

/-- The lookup finds no opcode exactly where no row of the map has the byte. -/
theorem opOf_eq_none_iff {cw : CmdWord} : opOf cw = none ↔ ∀ op : Op, op.code ≠ opField cw := by
  simp [opOf, mem_allOps]

/-- The lookup finds the row of the map that has the byte. -/
theorem opOf_eq_some_iff {cw : CmdWord} {op : Op} : opOf cw = some op ↔ op.code = opField cw := by
  have sound : ∀ {op' : Op}, opOf cw = some op' → op'.code = opField cw := fun h => by simpa using List.find?_some h
  refine ⟨sound, fun hop => ?_⟩
  cases found : opOf cw with
  | none => exact absurd hop (opOf_eq_none_iff.1 found op)
  | some op' => rw [Op.code_injective ((sound found).trans hop.symm)]

/-! ### Immediates: the named sub-fields are the low bits, the reserved bits lie above them (30 R82) -/

/-- How many low bits of the immediate a format names. -/
def Format.immBits : Format → Nat
  | .p => 8
  | .b => 1
  | .o => 2
  | .z | .f | .d | .g => 0

theorem Format.usedImm_eq (fmt : Format) : fmt.usedImm = (BitVec.allOnes fmt.immBits).setWidth 24 := by
  cases fmt <;> rfl

/-- An immediate whose reserved bits are 0 is its named low bits. -/
theorem exists_setWidth_of_reserved_zero {fmt : Format} {imm : BitVec 24} (h : imm &&& ~~~fmt.usedImm = 0) :
    ∃ x : BitVec fmt.immBits, imm = x.setWidth 24 := by
  refine ⟨imm.setWidth fmt.immBits, BitVec.eq_of_getLsbD_eq fun k hk => ?_⟩
  have bit : (imm &&& ~~~fmt.usedImm).getLsbD k = false := by rw [h]; exact BitVec.getLsbD_zero
  simp only [Format.usedImm_eq, BitVec.getLsbD_and, BitVec.getLsbD_not, BitVec.getLsbD_setWidth, BitVec.getLsbD_allOnes, hk,
    decide_true, Bool.true_and] at bit ⊢
  by_cases hn : k < fmt.immBits <;> simp_all

/-- A format without sub-fields leaves no bit of the immediate. -/
theorem imm_eq_zero_of_reserved_zero {imm : BitVec 24} (h : imm &&& ~~~(0 : BitVec 24) = 0) : imm = 0 :=
  BitVec.and_allOnes.symm.trans h

/-- The words of every command have the shape its format gives. -/
theorem encodingShape : ∀ i : Instr, Laws.EncodingShape.Statement i
  | .reset => Laws.EncodingShape.reset
  | .prepare nch fmt rate => Laws.EncodingShape.prepare nch fmt rate
  | .start => Laws.EncodingShape.start
  | .stop => Laws.EncodingShape.stop
  | .blkbegin => Laws.EncodingShape.blkbegin
  | .frame samples => Laws.EncodingShape.frame samples
  | .blkend => Laws.EncodingShape.blkend
  | .setig v => Laws.EncodingShape.setig v
  | .setog v => Laws.EncodingShape.setog v
  | .setmix v => Laws.EncodingShape.setmix v
  | .setcurve v => Laws.EncodingShape.setcurve v
  | .setclip b => Laws.EncodingShape.setclip b
  | .setsplit b => Laws.EncodingShape.setsplit b
  | .setos code => Laws.EncodingShape.setos code
  | .setphase p => Laws.EncodingShape.setphase p
  | .setxlo v => Laws.EncodingShape.setxlo v
  | .setxhi v => Laws.EncodingShape.setxhi v
  | .setenvm m => Laws.EncodingShape.setenvm m
  | .setdecay v => Laws.EncodingShape.setdecay v
  | .getlat => Laws.EncodingShape.getlat
  | .getstat => Laws.EncodingShape.getstat
  | .getmeter => Laws.EncodingShape.getmeter

theorem reserved_zero_imm (i : Instr) : i.imm &&& ~~~i.op.format.usedImm = 0 := by
  obtain ⟨-, -, hreserved, -⟩ := encodingShape i
  exact hreserved

/-! ### `assemble` reads back what a command's fields spell, and nothing else -/

/-- The sub-fields of PREPARE read back (30 R83). -/
theorem prepare_imm_fields (nch fmt : BitVec 4) :
    (((0 : BitVec 16) ++ fmt ++ nch).setWidth 24).extractLsb' 0 4 = nch
      ∧ (((0 : BitVec 16) ++ fmt ++ nch).setWidth 24).extractLsb' 4 4 = fmt := by
  revert nch fmt; decide

/-- FRAME takes up to two operand words (00 R6 `NCH_MAX`). -/
theorem assemble_frame (imm : BitVec 24) (samples : List Word) :
    assemble .frame imm samples = if samples.length ≤ 2 then some (.frame samples) else none := rfl

/-- The fields of a well-formed command assemble to it. -/
theorem assemble_fields {i : Instr} (hw : WellFormed i) : assemble i.op i.imm i.operands = some i := by
  cases i with
  | prepare nch fmt rate =>
    obtain ⟨hnch, hfmt⟩ := prepare_imm_fields nch fmt
    exact congrArg₂ (fun nch fmt => some (Instr.prepare nch fmt rate)) hnch hfmt
  | frame samples => exact if_pos (of_decide_eq_true hw)
  | setclip b | setsplit b => cases b <;> rfl
  | setphase p => cases p <;> rfl
  | setenvm m => cases m <;> rfl
  | setos code =>
    have field : ∀ c : BitVec 2, (c.setWidth 24).extractLsb' 0 2 = c := by decide
    exact congrArg (fun code => some (Instr.setos code)) (field code)
  | _ => rfl

/-- What assembles has the opcode, the immediate and the operand words it was assembled from, where no reserved bit is set. -/
theorem fields_of_assemble {op : Op} {imm : BitVec 24} {opds : List Word} {i : Instr}
    (hreserved : imm &&& ~~~op.format.usedImm = 0) (h : assemble op imm opds = some i) :
    i.op = op ∧ i.imm = imm ∧ i.operands = opds ∧ WellFormed i := by
  cases op with
  | prepare =>
    obtain ⟨x, rfl⟩ := exists_setWidth_of_reserved_zero hreserved
    have fields : ∀ x : BitVec 8,
        ((0 : BitVec 16) ++ (x.setWidth 24).extractLsb' 4 4 ++ (x.setWidth 24).extractLsb' 0 4).setWidth 24 = x.setWidth 24 := by
      decide
    rcases opds with _ | ⟨rate, _ | _⟩ <;> cases h
    exact ⟨rfl, fields x, rfl, rfl⟩
  | frame =>
    obtain rfl := imm_eq_zero_of_reserved_zero hreserved
    rw [assemble_frame] at h
    split at h <;> cases h
    exact ⟨rfl, rfl, rfl, decide_eq_true ‹_›⟩
  | setclip | setsplit | setphase | setenvm =>
    obtain ⟨x, rfl⟩ := exists_setWidth_of_reserved_zero hreserved
    have bit : ∀ x : BitVec 1, x = 0 ∨ x = 1 := by decide
    rcases opds with _ | _ <;> cases h
    refine ⟨rfl, ?_, rfl, rfl⟩
    rcases bit x with rfl | rfl <;> decide
  | setos =>
    obtain ⟨x, rfl⟩ := exists_setWidth_of_reserved_zero hreserved
    have field : ∀ x : BitVec 2, ((x.setWidth 24).extractLsb' 0 2).setWidth 24 = x.setWidth 24 := by decide
    rcases opds with _ | _ <;> cases h
    exact ⟨rfl, field x, rfl, rfl⟩
  | setig | setog | setmix | setcurve | setxlo | setxhi | setdecay =>
    obtain rfl := imm_eq_zero_of_reserved_zero hreserved
    rcases opds with _ | ⟨v, _ | _⟩ <;> cases h
    exact ⟨rfl, rfl, rfl, rfl⟩
  | reset | start | stop | blkbegin | blkend | getlat | getstat | getmeter =>
    obtain rfl := imm_eq_zero_of_reserved_zero hreserved
    rcases opds with _ | _ <;> cases h
    exact ⟨rfl, rfl, rfl, rfl⟩

/-- As many operand words as the format takes assemble to a command, FRAME's up to two (00 R6 `NCH_MAX`). -/
theorem exists_assemble (op : Op) (imm : BitVec 24) {opds : List Word} {n : Nat} (hn : n ≤ 2)
    (hlen : opds.length = op.format.operandWords n) : ∃ i, assemble op imm opds = some i := by
  cases op with
  | frame => exact ⟨_, if_pos (hlen.trans_le hn)⟩
  | prepare | setig | setog | setmix | setcurve | setxlo | setxhi | setdecay =>
    obtain ⟨v, rfl⟩ := List.length_eq_one_iff.1 hlen
    exact ⟨_, rfl⟩
  | _ =>
    obtain rfl := List.length_eq_zero_iff.1 hlen
    exact ⟨_, rfl⟩

/-! ### What the decoder answers, by the opcode, the reserved bits and the operand words (30 R87) -/

section
variable {cw : CmdWord} {opds : List Word} {op : Op} {i : Instr}

theorem decode_of_no_opcode (h : ∀ op : Op, op.code ≠ opField cw) : decode cw opds = .error .illegalOpcode := by
  rw [decode, opOf_eq_none_iff.2 h]

theorem decode_of_reserved_bits (hop : op.code = opField cw) (h : immField cw &&& ~~~op.format.usedImm ≠ 0) :
    decode cw opds = .error .reservedBits := by
  simp only [decode, opOf_eq_some_iff.2 hop]
  exact if_pos h

theorem decode_of_assemble (hop : op.code = opField cw) (hreserved : immField cw &&& ~~~op.format.usedImm = 0)
    (h : assemble op (immField cw) opds = some i) : decode cw opds = .ok i := by
  simp only [decode, opOf_eq_some_iff.2 hop, h]
  exact if_neg (not_not.2 hreserved)

/-- What a word decodes to was assembled from its fields. -/
theorem assemble_of_decode (h : decode cw opds = .ok i) :
    ∃ op : Op, op.code = opField cw ∧ immField cw &&& ~~~op.format.usedImm = 0 ∧ assemble op (immField cw) opds = some i := by
  unfold decode at h
  split at h
  · cases h
  · next op hop =>
    split at h
    · cases h
    · next hreserved =>
      split at h
      · next ha => cases h; exact ⟨op, opOf_eq_some_iff.1 hop, not_not.1 hreserved, ha⟩
      · cases h

/-- A command word and its operand words decode to the one well-formed command that has their fields. -/
theorem decode_eq_ok_iff :
    decode cw opds = .ok i ↔ i.op.code = opField cw ∧ i.imm = immField cw ∧ i.operands = opds ∧ WellFormed i := by
  constructor
  · intro h
    obtain ⟨op, hop, hreserved, ha⟩ := assemble_of_decode h
    obtain ⟨rfl, himm, hopds, hw⟩ := fields_of_assemble hreserved ha
    exact ⟨hop, himm, hopds, hw⟩
  · rintro ⟨hop, himm, rfl, hw⟩
    exact decode_of_assemble hop (himm ▸ reserved_zero_imm i) (himm ▸ assemble_fields hw)

end

/-- A command word is its two fields (30 R81). -/
theorem opField_append_immField (cw : CmdWord) : ((opField cw ++ immField cw).setWidth 32 : CmdWord) = cw := by
  apply BitVec.eq_of_getLsbD_eq
  intro k hk
  simp only [opField, immField, BitVec.getLsbD_setWidth, BitVec.getLsbD_append, BitVec.getLsbD_extractLsb', hk, decide_true,
    Bool.true_and, Nat.zero_add]
  split
  · next h => rw [decide_eq_true h, Bool.true_and]
  · rw [decide_eq_true (by omega), Bool.true_and, show 24 + (k - 24) = k by omega]

/-- Words that are the encoding of a well-formed command decode to it. -/
theorem decode_of_encode_eq {cw : CmdWord} {opds : List Word} {i : Instr} (hw : WellFormed i) (h : encode i = (cw, opds)) :
    decode cw opds = .ok i := by
  obtain ⟨rfl, rfl⟩ := Prod.mk.inj h
  exact decode_eq_ok_iff.2 ⟨(Laws.opField_encode i).symm, (Laws.immField_encode i).symm, rfl, hw⟩

/-! ### How many operand words the core consumes (30 R87, R91, R92) -/

/-- Only FRAME's operand count depends on the state. -/
theorem operandWords_of_ne_frame {op : Op} (h : op ≠ .frame) (n m : Nat) :
    op.format.operandWords n = op.format.operandWords m := by
  cases op with
  | frame => exact absurd rfl h
  | _ => rfl

end Sys2Proof

namespace Sys2Proof.Machine

theorem operandsFor_of_opcode {cw : CmdWord} {op : Op} (h : op.code = opField cw) (s : State) :
    s.operandsFor cw = op.format.operandWords s.core.frameOperands := by
  rw [State.operandsFor, operandWords, opOf_eq_some_iff.2 h]

theorem operandsFor_of_no_opcode {cw : CmdWord} (h : ∀ op : Op, op.code ≠ opField cw) (s : State) : s.operandsFor cw = 0 := by
  rw [State.operandsFor, operandWords, opOf_eq_none_iff.2 h]

/-- Outside UNCONF a frame has `NCH` samples (40 R110). -/
theorem frameOperands_of_configured {c : Core} (h : c.life ≠ .unconf) : c.frameOperands = c.nch.count := by
  unfold Core.frameOperands
  split
  · next hl => exact absurd hl h
  all_goals rfl

/-! ### Illegal commands (30 R91, R92) -/

/-- The listed bytes are those of no row of the map. -/
theorem illegalOp_iff (b : BitVec 8) : illegalOp b = true ↔ ∀ op : Op, op.code ≠ b := by
  have listed : ∀ b : BitVec 8, illegalOp b = true ↔ ∀ op ∈ allOps, op.code ≠ b := by decide +kernel
  exact (listed b).trans ⟨fun h op => h op (mem_allOps op), fun h op _ => h op⟩

/-- A command whose operand words are there and that does not decode is refused with `E_ILLEGAL`, its words consumed. -/
theorem step_of_decode_error {s : State} {cw : CmdWord} {rest : List Move} {e : Reject}
    (hm : s.port.moves = .command cw :: rest) (hn : s.operandsFor cw ≤ s.port.operands.length)
    (hd : decode cw (s.port.operands.take (s.operandsFor cw)) = .error e) :
    step s = .next
      { s with
        core := { s.core with proto := true }
        port :=
          { s.port with
            moves := rest, operands := s.port.operands.drop (s.operandsFor cw)
            responses := s.port.responses ++ [⟨.eIllegal, []⟩] } } := by
  have hf : fetch s = .illegal (s.popCommand (s.operandsFor cw)) := by
    simp only [fetch, hm, if_neg (Nat.not_lt.2 hn), hd]
  simp only [step, hf, popCommand_of_moves hm, State.refuseIllegal, State.refuse, State.setCore, State.respond,
    RespCode.setsProto, Bool.or_true]

/-- A refusal whose code does not set `PROTO` is its response alone (60 R301). -/
theorem refuse_eq_respond {code : RespCode} (h : code.setsProto = false) (s : State) : s.refuse code = s.respond code [] := by
  rw [State.refuse, h, Bool.or_false]; rfl

/-- Stream formats outside the supported set (30 R83). -/
theorem channelsOf_eq_none {nch : BitVec 4} (h : nch ≠ 1 ∧ nch ≠ 2) : channelsOf nch = none := by
  rw [channelsOf, if_neg h.1, if_neg h.2]

theorem formatOf_eq_none {fmt : BitVec 4} (h : fmt ≠ 0 ∧ fmt ≠ 1) : formatOf fmt = none := by
  rw [formatOf, if_neg h.1, if_neg h.2]

/-- Where PREPARE is allowed, an unsupported stream format is the first check that fails (40 R102). -/
theorem prepareChecks_of_unsupported {c : Core} {nch fmt : BitVec 4} (rate : Word) (hl : c.life = .unconf ∨ c.life = .ready)
    (h : (nch ≠ 1 ∧ nch ≠ 2) ∨ (fmt ≠ 0 ∧ fmt ≠ 1)) : prepareChecks c nch fmt rate = .error .eFormat := by
  have allowed : ¬(c.life = .active ∨ c.life = .inblock) := by rcases hl with hl | hl <;> simp [hl]
  rw [prepareChecks, if_neg allowed]
  rcases h with h | h
  · rw [channelsOf_eq_none h]
  · rw [formatOf_eq_none h]; cases channelsOf nch <;> rfl

end Sys2Proof.Machine

namespace Sys2Proof.Proofs

open Sys2Proof Sys2Proof.Machine

/-- Settles O1: the encoded words have the command's fields, and the decoder goes by the fields. -/
theorem decodeOfEncode : Obligations.DecodeOfEncode := fun _ hw => decode_of_encode_eq hw rfl

/-- Settles O2: what the words decode to has their fields, and a command word is its fields. -/
theorem encodeOfDecode : Obligations.EncodeOfDecode := by
  intro cw opds i h
  obtain ⟨hop, himm, hopds, hw⟩ := decode_eq_ok_iff.1 h
  refine ⟨?_, hw⟩
  rw [encode, hop, himm, hopds, opField_append_immField]

/-- Settles O3: by the lookup of the opcode, then the reserved bits, then the operand words. -/
theorem decoderCoversEveryWord : Obligations.DecoderCoversEveryWord := by
  refine ⟨fun cw opds => ?_, fun cw s s' h => ?_, fun cw s h hl => ?_⟩
  · cases hop : opOf cw with
    | none =>
      have unmapped := opOf_eq_none_iff.1 hop
      exact .inl ⟨unmapped, decode_of_no_opcode unmapped⟩
    | some op =>
      have mapped := opOf_eq_some_iff.1 hop
      refine .inr ⟨op, mapped, fun op' h => Op.code_injective (h.trans mapped.symm), decode_of_reserved_bits mapped,
        fun hreserved n hn hlen => ?_⟩
      obtain ⟨i, ha⟩ := exists_assemble op (immField cw) hn hlen
      obtain ⟨hi, himm, hopds, -⟩ := fields_of_assemble hreserved ha
      exact ⟨i, decode_of_assemble mapped hreserved ha, hi, himm, hopds⟩
  · cases hop : opOf cw with
    | none =>
      have unmapped := opOf_eq_none_iff.1 hop
      rw [operandsFor_of_no_opcode unmapped, operandsFor_of_no_opcode unmapped]
    | some op =>
      have mapped := opOf_eq_some_iff.1 hop
      have notFrame : op ≠ .frame := by rintro rfl; exact h mapped.symm
      rw [operandsFor_of_opcode mapped, operandsFor_of_opcode mapped]
      exact operandWords_of_ne_frame notFrame _ _
  · rw [operandsFor_of_opcode (op := .frame) h.symm]
    exact frameOperands_of_configured hl

/-- Settles O5: a byte outside the map stops the decoder before any operand word. -/
theorem illegalOpcodesRefused : Obligations.IllegalOpcodesRefused := by
  refine ⟨illegalOp_iff, by decide, fun s cw rest hm hb => ?_⟩
  have unmapped := (illegalOp_iff _).1 hb
  have none_consumed := operandsFor_of_no_opcode unmapped s
  rw [step_of_decode_error hm (by omega) (decode_of_no_opcode unmapped), none_consumed, List.drop_zero]

/-- Settles O6: the operand count goes by the opcode, whatever the reserved bits; PREPARE's `nch` and `fmt` are no reserved
bits, and its second check refuses the unsupported ones. -/
theorem reservedBitsRefused : Obligations.ReservedBitsRefused := by
  refine ⟨fun s cw rest op hm hop hreserved hn => ?_, fun nch fmt rate s => ⟨?_, fun hl h => ?_⟩⟩
  · have count := operandsFor_of_opcode hop s
    rw [step_of_decode_error hm (count.trans_le hn) (decode_of_reserved_bits hop hreserved), count]
  · have word : ∀ nch fmt : BitVec 4, (encode (.prepare nch fmt 0)).1
        = 0x02000000 ||| (fmt.setWidth 32 <<< 4) ||| nch.setWidth 32 := by decide
    exact decode_of_encode_eq rfl (Prod.ext (word nch fmt) rfl)
  · have refused : prepareWith Config.cfg nch fmt rate s = s.refuse .eFormat := by
      rw [prepareWith, prepareChecks_of_unsupported rate hl h]
    rw [exec, execPrepare, refused, refuse_eq_respond rfl]

/-- Settles O8: the placed words are as many as the core consumes, they decode to the command, and with them consumed the state
is the one before. -/
theorem placedCommandRuns : Obligations.PlacedCommandRuns := by
  intro i s hw hlen
  have count : (s.placeCommand (encode i).1 (encode i).2).operandsFor (encode i).1 = i.operands.length :=
    (operandsFor_of_opcode (Laws.opField_encode i).symm _).trans hlen.symm
  have words : (s.placeCommand (encode i).1 (encode i).2).port.operands = i.operands ++ s.port.operands := rfl
  rw [stepRunsDecoded _ _ s.port.moves i rfl, count, words, List.drop_left]
  · rfl
  · rw [count, words, List.length_append]; omega
  · rw [count, words, List.take_left]; exact decode_of_encode_eq hw rfl

/-- Settles O4: each word is the encoding of its command. -/
theorem writtenWordsDecode : Obligations.WrittenWordsDecode := by
  refine ⟨?_, ?_, ?_, ?_, ?_, ?_, ?_, ?_⟩ <;> exact decode_of_encode_eq rfl (by decide)

end Sys2Proof.Proofs

/-! ## Proofs about the sample port (30_encoding.md R84, 49_numerics.md R283, R289) -/

namespace Sys2Proof.Machine

/-! ### What a binary32 word unpacks to, by its magnitude bits -/

theorem binary32_infBits : binary32.infBits = 255 * 2 ^ 23 := by decide

/-- The exponent field of a binary32 word. -/
theorem exponent32_eq (v : BitVec 32) : (v.extractLsb' 23 8).toNat = mag32 v / 2 ^ 23 := by
  have := v.isLt
  simp only [mag32, BitVec.extractLsb'_toNat, Nat.shiftRight_eq_div_pow, BitVec.toNat_setWidth]
  omega

/-- The fraction field of a binary32 word. -/
theorem fraction32_eq (v : BitVec 32) : (v.extractLsb' 0 23).toNat = mag32 v % 2 ^ 23 := by
  simp only [mag32, BitVec.extractLsb'_toNat, Nat.shiftRight_eq_div_pow, BitVec.toNat_setWidth]
  omega

theorem mag32_eq_mod (v : BitVec 32) : mag32 v = v.toNat % 2 ^ 31 := BitVec.toNat_setWidth _ _

theorem mag32_lt (v : BitVec 32) : mag32 v < 2 ^ 31 := (v.setWidth 31).isLt

/-- The fields of an infinity. -/
theorem mag32_eq_inf_iff (v : BitVec 32) :
    v.extractLsb' 23 8 = 0xFF ∧ v.extractLsb' 0 23 = 0 ↔ mag32 v = binary32.infBits := by
  have := mag32_lt v
  rw [← BitVec.toNat_inj, ← BitVec.toNat_inj, exponent32_eq, fraction32_eq, binary32_infBits,
    show (0xFF : BitVec 8).toNat = 255 from rfl, show (0 : BitVec 23).toNat = 0 from rfl]
  omega

/-- The fields of a NaN. -/
theorem inf_lt_mag32_iff (v : BitVec 32) :
    v.extractLsb' 23 8 = 0xFF ∧ v.extractLsb' 0 23 ≠ 0 ↔ binary32.infBits < mag32 v := by
  have := mag32_lt v
  rw [ne_eq, ← BitVec.toNat_inj, ← BitVec.toNat_inj, exponent32_eq, fraction32_eq, binary32_infBits,
    show (0xFF : BitVec 8).toNat = 255 from rfl, show (0 : BitVec 23).toNat = 0 from rfl]
  omega

/-- A binary32 word whose exponent bits are all 1 is an infinity or a NaN, by its fraction. -/
theorem unpackBits_binary32_special {v : BitVec 32} (h : binary32.infBits ≤ mag32 v) :
    unpackBits binary32 v.toNat = if mag32 v = binary32.infBits then .inf v.msb else .nan := by
  have hlt := mag32_lt v
  have hmsb : v.msb = decide (v.toNat / 2 ^ 31 % 2 = 1) := by
    rw [BitVec.msb_eq_decide, decide_eq_decide]
    have := v.isLt
    omega
  have hmag := mag32_eq_mod v
  rw [binary32_infBits] at h ⊢
  unfold unpackBits
  simp only [show binary32.prec - 1 = 23 from rfl, show binary32.ebits = 8 from rfl, show binary32.signBit = 2 ^ 31 by decide,
    ← hmsb]
  rw [if_pos (by omega)]
  exact if_congr (by omega) rfl rfl

/-- Two binary32 words with the same sign and the same magnitude bits are the same word. -/
theorem eq_of_mag32 {v w : BitVec 32} (hs : v.msb = w.msb) (hm : mag32 v = mag32 w) : v = w := by
  apply BitVec.eq_of_toNat_eq
  rw [toNat_split32, toNat_split32 w, hs, hm]

/-! ### Widening is exact -/

/-- What widening a finite binary32 gives: a finite word of the same sign and the same magnitude. -/
theorem widen_finite {v : BitVec 32} (h : isFinite32 v = true) :
    isFinite (widen v) = true ∧ (widen v).msb = v.msb ∧ magVal binary64 (mag (widen v)) = magVal binary32 (mag32 v) := by
  obtain ⟨m, e, hu, hm, he, he', -⟩ := unpack_binary32 v ((isFinite32_iff_exponent v).1 h)
  obtain ⟨k, hk, hk'⟩ := exists_magVal_of_short hm he he'
  have exact_mag : roundMag binary64 m e = k := by
    rw [roundMag_eq_min, roundMagFree_exact (by decide) hk, min_eq_left hk'.le]
  have hw : widen v = round64 v.msb m e := by rw [widen, hu]
  have hval := unpackBits_val binary32 v.toNat hu
  rw [mod_signBit32] at hval
  rw [hw]
  refine ⟨?_, round64_msb _ _ _, ?_⟩
  · rw [isFinite_round64, exact_mag]; exact hk'
  · rw [mag, round64_setWidth, exact_mag, ← hk, hval]

theorem wordVal_widen {v : BitVec 32} (h : isFinite32 v = true) : wordVal (widen v) = wordVal32 v := by
  obtain ⟨hf, hs, hm⟩ := widen_finite h
  have real : (wordVal (widen v) : ℝ) = wordVal32 v := by rw [wordVal_mag hf, wordVal32_mag h, hs, hm]
  exact_mod_cast real

theorem widen_inf {v : BitVec 32} (h : mag32 v = binary32.infBits) : widen v = infWord v.msb := by
  rw [widen, unpackBits_binary32_special h.ge, if_pos h]

theorem isNan_widen {v : BitVec 32} (h : binary32.infBits < mag32 v) : isNan (widen v) = true := by
  rw [widen, unpackBits_binary32_special h.le, if_neg h.ne']
  exact isNan_nanWord _ _ _

/-! ### Narrowing rounds once -/

/-- Narrowing a finite word rounds its value once. -/
theorem roundsTo32_narrow {y : Word} (h : isFinite y = true) : RoundsTo32 (wordVal y) (narrow y) := by
  obtain ⟨s, m, e, hu⟩ := unpack_of_finite h
  obtain ⟨hs, hm⟩ := narrow_fin hu
  exact roundsTo32_of_mag (y := m * 2 ^ e) (by positivity) (roundMagFree_spec binary32 (by decide) m e) (wordVal_unpack hu) hs
    (hm.trans (roundMag_eq_min _ _ _))

theorem narrow_msb {y : Word} (h : isFinite y = true) : (narrow y).msb = y.msb := by
  obtain ⟨s, m, e, hu⟩ := unpack_of_finite h
  rw [(narrow_fin hu).1, (unpack_fin hu).1]

theorem narrow_infWord (neg : Bool) : narrow (infWord neg) = if neg then 0xFF800000 else 0x7F800000 := by
  rw [narrow, unpack_infWord]
  cases neg <;> decide

/-- A finite word whose magnitude is that of binary32 bits narrows to them. -/
theorem mag32_narrow {y : Word} {k : Nat} (h : isFinite y = true) (hv : magVal binary64 (mag y) = magVal binary32 k)
    (hk : k ≤ binary32.infBits) : mag32 (narrow y) = k := by
  obtain ⟨s, m, e, hu⟩ := unpack_of_finite h
  have hval := unpackBits_val binary64 y.toNat hu
  rw [show y.toNat % binary64.signBit = mag y by simp [mag, show binary64.signBit = 2 ^ 63 by decide], hv] at hval
  rw [(narrow_fin hu).2, roundMag_eq_min, roundMagFree_exact (by decide) hval, min_eq_left hk]

/-- Narrowing undoes widening, but for a NaN, whose sign and payload are free (log 10). -/
theorem narrow_widen {v : BitVec 32} (h : mag32 v ≤ binary32.infBits) : narrow (widen v) = v := by
  rcases h.lt_or_eq with hfin | hinf
  · obtain ⟨hf, hs, hm⟩ := widen_finite ((isFinite32_iff v).2 hfin)
    exact eq_of_mag32 ((narrow_msb hf).trans hs) (mag32_narrow hf hm h)
  · rw [widen_inf hinf, narrow_infWord]
    apply eq_of_mag32
    · cases v.msb <;> decide
    · rw [hinf]; cases v.msb <;> decide

/-- The NaN that narrowing gives has every exponent bit and the quiet bit of the fraction set. -/
theorem inf_lt_mag32_nanNarrow (a : Word) : binary32.infBits < mag32 (nanNarrow a) := by
  have quiet : ∀ j < 9, (nanNarrow a).getLsbD (22 + j) = true := by
    intro j hj
    have ones : ∀ j : Fin 9, (0x1FF : BitVec 9).getLsbD j = true := by decide
    simp only [nanNarrow, BitVec.getLsbD_append]
    rw [if_neg (by omega), if_pos (by omega), Nat.add_sub_cancel_left]
    exact ones ⟨j, hj⟩
  have field : (nanNarrow a).extractLsb' 22 9 = BitVec.allOnes 9 := by
    apply BitVec.eq_of_getLsbD_eq
    intro j hj
    rw [BitVec.getLsbD_extractLsb', quiet j hj, BitVec.getLsbD_allOnes, Bool.and_true]
  have high : (nanNarrow a).toNat / 2 ^ 22 % 2 ^ 9 = 2 ^ 9 - 1 := by
    rw [← Nat.shiftRight_eq_div_pow, ← BitVec.extractLsb'_toNat, field, BitVec.toNat_allOnes]
  rw [binary32_infBits, mag32_eq_mod]
  omega

theorem narrow_of_isNan {y : Word} (h : isNan y = true) : narrow y = nanNarrow y := by
  rw [narrow, unpack_of_isNan h]

/-! ### The words at the port (30 R84) -/

theorem sampleIn_b32_append (hi lo : BitVec 32) : sampleIn .b32 (hi ++ lo) = widen lo := by
  rw [sampleIn, BitVec.setWidth_append_eq_right]

/-- The narrowed output stands under 32 zero bits. -/
theorem sampleOut_b32_halves (y : Word) :
    (sampleOut .b32 y).extractLsb' 0 32 = narrow y ∧ (sampleOut .b32 y).extractLsb' 32 32 = 0 := by
  have bounded := (narrow y).isLt
  have out : (sampleOut .b32 y).toNat = (narrow y).toNat := BitVec.toNat_setWidth_of_le (by decide)
  constructor <;> apply BitVec.eq_of_toNat_eq <;> rw [BitVec.extractLsb'_toNat, out, Nat.shiftRight_eq_div_pow]
  · omega
  · rw [Nat.div_eq_of_lt bounded]; rfl

end Sys2Proof.Machine

namespace Sys2Proof.Proofs

open Sys2Proof Sys2Proof.Machine

/-- Settles O58: a binary32 word is finite, an infinity or a NaN by its magnitude bits; a finite one's magnitude is one of
binary64 too, so that widening rounds nothing away and narrowing rounds back to it. -/
theorem samplePort : Obligations.SamplePort := by
  refine ⟨fun _ => ⟨rfl, rfl⟩, sampleIn_b32_append, sampleOut_b32_halves, fun v => ⟨?finite, ?infinity, ?nan, ?undoes⟩,
    fun y hy => ⟨roundsTo32_narrow hy, narrow_msb hy⟩, narrow_infWord false, narrow_infWord true, fun y hy => ?narrowedNan⟩
  case finite =>
    intro h
    have hf := (isFinite32_iff_exponent v).2 h
    obtain ⟨hfin, hs, -⟩ := widen_finite hf
    exact ⟨hfin, wordVal_widen hf, hs⟩
  case infinity => exact fun hx hfrac => widen_inf ((mag32_eq_inf_iff v).1 ⟨hx, hfrac⟩)
  case nan => exact fun h => isNan_widen ((inf_lt_mag32_iff v).1 h)
  case undoes => exact fun h => narrow_widen (not_lt.1 fun hlt => h ((inf_lt_mag32_iff v).2 hlt))
  case narrowedNan =>
    rw [narrow_of_isNan hy]
    exact (inf_lt_mag32_iff _).2 (inf_lt_mag32_nanNarrow y)

end Sys2Proof.Proofs

/-! ## Proofs about the lifecycle commands (40_lifecycle_commands.md R100 to R108, R119) -/

namespace Sys2Proof.Machine

open Sys2Proof.Config (Cfg)

/-! ### The commands over the machine's own configuration -/

theorem exec_prepare (nch fmt : BitVec 4) (rate : Word) (s : State) :
    exec (.prepare nch fmt rate) s = .next (prepareWith Config.cfg nch fmt rate s) := rfl

theorem exec_start (s : State) : exec .start s = .next (startWith Config.cfg s) := rfl

theorem exec_stop (s : State) : exec .stop s = .next (stopWith Config.cfg s) := rfl

theorem exec_frame (samples : List Word) (s : State) :
    exec (.frame samples) s = .next (frameWith Config.cfg samples s) := rfl

/-! ### The lifecycle table (O16) -/

/-- The state a completed command leaves is that of its cell (40 R100). -/
theorem life_of_coreAfter {i : Instr} {s : State} {c : Core} (h : CoreAfter s c i) : c.life = lifeAfter i s.core.life := by
  cases i with
  | prepare => obtain ⟨_, _, -, -, rfl⟩ := h; rfl
  | _ => cases h; rfl

/-- A refusal with `E_STATE`, written out (60 R301). -/
theorem refuse_eState (s : State) :
    s.refuse .eState
      = { s with
          core := { s.core with proto := true }
          port := { s.port with responses := s.port.responses ++ [⟨.eState, []⟩] } } := by
  rw [State.refuse, RespCode.setsProto, Bool.or_true]; rfl

/-! ### The checks of PREPARE (O22, O23) -/

/-- The supported stream formats (30 R83). -/
theorem exists_channelsOf {nch : BitVec 4} (h : nch = 1 ∨ nch = 2) : ∃ chs, channelsOf nch = some chs := by
  rcases h with rfl | rfl <;> exact ⟨_, rfl⟩

theorem exists_formatOf {fmt : BitVec 4} (h : fmt = 0 ∨ fmt = 1) : ∃ sf, formatOf fmt = some sf := by
  rcases h with rfl | rfl <;> exact ⟨_, rfl⟩

/-- While processing is possible, the first check fails (40 R102). -/
theorem prepareChecks_of_processing {c : Core} (h : c.life = .active ∨ c.life = .inblock) (nch fmt : BitVec 4) (rate : Word) :
    prepareChecks c nch fmt rate = .error .eState := by
  rw [prepareChecks, if_pos h]

theorem configurable_of_not_processing {l : Life} (h : ¬(l = .active ∨ l = .inblock)) : l = .unconf ∨ l = .ready := by
  cases l <;> simp at h ⊢

/-- With a supported stream format the checks of the rate, the written flags and the corners remain, in this order (40 R102). -/
theorem prepareChecks_of_supported {c : Core} {nch fmt : BitVec 4} {chs : Channels} {sf : SampleFormat}
    (hl : ¬(c.life = .active ∨ c.life = .inblock)) (hc : channelsOf nch = some chs) (hf : formatOf fmt = some sf) (rate : Word) :
    prepareChecks c nch fmt rate
      = if ¬(isFinite rate = true ∧ flt cZero rate = true) then .error .eRange
        else if c.xloW = false ∨ c.xhiW = false ∨ c.decayW = false then .error .eConfig
        else if ¬flt c.pending.xlo (fdiv rate cTwo) = true ∨ ¬flt c.pending.xhi (fdiv rate cTwo) = true then .error .eRange
        else .ok (chs, sf) := by
  rw [prepareChecks, if_neg hl, hc, hf]
  simp only [isPositiveFinite, Bool.or_eq_true, Bool.not_eq_true', ← Bool.not_eq_true, Bool.and_eq_true, or_assoc]

/-- A failing check is the response (60 R308). -/
theorem lastCode_prepareWith_of_error {cfg : Cfg} {nch fmt : BitVec 4} {rate : Word} {s : State} {code : RespCode}
    (h : prepareChecks s.core nch fmt rate = .error code) : (prepareWith cfg nch fmt rate s).lastCode = some code := by
  rw [prepareWith, h]; exact lastCode_refuse _ _

/-- With the checks passed, the response goes by the planning (40 R102 check 7). -/
theorem lastCode_prepareWith_of_ok {cfg : Cfg} {nch fmt : BitVec 4} {rate : Word} {s : State} {f : Channels × SampleFormat}
    (h : prepareChecks s.core nch fmt rate = .ok f) :
    (prepareWith cfg nch fmt rate s).lastCode
      = some (if (planMode cfg rate s.core.pending.os s.core.pending.phase).isNone then .eConfig else .ok) := by
  rw [prepareWith, h]
  cases hp : planMode cfg rate s.core.pending.os s.core.pending.phase
  · exact lastCode_refuse _ _
  · exact lastCode_finish _ _ _

/-- With the checks passed and a plan, PREPARE commits it (40 R102). -/
theorem prepareWith_of_plan {cfg : Cfg} {nch fmt : BitVec 4} {rate : Word} {s : State} {chs : Channels} {sf : SampleFormat}
    {plan : Plan} (h : prepareChecks s.core nch fmt rate = .ok (chs, sf))
    (hp : planMode cfg rate s.core.pending.os s.core.pending.phase = some plan) :
    prepareWith cfg nch fmt rate s = s.finish (prepareCommit cfg s.core chs sf rate plan) [] := by
  rw [prepareWith, h]; simp only [hp]

/-! ### What PREPARE commits (O23, O24) -/

theorem resize_zero (q : List Word) : resize q 0 = [] := by
  rw [resize, if_neg (Nat.not_lt_zero _), Nat.sub_zero, List.drop_length]

/-- Without a mode the channel's files are empty (10 R42, R43, R47). -/
theorem prepareChannel_bare (ch : Channel) : prepareChannel (Plan.bare 0) ch = Channel.reset := by
  rw [prepareChannel, Plan.bare, resize_zero]; rfl

/-- The latency and the Resampler instances that the planning gives in each mode (40 R103, 44 R207). -/
theorem planMode_latency {cfg : Cfg} {rate : Word} {os : BitVec 2} {phase : Phase} {p : Plan}
    (h : planMode cfg rate os phase = some p) :
    (os = 0 → p.lat = 0) ∧ (os ≠ 0 → phase = .min → cascadeLatency p.descUp p.descDn os = some p.lat)
      ∧ (os ≠ 0 → phase = .lin → p.lat = cfg.latLin (factor os)) := by
  rcases planMode_cases h with ⟨h0, rfl⟩ | ⟨h0, rfl, hp⟩ | ⟨h0, rfl, hp⟩
  · exact ⟨fun _ => rfl, fun h => absurd h0 h, fun h => absurd h0 h⟩
  · refine ⟨fun h => absurd h h0, fun _ _ => ?_, nofun⟩
    obtain ⟨-, lat, hlat, -, rfl⟩ := (planMin_eq_some _ _ _ _).1 hp
    exact hlat
  · refine ⟨fun h => absurd h h0, nofun, fun _ _ => ?_⟩
    obtain ⟨_, _, -, -, -, rfl⟩ := (planLin_eq_some _ _ _ _).1 hp
    rfl

/-- The Resampler instances that the planning gives in each mode (40 R103, 44 R210). -/
theorem planMode_resampler {cfg : Cfg} {rate : Word} {os : BitVec 2} {phase : Phase} {p : Plan}
    (h : planMode cfg rate os phase = some p) :
    (os = 0 ∨ phase = .min → p.rsUp = none ∧ p.rsDn = none)
      ∧ (os ≠ 0 → phase = .lin → p.rsUp = rsCreateUp cfg rate (factor os) ∧ p.rsDn = rsCreateDn cfg rate (factor os)) := by
  rcases planMode_cases h with ⟨h0, rfl⟩ | ⟨h0, rfl, hp⟩ | ⟨h0, rfl, hp⟩
  · exact ⟨fun _ => ⟨rfl, rfl⟩, fun h => absurd h0 h⟩
  · obtain ⟨-, _, -, -, rfl⟩ := (planMin_eq_some _ _ _ _).1 hp
    exact ⟨fun _ => ⟨rfl, rfl⟩, nofun⟩
  · obtain ⟨_, _, hu, hd, -, rfl⟩ := (planLin_eq_some _ _ _ _).1 hp
    exact ⟨fun h => (h.elim h0 nofun).elim, fun _ _ => ⟨hu.symm, hd.symm⟩⟩

/-- The files of a prepared channel, stage by stage (40 R102). -/
theorem prepareChannel_histories (p : Plan) (ch : Channel) (k : Config.Stage) :
    (prepareChannel p ch).hup.get k = List.replicate (p.descUp.get k).c 0
      ∧ (prepareChannel p ch).hdn.get k = List.replicate ((p.descDn.get k).n - 2) 0 := by
  rw [prepareChannel_hup, prepareChannel_hdn, PerStage.get_ofFn, PerStage.get_ofFn]
  exact ⟨rfl, rfl⟩

/-! ### START and STOP (O26, O27) -/

/-- What START and STOP do to a channel, field by field (40 R105). -/
theorem restartChannel_eq (cfg : Cfg) (c : Core) (ch : Channel) :
    restartChannel cfg c ch =
      { ch with
        hup := clearStages ch.hup, hdn := clearStages ch.hdn, lps := cZero, lpy := cZero, hps := cZero, hpy := cZero
        rsUp := if c.active.phase = .lin ∧ c.active.os ≠ 0 then rsCreateUp cfg c.rate (factor c.active.os) else ch.rsUp
        rsDn := if c.active.phase = .lin ∧ c.active.os ≠ 0 then rsCreateDn cfg c.rate (factor c.active.os) else ch.rsDn } := by
  unfold restartChannel
  split <;> rfl

/-- Both channels restarted, in the lifecycle state given (40 R105, R106). -/
theorem restart_eq (cfg : Cfg) (c : Core) (life : Life) :
    restart cfg c life =
      { c with chan0 := restartChannel cfg c c.chan0, chan1 := restartChannel cfg c c.chan1, life := life } := rfl

/-! ### BLKBEGIN and BLKEND (O28, O29) -/

/-- When the pending mode differs (40 R108). -/
theorem modeDiffers_iff (c : Core) :
    c.modeDiffers = true ↔ c.pending.os ≠ c.active.os ∨ c.pending.phase ≠ c.active.phase := by
  rw [Core.modeDiffers, Bool.or_eq_true, bne_iff_ne, bne_iff_ne]

/-- BLKBEGIN sets `LATCHG` where the pending mode differs and never clears it (40 R108). -/
theorem beginBlock_latchg_eq (c : Core) :
    (beginBlock c).latchg = if c.pending.os ≠ c.active.os ∨ c.pending.phase ≠ c.active.phase then true else c.latchg := by
  rw [beginBlock_latchg]
  split
  next h => rw [(modeDiffers_iff c).2 h, Bool.or_true]
  next h => rw [Bool.eq_false_iff.2 (mt (modeDiffers_iff c).1 h), Bool.or_false]

end Sys2Proof.Machine

namespace Sys2Proof.Proofs

open Sys2Proof Sys2Proof.Machine

/-- Settles O16: a refusal with `E_STATE` stands exactly where the table has no cell, and a completed command leaves the core of
its rule. -/
theorem lifecycleTable : Obligations.LifecycleTable := by
  intro i s
  obtain ⟨t, h⟩ := exec_next i s
  refine ⟨t, h, ?_⟩
  rcases exec_cases h with ⟨code, rfl, hok, -, hcell, -⟩ | ⟨hok, ha, hc⟩
  · rw [lastCode_refuse]
    refine ⟨fun hr => ?_, fun ha => ⟨fun e => ?_, fun e => absurd (Option.some.inj e) hok, fun _ => rfl⟩⟩
    · rw [hcell.2 hr, refuse_eState]
    · rw [hcell.1 (Option.some.inj e)] at ha; cases ha
  · rw [hok]
    exact ⟨fun hr => (by rw [hr] at ha; cases ha), fun _ => ⟨nofun, fun _ => life_of_coreAfter hc, fun hne => absurd rfl hne⟩⟩

/-- Settles O22: each branch of the list fixes the value of `prepareChecks`, check by check. -/
theorem prepareChecksInOrder : Obligations.PrepareChecksInOrder := by
  intro nch fmt rate s
  refine ⟨_, rfl, ?_⟩
  by_cases hl : s.core.life = .active ∨ s.core.life = .inblock
  · rw [if_pos hl, lastCode_prepareWith_of_error (prepareChecks_of_processing hl nch fmt rate)]
  by_cases hu : ¬(nch = 1 ∨ nch = 2) ∨ ¬(fmt = 0 ∨ fmt = 1)
  · rw [if_neg hl, if_pos hu]
    exact lastCode_prepareWith_of_error (prepareChecks_of_unsupported rate (configurable_of_not_processing hl)
      (hu.imp not_or.1 not_or.1))
  rw [if_neg hl, if_neg hu]
  obtain ⟨hn, hf⟩ := not_or.1 hu
  obtain ⟨chs, hc⟩ := exists_channelsOf (not_not.1 hn)
  obtain ⟨sf, hf⟩ := exists_formatOf (not_not.1 hf)
  have checks := prepareChecks_of_supported hl hc hf rate
  split_ifs at checks ⊢ with rate_ok flags corners planned
  · exact lastCode_prepareWith_of_error checks
  · exact lastCode_prepareWith_of_error checks
  · rw [lastCode_prepareWith_of_ok checks, if_pos planned]
  · rw [lastCode_prepareWith_of_ok checks, if_neg planned]
  · exact lastCode_prepareWith_of_error checks

/-- Settles O23: every check passes, and the plan without stages leaves every file at its reset value. -/
theorem prepareCompletesAtUnity : Obligations.PrepareCompletesAtUnity := by
  intro nch fmt rate chs sf s hl hn hf hfin hpos hxlo hxhi hd hlo hhi hos
  have idle : ¬(s.core.life = .active ∨ s.core.life = .inblock) := by rcases hl with hl | hl <;> simp [hl]
  have channels : channelsOf nch = some chs := by rcases hn with ⟨rfl, rfl⟩ | ⟨rfl, rfl⟩ <;> rfl
  have format : formatOf fmt = some sf := by rcases hf with ⟨rfl, rfl⟩ | ⟨rfl, rfl⟩ <;> rfl
  have checks : prepareChecks s.core nch fmt rate = .ok (chs, sf) := by
    rw [prepareChecks_of_supported idle channels format, if_neg (not_not.2 ⟨hfin, hpos⟩),
      if_neg (by simp [hxlo, hxhi, hd]), if_neg (by simp [hlo, hhi])]
  have plan : planMode Config.cfg rate s.core.pending.os s.core.pending.phase = some (Plan.bare 0) := if_pos hos
  intro wrate cl ch files
  rw [exec_prepare, prepareWith_of_plan checks plan, prepareCommit, commitPrepare, prepareChannel_bare, prepareChannel_bare, hos]
  rfl

/-- Settles O24: the committed core field by field, and what the planning gives in each mode. -/
theorem prepareCommits : Obligations.PrepareCommits := by
  refine ⟨exec_prepare, fun cfg nch fmt rate chs sf plan s hc hp => ?_⟩
  obtain ⟨unity, minimum, linear⟩ := planMode_latency hp
  obtain ⟨without, created⟩ := planMode_resampler hp
  rw [prepareWith_of_plan hc hp]
  refine ⟨rfl, rfl, rfl, rfl, rfl, rfl, rfl, rfl, rfl, rfl, rfl, rfl, rfl, rfl, rfl, rfl, fun f hf => ?files, unity, minimum,
    linear, rfl, rfl, rfl, rfl, rfl, rfl, rfl, rfl, rfl, rfl, rfl, rfl, rfl⟩
  have prepared : f (prepareCommit cfg s.core chs sf rate plan) = prepareChannel plan (f s.core) := by
    rcases hf with rfl | rfl <;> rfl
  rw [finish_core, prepared]
  refine ⟨rfl, rfl, rfl, rfl, rfl, rfl, rfl, length_resize _ _, rfl, rfl, without, fun hos hph => ?_,
    fun k => prepareChannel_histories plan _ k⟩
  rw [hph] at hp
  obtain ⟨up, dn⟩ := created hos hph
  obtain ⟨someUp, someDn⟩ := rsCreate_isSome_of_planMode hos hp
  exact ⟨up, dn, (congrArg Option.isSome up).trans someUp, (congrArg Option.isSome dn).trans someDn⟩

/-- Settles O14: every value is the reset value itself. -/
theorem resetRestores : Obligations.ResetRestores := by
  intro s
  have status : Core.reset.status = 0 := by decide
  refine ⟨_, rfl, rfl, rfl, status, rfl, rfl, rfl, rfl, fun p hp => ?params, rfl, fun ch hch => ?files, rfl, rfl⟩
  case params =>
    have reset : p = Params.reset := by rcases List.mem_pair.1 hp with h | h <;> exact h
    subst reset
    exact ⟨rfl, rfl, rfl, rfl, rfl, rfl, rfl, rfl, rfl⟩
  case files =>
    have reset : ch = Channel.reset := by rcases List.mem_pair.1 hch with h | h <;> exact h
    subst reset
    exact ⟨fun k => by cases k <;> exact ⟨nofun, nofun⟩, rfl, rfl, rfl, rfl, rfl, rfl, rfl, rfl, rfl⟩

/-- Settles O26, by the restart of a channel, field by field. -/
theorem startResult : Obligations.StartResult := by
  intro s restarted
  refine ⟨fun h => ?_, fun h => congrArg Host.Outcome.next (if_neg h)⟩
  rw [exec_start, startWith, if_pos h, restart_eq, restartChannel_eq, restartChannel_eq]
  rfl

/-- Settles O27, as START, by the restart of a channel. -/
theorem stopResult : Obligations.StopResult := by
  intro s restarted
  refine ⟨fun h => ?_, fun h => congrArg Host.Outcome.next (if_neg h)⟩
  rw [exec_stop, stopWith, if_pos h, restart_eq, restartChannel_eq, restartChannel_eq]
  rfl

/-- Settles O28: the word is BLKBEGIN's encoding, and `LATCHG` goes by the pending mode. -/
theorem blkbeginResult : Obligations.BlkbeginResult := by
  refine ⟨decode_of_encode_eq rfl (by decide), fun s => ⟨fun hl => ?_, fun hl => ?_⟩⟩
  · rw [← beginBlock_latchg_eq]
    exact congrArg Host.Outcome.next (if_pos hl)
  · exact congrArg Host.Outcome.next (if_neg hl)

/-- Settles O29: the word is BLKEND's encoding, and the record is that of the block with the new count. -/
theorem blkendResult : Obligations.BlkendResult := by
  refine ⟨decode_of_encode_eq rfl (by decide), fun s => ⟨fun hl => ⟨Config.cfg.grMetric s.freeCount, ?_⟩, fun hl => ?_⟩⟩
  · have count : (s.core.mseq + 1).toNat = (s.core.mseq.toNat + 1) % 2 ^ 32 := BitVec.toNat_add _ 1
    rw [← count, BitVec.ofNat_toNat, BitVec.ofNat_toNat, BitVec.setWidth_eq]
    exact congrArg Host.Outcome.next (if_pos hl)
  · exact congrArg Host.Outcome.next (if_neg hl)

end Sys2Proof.Proofs

/-! ## Proofs about FRAME: the sample path and its faults (40_lifecycle_commands.md R110 to R118) -/

namespace Sys2Proof.Machine

open Sys2Proof.Config (Cfg Stage RsState)

/-! ### `GainClip` (O44) -/

theorem fneg_clipLimit : fneg clipLimit = cMinusOne := by decide

/-- The three results of `GainClip` (40 R112). -/
theorem gainClip_eq (c : Core) (x : Word) :
    gainClip c x =
      if c.active.clip then
        (if flt cOne (fmul x c.active.ig) then cOne
         else if flt (fmul x c.active.ig) cMinusOne then cMinusOne else fmul x c.active.ig)
      else fmul x c.active.ig := by
  rw [gainClip, fneg_clipLimit, clipLimit]

theorem not_flt_of_fle {a b : Word} (h : fle a b = true) : ¬flt b a = true := fun hlt =>
  not_lt_of_ge ((fle_iff _ _).1 h).2.2 ((flt_iff _ _).1 hlt).2.2

theorem fle_of_not_flt {a b : Word} (ha : isNan a = false) (hb : isNan b = false) (h : ¬flt b a = true) : fle a b = true :=
  (fle_iff _ _).2 ⟨ha, hb, not_lt.1 fun hlt => h ((flt_iff _ _).2 ⟨hb, ha, hlt⟩)⟩

/-- No comparison holds of a NaN (49 R285). -/
theorem flt_isNan_left {a : Word} (h : isNan a = true) (b : Word) : flt a b = false := by rw [flt, h]; rfl

theorem flt_isNan_right {b : Word} (h : isNan b = true) (a : Word) : flt a b = false := by
  rw [flt, h, Bool.not_true, Bool.and_false, Bool.false_and]

/-- −1.0 < 1.0, so the two clips exclude each other. -/
theorem not_flt_one_of_flt_minusOne {t : Word} (h : flt t cMinusOne = true) : ¬flt cOne t = true := by
  have places : orderKey cMinusOne < orderKey cOne := by decide
  have below := ((flt_iff _ _).1 h).2.2
  exact fun hlt => not_lt_of_gt (below.trans places) ((flt_iff _ _).1 hlt).2.2

/-- A word between −1.0 and 1.0 is finite. -/
theorem isFinite_of_unit_bounds {t : Word} (hlo : fle cMinusOne t = true) (hhi : fle t cOne = true) : isFinite t = true := by
  have one : orderKey cOne = 1023 * 2 ^ 52 := by decide
  have minusOne : orderKey cMinusOne = -(1023 * 2 ^ 52) := by decide
  obtain ⟨-, -, lo⟩ := (fle_iff _ _).1 hlo
  obtain ⟨-, -, hi⟩ := (fle_iff _ _).1 hhi
  have place := orderKey_eq t
  rw [isFinite_iff]
  split at place <;> omega

/-! ### The accumulators of a stage step (43 R182, R186) -/

/-- The accumulator after the first terms of a sequence. -/
def partialSum (term : Nat → Word) : Nat → Word
  | 0 => cZero
  | i + 1 => fadd (partialSum term i) (term i)

theorem upAcc_eq (d : Desc) (g u : List Word) (i : Nat) :
    upAcc d g u i = partialSum (fun i => fmul (memRead g (d.start + 2 * i)) (upSum d u i)) i := by
  induction i with
  | zero => rfl
  | succ i ih => rw [upAcc, partialSum, ih]

theorem dnAcc_eq (d : Desc) (h w : List Word) (i : Nat) :
    dnAcc d h w i = partialSum (fun i => fmul (memRead h (d.start + 2 * i)) (dnSum d w i)) i := by
  induction i with
  | zero => rfl
  | succ i ih => rw [dnAcc, partialSum, ih]

theorem accumulate_range (term : Nat → Word) (n : Nat) : accumulate ((List.range n).map term) = partialSum term n := by
  induction n with
  | zero => rfl
  | succ n ih =>
    rw [accumulate] at ih
    rw [accumulate, List.range_succ, List.map_append, List.foldl_append, ih]
    rfl

theorem runningSums_append (xs : List Word) (t : Word) :
    ∀ acc, runningSums acc (xs ++ [t]) = runningSums acc xs ++ [fadd (xs.foldl fadd acc) t] := by
  induction xs with
  | nil => exact fun _ => rfl
  | cons x xs ih => exact fun acc => congrArg _ (ih _)

theorem runningSums_range (term : Nat → Word) (n : Nat) :
    runningSums cZero ((List.range n).map term) = (List.range n).map fun i => partialSum term (i + 1) := by
  induction n with
  | zero => rfl
  | succ n ih =>
    have acc := accumulate_range term n
    rw [accumulate] at acc
    rw [List.range_succ, List.map_append, List.map_append, List.map_singleton, runningSums_append, ih, acc]
    rfl

theorem memRead_map_range (f : Nat → Word) {i n : Nat} (h : i < n) : memRead ((List.range n).map f) i = f i := by
  simp [memRead, h]

/-- The terms of a step, for pair sums given by their pass. -/
theorem tapTerms_range (d : Desc) (table : List Word) (pair : Nat → Word) :
    tapTerms d table ((List.range d.np).map pair)
      = (List.range d.np).map fun i => fmul (memRead table (d.start + 2 * i)) (pair i) :=
  List.map_congr_left fun i hi => by rw [memRead_map_range pair (List.mem_range.1 hi)]

/-- If every value of the accumulator is finite, the last one is, after no pass too. -/
theorem isFinite_partialSum {term : Nat → Word} {n : Nat} (h : ∀ i < n, isFinite (partialSum term (i + 1)) = true) :
    isFinite (partialSum term n) = true := by
  cases n with
  | zero => exact isFinite_zeroWord false
  | succ n => exact h n (Nat.lt_succ_self n)

/-- The check of the pair sums and the accumulator, pass by pass (40 R118, log 20). -/
theorem all_sums (pair term : Nat → Word) (n : Nat) :
    ((List.range n).map pair ++ runningSums cZero ((List.range n).map term)).all isFinite
      = (List.range n).all fun i => isFinite (pair i) && isFinite (partialSum term (i + 1)) := by
  rw [runningSums_range, Bool.eq_iff_iff]
  simp [forall_and]

/-! ### Stage steps and cascades against the rules (43, 44 R202, R203) -/

/-- What the rules give of a stage: the outputs, the history, and whether every checked value is finite. -/
def StageStep.path (r : StageStep) : StagePath := ⟨r.out, r.hist, r.seen.all isFinite⟩

section
variable (d : Desc) (table window : List Word)

theorem tapTerms_upPairs :
    tapTerms d table (upPairs d window)
      = (List.range d.np).map fun i => fmul (memRead table (d.start + 2 * i)) (upSum d window i) :=
  tapTerms_range d table (upSum d window)

theorem tapTerms_dnPairs :
    tapTerms d table (dnPairs d window)
      = (List.range d.np).map fun i => fmul (memRead table (d.start + 2 * i)) (dnSum d window i) :=
  tapTerms_range d table (dnSum d window)

theorem accumulate_upPairs : accumulate (tapTerms d table (upPairs d window)) = upAcc d table window d.np := by
  rw [tapTerms_upPairs, accumulate_range, upAcc_eq]

theorem accumulate_dnPairs : accumulate (tapTerms d table (dnPairs d window)) = dnAcc d table window d.np := by
  rw [tapTerms_dnPairs, accumulate_range, dnAcc_eq]

theorem all_upSums :
    (upPairs d window ++ runningSums cZero (tapTerms d table (upPairs d window))).all isFinite
      = (List.range d.np).all fun i => isFinite (upSum d window i) && isFinite (upAcc d table window (i + 1)) := by
  simp only [tapTerms_upPairs, upAcc_eq]
  exact all_sums (upSum d window) _ d.np

theorem all_dnSums :
    (dnPairs d window ++ runningSums cZero (tapTerms d table (dnPairs d window))).all isFinite
      = (List.range d.np).all fun i => isFinite (dnSum d window i) && isFinite (dnAcc d table window (i + 1)) := by
  simp only [tapTerms_dnPairs, dnAcc_eq]
  exact all_sums (dnSum d window) _ d.np

/-- The check of the accumulator covers its last value, the output. -/
theorem isFinite_upAcc_of_all
    (h : ((List.range d.np).all fun i => isFinite (upSum d window i) && isFinite (upAcc d table window (i + 1))) = true) :
    isFinite (upAcc d table window d.np) = true := by
  simp only [List.all_eq_true, List.mem_range, Bool.and_eq_true, upAcc_eq] at h
  rw [upAcc_eq]
  exact isFinite_partialSum fun i hi => (h i hi).2

end

/-- Both outputs of an up step: the accumulator and the centre, in the order of `START` (43 R182). -/
theorem hbUp_out (d : Desc) (g hist : List Word) (x : Word) :
    (hbUp d g hist x).out = [(upOutputs d g hist x).1, (upOutputs d g hist x).2] := by
  simp only [hbUp, upWindow, accumulate_upPairs, upOutputs]
  split <;> rfl

theorem isFinite_upOutputs (d : Desc) (g hist : List Word) (x : Word) :
    (isFinite (upOutputs d g hist x).1 && isFinite (upOutputs d g hist x).2)
      = (isFinite (upAcc d g (x :: hist) d.np) && isFinite (upCentre d g (x :: hist))) := by
  rw [upOutputs]
  split
  · rfl
  · exact Bool.and_comm _ _

theorem all_hbUp_seen (d : Desc) (g hist : List Word) (x : Word) :
    (hbUp d g hist x).seen.all isFinite = upFinite d g hist x := by
  have seen : (hbUp d g hist x).seen = x :: (upPairs d (x :: hist)
      ++ runningSums cZero (tapTerms d g (upPairs d (x :: hist))) ++ (hbUp d g hist x).out) := rfl
  have last := isFinite_upAcc_of_all d g (x :: hist)
  rw [seen, hbUp_out, List.all_cons, List.all_append, all_upSums, List.all_cons, List.all_cons, List.all_nil, Bool.and_true,
    isFinite_upOutputs, upFinite, Bool.eq_iff_iff]
  simp only [Bool.and_eq_true]
  tauto

theorem all_hbDn_seen (d : Desc) (h hist : List Word) (a b : Word) :
    (hbDn d h hist a b).seen.all isFinite = dnFinite d h hist a b := by
  have seen : (hbDn d h hist a b).seen = a :: b :: (dnPairs d (b :: a :: hist)
      ++ runningSums cZero (tapTerms d h (dnPairs d (b :: a :: hist))) ++ [dnOutput d h hist a b]) := by
    simp only [hbDn, dnWindow, dnOutput, accumulate_dnPairs]
  rw [seen, List.all_cons, List.all_cons, List.all_append, all_dnSums, List.all_cons, List.all_nil, Bool.and_true, dnFinite]
  ac_rfl

theorem upStage_path (d : Desc) (g inputs : List Word) :
    ∀ hist, (upStage d g hist inputs).path = upPath d g hist inputs := by
  induction inputs with
  | nil => exact fun _ => rfl
  | cons x xs ih =>
    intro hist
    rw [upPath, ← ih, upStage, StageStep.path, hbUp_out, List.all_append, all_hbUp_seen]
    rfl

theorem dnStage_path (d : Desc) (h : List Word) : ∀ inputs hist, (dnStage d h hist inputs).path = dnPath d h hist inputs
  | [], _ | [_], _ => rfl
  | a :: b :: xs, hist => by
    have out : (hbDn d h hist a b).out = [dnOutput d h hist a b] := by
      simp only [hbDn, dnWindow, dnOutput, accumulate_dnPairs]
    rw [dnPath, ← dnStage_path d h xs, dnStage, StageStep.path, out, List.all_append, all_hbDn_seen]
    rfl

/-- What the rules give of a cascade. -/
def CascadeRun.path (r : CascadeRun) : NetworkPath := ⟨r.out, r.hist, r.seen.all isFinite⟩

theorem cascade_path {stage : Desc → List Word → List Word → List Word → StageStep}
    {path : Desc → List Word → List Word → List Word → StagePath}
    (step : ∀ d table inputs hist, (stage d table hist inputs).path = path d table hist inputs)
    (descs : PerStage Desc) (tables : PerStage (List Word)) (ks : List Stage) :
    ∀ hist cur, (cascade stage descs tables ks hist cur).path = networkPath path descs tables ks hist cur := by
  induction ks with
  | nil => exact fun _ _ => rfl
  | cons k ks ih =>
    intro hist cur
    rw [networkPath, ← step, ← ih, cascade, CascadeRun.path, List.all_append]
    rfl

/-! ### The non-linearity against the rules (45 R224, R226, 40 R114) -/

/-- What the rules give of `NonLin`. -/
def NonLinRun.path (r : NonLinRun) : ShapePath := ⟨r.out, r.chan, r.seen.all isFinite⟩

/-- The split checks `lp` and `hp` twice, as running values and as bands. -/
theorem splitShape_path (c : Core) (ch : Channel) (v : Word) : (splitShape c ch v).path = splitPath c ch v := by
  rw [NonLinRun.path, splitPath, ShapePath.mk.injEq]
  refine ⟨rfl, rfl, ?_⟩
  rw [Bool.eq_iff_iff]
  simp only [splitShape, splitStep, splitSection, shapeBands, List.all_cons, List.all_nil, Bool.and_eq_true]
  tauto

theorem nonLin_path (c : Core) (ch : Channel) (v : Word) :
    (nonLin c ch v).path
      = if c.active.split then splitPath c ch v else ⟨[shape c.curve v], ch, isFinite (shape c.curve v)⟩ := by
  rw [nonLin]
  split
  · exact splitShape_path c ch v
  · rw [NonLinRun.path, List.all_cons, List.all_nil, Bool.and_true]

theorem nonLinAll_path (c : Core) (vs : List Word) : ∀ ch, (nonLinAll c ch vs).path = shapePath c ch vs := by
  induction vs with
  | nil => exact fun _ => rfl
  | cons v vs ih =>
    intro ch
    rw [shapePath, ← nonLin_path, ← ih, nonLinAll, NonLinRun.path, List.all_append]
    rfl

/-- The results of the non-linearity are among the values it checks. -/
theorem all_nonLinAll_out (c : Core) (vs : List Word) :
    ∀ ch, (nonLinAll c ch vs).seen.all isFinite = true → (nonLinAll c ch vs).out.all isFinite = true := by
  induction vs with
  | nil => exact fun _ _ => rfl
  | cons v vs ih =>
    intro ch h
    have one : ∀ w ∈ (nonLin c ch v).out, w ∈ (nonLin c ch v).seen := by
      rw [nonLin]
      split <;> simp [splitShape]
    rw [nonLinAll, List.all_append, Bool.and_eq_true, List.all_eq_true] at h
    rw [nonLinAll, List.all_append, Bool.and_eq_true, List.all_eq_true]
    exact ⟨fun w hw => h.1 w (one w hw), ih _ h.2⟩

/-! ### Rate conversions against the rules (40 R113, R115, 44 R211, R212) -/

/-- The files that the up conversion writes. -/
def Channel.withUp (ch : Channel) (hup : PerStage (List Word)) (rs : Option RsState) : Channel :=
  { ch with hup := hup, rsUp := rs }

/-- The files that the down conversion writes. -/
def Channel.withDn (ch : Channel) (hdn : PerStage (List Word)) (rs : Option RsState) : Channel :=
  { ch with hdn := hdn, rsDn := rs }

/-- The non-linearity neither reads nor writes the files of the up conversion. -/
theorem nonLinAll_withUp (c : Core) (hup : PerStage (List Word)) (rs : Option RsState) (vs : List Word) :
    ∀ ch : Channel, nonLinAll c (ch.withUp hup rs) vs
      = { nonLinAll c ch vs with chan := (nonLinAll c ch vs).chan.withUp hup rs } := by
  induction vs with
  | nil => exact fun _ => rfl
  | cons v vs ih =>
    intro ch
    have one : nonLin c (ch.withUp hup rs) v = { nonLin c ch v with chan := (nonLin c ch v).chan.withUp hup rs } := by
      rw [nonLin, nonLin]
      split <;> rfl
    simp only [nonLinAll, one, ih]

/-- A Resampler call with the right count (44 R211). -/
theorem resample_of_rightCount (cfg : Cfg) (n : Nat) {inst : Option RsState} {input : List Word} {want : Nat} (hw : want ≠ 0)
    (h : (rsAnswer cfg inst input).1.length = want) :
    resample cfg n inst input want
      = ⟨(rsAnswer cfg inst input).1, (rsAnswer cfg inst input).2, false, input ++ (rsAnswer cfg inst input).1, 0⟩ := by
  cases inst with
  | none => exact absurd h.symm hw
  | some st => rw [rsAnswer] at h; simp only [resample, rsAnswer, if_pos h]

theorem usesResampler_eq_false_iff (c : Core) : c.usesResampler = false ↔ c.active.phase = .min ∨ c.active.os = 0 := by
  rw [← Bool.not_eq_true, usesResampler_iff]
  cases c.active.phase <;> simp

/-- What a rate conversion gives where the counts are right: its samples, the channel after, no fault, whether the checked values
are finite, and no free value used. -/
structure RateRun.Gives (r : RateRun) (out : List Word) (chan : Channel) (finite : Bool) : Prop where
  out : r.out = out
  chan : r.chan = chan
  fault : r.fault = false
  seen : r.seen.all isFinite = finite
  used : r.used = 0

section
variable (cfg : Cfg) (c : Core) (n : Nat) (ch : Channel)

/-- `Up` by the cascade, which has no stage at f = 1 (40 R113). -/
theorem convertUp_cascade (h : c.usesResampler = false) (d : Word) :
    let up := networkPath upPath c.descUp c.coefUp (stagesOf c.active.os) ch.hup [d]
    (convertUp cfg c n ch d).Gives up.out (ch.withUp up.hist ch.rsUp) up.finite := by
  intro up
  have run : (cascadeUp c ch.hup d).path = up := cascade_path upStage_path ..
  rw [← run]
  by_cases h0 : c.active.os = 0
  · have none : stagesOf c.active.os = [] := by rw [h0]; rfl
    simp only [convertUp, if_pos h0, cascadeUp, none]
    exact ⟨rfl, rfl, rfl, rfl, rfl⟩
  · have min := ((usesResampler_eq_false_iff c).1 h).resolve_right h0
    simp only [convertUp, if_neg h0, min]
    exact ⟨rfl, rfl, rfl, rfl, rfl⟩

/-- `Down` by the cascade (40 R115). -/
theorem convertDown_cascade (h : c.usesResampler = false) (p : List Word) {hdn : PerStage (List Word)} {rs : Option RsState}
    (hfile : ch.hdn = hdn) (hinst : ch.rsDn = rs) :
    let dn := networkPath dnPath c.descDn c.coefDn (stagesOf c.active.os).reverse hdn p
    (convertDown cfg c n ch p).Gives dn.out (ch.withDn dn.hist rs) dn.finite := by
  intro dn
  subst hfile hinst
  have run : (cascadeDown c ch.hdn p).path = dn := cascade_path dnStage_path ..
  rw [← run]
  by_cases h0 : c.active.os = 0
  · have none : (stagesOf c.active.os).reverse = [] := by rw [h0]; rfl
    simp only [convertDown, if_pos h0, cascadeDown, none]
    exact ⟨rfl, rfl, rfl, rfl, rfl⟩
  · have min := ((usesResampler_eq_false_iff c).1 h).resolve_right h0
    simp only [convertDown, if_neg h0, min]
    exact ⟨rfl, rfl, rfl, rfl, rfl⟩

/-- `Up` by a Resampler call with the right count (40 R113, 44 R212). -/
theorem convertUp_resampler (h : c.usesResampler = true) {d : Word}
    (hc : (rsAnswer cfg ch.rsUp [d]).1.length = 2 ^ c.active.os.toNat) :
    (convertUp cfg c n ch d).Gives (rsAnswer cfg ch.rsUp [d]).1 (ch.withUp ch.hup (rsAnswer cfg ch.rsUp [d]).2)
      (isFinite d && (rsAnswer cfg ch.rsUp [d]).1.all isFinite) := by
  obtain ⟨hp, h0⟩ := (usesResampler_iff c).1 h
  simp only [convertUp, if_neg h0, hp, factor, resample_of_rightCount cfg n (NeZero.ne _) hc]
  exact ⟨rfl, rfl, rfl, rfl, rfl⟩

/-- `Down` by a Resampler call with the right count (40 R115, 44 R212). -/
theorem convertDown_resampler (h : c.usesResampler = true) {p : List Word} {hdn : PerStage (List Word)} {rs : Option RsState}
    (hfile : ch.hdn = hdn) (hinst : ch.rsDn = rs) (hc : (rsAnswer cfg rs p).1.length = 1) :
    (convertDown cfg c n ch p).Gives (rsAnswer cfg rs p).1 (ch.withDn hdn (rsAnswer cfg rs p).2)
      (p.all isFinite && (rsAnswer cfg rs p).1.all isFinite) := by
  subst hfile hinst
  obtain ⟨hp, h0⟩ := (usesResampler_iff c).1 h
  simp only [convertDown, if_neg h0, hp, resample_of_rightCount cfg n one_ne_zero hc]
  exact ⟨rfl, rfl, rfl, List.all_append, rfl⟩

end

/-! ### The sample path of a channel against the rules (40 R110) -/

theorem memRead_zero (l : List Word) : memRead l 0 = l.headD 0 := by cases l <;> rfl

/-- The sample path, from what the two rate conversions give (40 R110, R116 to R118). -/
theorem processChannel_of_gives {cfg : Cfg} {c : Core} {n : Nat} {ch : Channel} {x : Word} {u p : List Word}
    {hup hdn : PerStage (List Word)} {rsUp rsDn : Option RsState} {finiteUp finiteDn : Bool}
    (up : (convertUp cfg c n ch (gainClip c x)).Gives u (ch.withUp hup rsUp) finiteUp)
    (dn : (convertDown cfg c n ((nonLinAll c ch u).chan.withUp hup rsUp) (nonLinAll c ch u).out).Gives p
      (((nonLinAll c ch u).chan.withUp hup rsUp).withDn hdn rsDn) finiteDn) :
    let nl := shapePath c ch u
    let dd := (ch.lq ++ [gainClip c x]).headD 0
    let m := mixWetDry c.active.mix (p.headD 0) dd
    let y := fmul m c.active.og
    let envIn := envUpdate cfg c ch.envIn dd
    let envOut := envUpdate cfg c ch.envOut y
    processChannel cfg c n ch x =
      { y := y
        chan :=
          { nl.chan with
            hup := hup, hdn := hdn, rsUp := rsUp, rsDn := rsDn
            lq := (ch.lq ++ [gainClip c x]).tail, envIn := envIn, envOut := envOut }
        rsFault := false
        finite := isFinite x && isFinite (gainClip c x) && finiteUp && nl.finite && finiteDn
          && [p.headD 0, dd, m, y, envIn, envOut].all isFinite && outFinite c.fmt y
        used := 0 } := by
  obtain ⟨-, -, lq, envIn, envOut, -, -⟩ := nonLinAll_frame c u ch
  have pair : [x, gainClip c x].all isFinite = (isFinite x && isFinite (gainClip c x)) := by
    rw [List.all_cons, List.all_cons, List.all_nil, Bool.and_true]
  have finite : ((nonLinAll c ch u).seen).all isFinite = (shapePath c ch u).finite := by rw [← nonLinAll_path]; rfl
  simp only [processChannel, up.out, up.chan, up.fault, up.used, nonLinAll_withUp, Nat.add_zero, dn.out, dn.chan, dn.fault,
    dn.used, memRead_zero, align, allFinite, List.all_append, up.seen, dn.seen, finite, pair]
  simp only [Channel.withUp, Channel.withDn, lq, envIn, envOut, ← nonLinAll_path]
  rfl

/-- The inputs of the two Resampler calls, d and the results of the non-linearity, are checked before (40 R118). -/
theorem checks_of_calls {x d up shaped shapedOut dn : Bool} (h : shaped = true → shapedOut = true) :
    (x && d && (d && up) && shaped && (shapedOut && dn)) = (x && d && shaped && (up && dn)) := by
  rw [Bool.eq_iff_iff]
  simp only [Bool.and_eq_true]
  tauto

/-- Where the Resampler answers right counts, the sample path is that of the rules (40 R110 to R118). -/
theorem processChannel_framePath (cfg : Cfg) (c : Core) (n : Nat) (ch : Channel) (opd : Word)
    (h : (framePath cfg c ch opd).rightCounts = true) :
    processChannel cfg c n ch (sampleIn c.fmt opd)
      = ⟨(framePath cfg c ch opd).y, (framePath cfg c ch opd).chan, false, (framePath cfg c ch opd).finite, 0⟩ := by
  cases hu : c.usesResampler with
  | false =>
    have up := convertUp_cascade cfg c n ch hu (gainClip c (sampleIn c.fmt opd))
    obtain ⟨-, hdn, -, -, -, -, rsDn⟩ := nonLinAll_frame c _ ch
    rw [processChannel_of_gives up (convertDown_cascade cfg c n _ hu _ hdn rsDn), ChannelRun.mk.injEq]
    simp only [framePath, hu, ← gainClip_eq, ← nonLinAll_path, Bool.false_eq_true, if_false]
    refine ⟨rfl, rfl, trivial, congrArg (· && _ && _) ?_, trivial⟩
    ac_rfl
  | true =>
    simp only [framePath, hu, ← gainClip_eq, ← nonLinAll_path, if_true, Bool.not_true, Bool.false_or, Bool.and_eq_true,
      beq_iff_eq] at h
    obtain ⟨countUp, countDn⟩ := h
    have up := convertUp_resampler cfg c n ch hu countUp
    obtain ⟨-, hdn, -, -, -, -, rsDn⟩ := nonLinAll_frame c _ ch
    rw [processChannel_of_gives up (convertDown_resampler cfg c n _ hu hdn rsDn countDn), ChannelRun.mk.injEq]
    simp only [framePath, hu, ← gainClip_eq, ← nonLinAll_path, if_true]
    exact ⟨rfl, rfl, trivial, congrArg (· && _ && _) (checks_of_calls (all_nonLinAll_out c _ ch)), trivial⟩

/-! ### One channel and both (40 R110, R118) -/

/-- A channel with right counts: `NONFIN` exactly where a checked value is not finite. -/
theorem frameChannel_nonFinite {cfg : Cfg} {c : Core} {ch : Channel} {opd : Word}
    (h : (framePath cfg c ch opd).rightCounts = true) (n : Nat) :
    (frameChannel cfg c n ch opd).nonFinite = !(framePath cfg c ch opd).finite := by
  rw [frameChannel, processChannel_framePath cfg c n ch opd h]
  cases (framePath cfg c ch opd).finite <;> rfl

/-- A channel with right counts and finite values gives what the rules give. -/
theorem frameChannel_framePath {cfg : Cfg} {c : Core} {ch : Channel} {opd : Word}
    (h : (framePath cfg c ch opd).rightCounts = true) (hf : (framePath cfg c ch opd).finite = true) (n : Nat) :
    frameChannel cfg c n ch opd
      = ⟨sampleOut c.fmt (framePath cfg c ch opd).y, (framePath cfg c ch opd).chan, false, false, 0⟩ := by
  rw [frameChannel, processChannel_framePath cfg c n ch opd h]
  exact if_pos hf

/-- A sample, or a gained and clipped sample, that is not finite raises `NONFIN`, whatever the counts. -/
theorem frameChannel_nonFinite_of_rejected {cfg : Cfg} {c : Core} {ch : Channel} {opd : Word}
    (h : isFinite (sampleIn c.fmt opd) = false ∨ isFinite (gainClip c (sampleIn c.fmt opd)) = false) (n : Nat) :
    (frameChannel cfg c n ch opd).nonFinite = true := by
  obtain ⟨r, rfl, -, ⟨hf, -⟩ | ⟨-, -, hn⟩⟩ := frameChannel_cases cfg c n ch opd
  · simp only [processChannel, allFinite, List.all_append, List.all_cons, Bool.and_eq_true] at hf
    obtain ⟨⟨⟨⟨⟨⟨hx, hd, -⟩, -⟩, -⟩, -⟩, -⟩, -⟩ := hf
    rw [hx, hd] at h
    simp at h
  · exact hn

theorem convertUp_lq (cfg : Cfg) (c : Core) (n : Nat) (ch : Channel) (d : Word) : (convertUp cfg c n ch d).chan.lq = ch.lq := by
  unfold convertUp
  repeat' split
  all_goals rfl

theorem convertDown_lq (cfg : Cfg) (c : Core) (n : Nat) (ch : Channel) (p : List Word) :
    (convertDown cfg c n ch p).chan.lq = ch.lq := by
  unfold convertDown
  repeat' split
  all_goals rfl

/-- FRAME keeps the length of a latency queue, after `NonFinite` too (10 R47, 47 R250). -/
theorem length_frameChannel_lq (cfg : Cfg) (c : Core) (n : Nat) (ch : Channel) (opd : Word) :
    (frameChannel cfg c n ch opd).chan.lq.length = ch.lq.length := by
  have kept : (processChannel cfg c n ch (sampleIn c.fmt opd)).chan.lq.length = ch.lq.length := by
    simp only [processChannel, length_align, convertDown_lq, (nonLinAll_frame c _ _).2.2.1, convertUp_lq]
  obtain ⟨r, rfl, -, ⟨-, hc, -⟩ | ⟨-, hc, -⟩⟩ := frameChannel_cases cfg c n ch opd
  · rw [hc, kept]
  · rw [hc, length_scrambleChannel_lq, kept]

theorem frameChannels_mono {c : Core} (h : c.nch = .mono) (cfg : Cfg) (n : Nat) (samples : List Word) :
    frameChannels cfg c n samples = (frameChannel cfg c n c.chan0 (memRead samples 0), idleChannel c.chan1) := by
  simp only [frameChannels, h]

theorem frameChannels_stereo {c : Core} (h : c.nch = .stereo) (cfg : Cfg) (n : Nat) (samples : List Word) :
    frameChannels cfg c n samples
      = (frameChannel cfg c n c.chan0 (memRead samples 0),
         frameChannel cfg c (n + (frameChannel cfg c n c.chan0 (memRead samples 0)).used) c.chan1 (memRead samples 1)) := by
  simp only [frameChannels, h]

/-- FRAME in INBLOCK, written out (40 R110). -/
theorem frameWith_of_inblock {s : State} (h : s.core.life = .inblock) (cfg : Cfg) (samples : List Word) :
    frameWith cfg samples s =
      { s with
        core := frameCore s.core (frameChannels cfg s.core s.freeCount samples)
        port :=
          { s.port with
            responses := s.port.responses ++ [⟨.ok, [(frameChannels cfg s.core s.freeCount samples).1.res,
              (frameChannels cfg s.core s.freeCount samples).2.res].take s.core.nch.count⟩] }
        freeCount := s.freeCount + (frameChannels cfg s.core s.freeCount samples).1.used
          + (frameChannels cfg s.core s.freeCount samples).2.used } := if_pos h

/-- A FRAME whose channels gave no fault and used no free value. -/
theorem frameWith_of_no_fault {cfg : Cfg} {samples : List Word} {s : State} {w0 w1 : Word} {ch0 ch1 : Channel}
    (h : s.core.life = .inblock)
    (hc : frameChannels cfg s.core s.freeCount samples = (⟨w0, ch0, false, false, 0⟩, ⟨w1, ch1, false, false, 0⟩)) :
    frameWith cfg samples s =
      { s with
        core := { s.core with chan0 := ch0, chan1 := ch1, blkcnt := satIncr s.core.blkcnt }
        port := { s.port with responses := s.port.responses ++ [⟨.ok, [w0, w1].take s.core.nch.count⟩] } } := by
  rw [frameWith_of_inblock h, hc, frameCore]
  simp only [Bool.or_false]
  rfl

theorem frameCore_nonfin_eq_true (c : Core) (r : ChannelResult × ChannelResult) :
    (frameCore c r).nonfin = true ↔ c.nonfin = true ∨ r.1.nonFinite = true ∨ r.2.nonFinite = true := by
  rw [frameCore_nonfin, Bool.or_eq_true, Bool.or_eq_true, or_assoc]

end Sys2Proof.Machine

namespace Sys2Proof.Proofs

open Sys2Proof Sys2Proof.Machine

/-- Settles O44, by the three results of `GainClip`. -/
theorem gainClipBounds : Obligations.GainClipBounds := by
  intro c x
  rw [gainClip_eq]
  generalize fmul x c.active.ig = t
  have limits : fle cMinusOne cOne = true ∧ fle cOne cOne = true ∧ fle cMinusOne cMinusOne = true := by decide
  refine ⟨fun off => if_neg (by simp [off]), fun on => ?_⟩
  rw [if_pos on]
  refine ⟨fun hn => ?nan, fun hn => ?bounds, fun hlo hhi => ?between, fun h => if_pos h, fun h => ?below⟩
  case nan => rw [flt_isNan_right hn, flt_isNan_left hn]; rfl
  case between => rw [if_neg (not_flt_of_fle hhi), if_neg (not_flt_of_fle hlo)]
  case below => rw [if_neg (not_flt_one_of_flt_minusOne h), if_pos h]
  case bounds =>
    split
    next => exact ⟨limits.1, limits.2.1, by decide⟩
    next above =>
      split
      next => exact ⟨limits.2.2, limits.1, by decide⟩
      next below =>
        have lo := fle_of_not_flt (by decide) hn below
        have hi := fle_of_not_flt hn (by decide) above
        exact ⟨lo, hi, isFinite_of_unit_bounds lo hi⟩

/-- Settles O30: the response has a word for each channel in use, and `frameCore` writes no other part of the core. -/
theorem frameCompletes : Obligations.FrameCompletes := by
  intro samples s hl
  rw [exec_frame, frameWith_of_inblock hl]
  refine ⟨_, _, rfl, ?_, rfl, rfl, fun h => ?_, fun h => ?_⟩
  · cases s.core.nch <;> rfl
  · exact (frameCore_nonfin_eq_true _ _).2 (.inl h)
  · rw [frameCore_rsfault, h]; rfl

/-- Settles O31: each channel in use gives what the rules give, without a fault and without a free value. -/
theorem frameResult : Obligations.FrameResult := by
  refine ⟨exec_frame, fun cfg x0 x1 s => ?_⟩
  intro c r0 r1 counted hl right0 finite0
  have first (n : Nat) : frameChannel cfg c n c.chan0 x0 = ⟨sampleOut c.fmt r0.y, r0.chan, false, false, 0⟩ :=
    frameChannel_framePath right0 finite0 n
  refine ⟨fun hm => ?mono, fun hs right1 finite1 => ?stereo⟩
  case mono =>
    have count : s.core.nch.count = 1 := congrArg Channels.count hm
    have channels : frameChannels cfg s.core s.freeCount [x0]
        = (⟨sampleOut c.fmt r0.y, r0.chan, false, false, 0⟩, idleChannel c.chan1) :=
      (frameChannels_mono hm cfg _ _).trans (Prod.ext (first _) rfl)
    rw [frameWith_of_no_fault hl channels, count]
    rfl
  case stereo =>
    have second (n : Nat) : frameChannel cfg c n c.chan1 x1 = ⟨sampleOut c.fmt r1.y, r1.chan, false, false, 0⟩ :=
      frameChannel_framePath right1 finite1 n
    have count : s.core.nch.count = 2 := congrArg Channels.count hs
    have channels : frameChannels cfg s.core s.freeCount [x0, x1]
        = (⟨sampleOut c.fmt r0.y, r0.chan, false, false, 0⟩, ⟨sampleOut c.fmt r1.y, r1.chan, false, false, 0⟩) :=
      (frameChannels_stereo hs cfg _ _).trans (Prod.ext (first _) (second _))
    rw [frameWith_of_no_fault hl channels, count]
    rfl

/-- Settles O32: `NONFIN` goes by the channels in use, and a channel by its checked values. -/
theorem nonFiniteSampleFlagged : Obligations.NonFiniteSampleFlagged := by
  intro cfg samples s hl t r0 r1 rejected
  have written := frameWith_of_inblock hl cfg samples
  have core : t.core = frameCore s.core (frameChannels cfg s.core s.freeCount samples) := congrArg State.core written
  have raised : t.core.nonfin = true ↔ s.core.nonfin = true
      ∨ (frameChannels cfg s.core s.freeCount samples).1.nonFinite = true
      ∨ (frameChannels cfg s.core s.freeCount samples).2.nonFinite = true := by rw [core, frameCore_nonfin_eq_true]
  obtain ⟨first, second⟩ := frameChannels_cases cfg s.core s.freeCount samples
  have used (hs : s.core.nch = .stereo) : ∃ n, (frameChannels cfg s.core s.freeCount samples).2
      = frameChannel cfg s.core n s.core.chan1 (memRead samples 1) :=
    second.elim (fun h => by rw [hs] at h; cases h.1) (·.2)
  refine ⟨fun right bad => ?first, fun hs right bad => ?second, fun right good both => ?clear, fun h => ?rejected,
    fun h => raised.2 (.inl h), exec_frame samples s, ?code, ?queue0, ?queue1⟩
  case first => exact raised.2 (.inr (.inl (by rw [first, frameChannel_nonFinite right, bad]; rfl)))
  case second =>
    obtain ⟨n, e⟩ := used hs
    exact raised.2 (.inr (.inr (by rw [e, frameChannel_nonFinite right, bad]; rfl)))
  case clear =>
    have second_clear : (frameChannels cfg s.core s.freeCount samples).2.nonFinite = false := by
      rcases second with ⟨-, e⟩ | ⟨hs, n, e⟩
      · rw [e]; rfl
      · rw [e, frameChannel_nonFinite (both hs).1, (both hs).2]; rfl
    rw [core, frameCore_nonfin, first, frameChannel_nonFinite right, good, second_clear]
    simp
  case rejected =>
    rcases h with h | ⟨hs, h⟩
    · exact raised.2 (.inr (.inl (by rw [first, frameChannel_nonFinite_of_rejected h])))
    · obtain ⟨n, e⟩ := used hs
      exact raised.2 (.inr (.inr (by rw [e, frameChannel_nonFinite_of_rejected h])))
  case code => exact (congrArg State.lastCode written).trans (lastCode_finish s _ _)
  case queue0 => rw [core, frameCore_chan0, first, length_frameChannel_lq]
  case queue1 =>
    rw [core, frameCore_chan1]
    rcases second with ⟨-, e⟩ | ⟨-, n, e⟩
    · rw [e]; rfl
    · rw [e, length_frameChannel_lq]

end Sys2Proof.Proofs

/-! ## Proofs about the parameter and query commands (41_parameter_commands.md R130 to R147) -/

namespace Sys2Proof.Machine

/-! ### The setters: which operands are legal, what is written (41 R130) -/

/-- The operands that a setter accepts (41 R131 to R142). -/
def legalOperand : Instr → Bool
  | .setig v | .setog v => isFinite v
  | .setmix v | .setcurve v => inUnitRange v
  | .setxlo v | .setxhi v | .setdecay v => isPositiveFinite v
  | _ => true

/-- The write of an accepted setter: the pending copy of its register and, for registers 8, 9 and 11, the written flag
(41 R130). -/
def writeRegister : Instr → Core → Core
  | .setig v, c => { c with pending := { c.pending with ig := v } }
  | .setog v, c => { c with pending := { c.pending with og := v } }
  | .setmix v, c => { c with pending := { c.pending with mix := v } }
  | .setcurve v, c => { c with pending := { c.pending with curve := v } }
  | .setclip b, c => { c with pending := { c.pending with clip := b } }
  | .setsplit b, c => { c with pending := { c.pending with split := b } }
  | .setos code, c => { c with pending := { c.pending with os := code } }
  | .setphase p, c => { c with pending := { c.pending with phase := p } }
  | .setxlo v, c => { c with pending := { c.pending with xlo := v }, xloW := true }
  | .setxhi v, c => { c with pending := { c.pending with xhi := v }, xhiW := true }
  | .setenvm m, c => { c with pending := { c.pending with envm := m } }
  | .setdecay v, c => { c with pending := { c.pending with decay := v }, decayW := true }
  | _, c => c

/-- Every setter is a checked write, in whatever state (41 R130). -/
theorem exec_of_isSet {i : Instr} (h : isSet i = true) (s : State) :
    exec i s = s.setRanged (legalOperand i) (writeRegister i s.core) := by
  cases i with
  | reset | prepare | start | stop | blkbegin | frame | blkend | getlat | getstat | getmeter => cases h
  | _ => rfl

theorem writeRegister_frame (i : Instr) (c : Core) :
    writeRegister i c =
      { c with
        pending := (writeRegister i c).pending, xloW := (writeRegister i c).xloW
        xhiW := (writeRegister i c).xhiW, decayW := (writeRegister i c).decayW } := by
  cases i <;> rfl

/-- The later write of one register covers the earlier one (70 R333). -/
theorem writeRegister_writeRegister {i j : Instr} (h : i.op = j.op) (c : Core) :
    writeRegister j (writeRegister i c) = writeRegister j c := by
  cases i with
  | setig | setog | setmix | setcurve | setclip | setsplit | setos | setphase | setxlo | setxhi | setenvm | setdecay =>
    cases j <;> cases h
    rfl
  | _ => rfl

/-- A setter is known by its opcode. -/
theorem isSet_of_op_eq {i j : Instr} (hop : i.op = j.op) (h : isSet i = true) : isSet j = true := by
  rwa [isSet, hop] at h

section
variable {s t : State} {legal : Bool} {c : Core}

/-- A setter with a legal operand answers `OK` and leaves the written core. -/
theorem setRanged_of_legal (h : legal = true) (s : State) (c : Core) :
    s.setRanged legal c = .next
      { s with core := c, port := { s.port with responses := s.port.responses ++ [⟨.ok, []⟩] } } :=
  congrArg Host.Outcome.next (if_pos h)

/-- A setter with another operand is its response alone (41 R130, 60 R301). -/
theorem setRanged_of_illegal (h : legal = false) (s : State) (c : Core) :
    s.setRanged legal c = .next (s.respond .eRange []) := by
  rw [State.setRanged, h, refuse_eq_respond rfl]; rfl

/-- The core after a setter goes by its operand. -/
theorem core_of_setRanged (h : s.setRanged legal c = .next t) : t.core = if legal then c else s.core := by
  cases legal with
  | true => rw [setRanged_of_legal rfl] at h; cases h; rfl
  | false => rw [setRanged_of_illegal rfl] at h; cases h; rfl

/-- The response of a setter goes by its operand, whatever the state. -/
theorem setRanged_lastCode_eq_ok_iff (h : s.setRanged legal c = .next t) : t.lastCode = some .ok ↔ legal = true := by
  rcases setRanged_cases h with ⟨hl, rfl⟩ | ⟨hl, rfl⟩
  · simp [lastCode_finish, hl]
  · simp [lastCode_refuse, hl]

end

/-! ### The legal ranges (41 R133, R139) -/

theorem inUnitRange_eq_true {v : Word} (hlo : fle cZero v = true) (hhi : fle v cOne = true) : inUnitRange v = true := by
  rw [inUnitRange, hlo, hhi]; rfl

theorem inUnitRange_eq_false {v : Word} (h : fle cZero v = false ∨ fle v cOne = false ∨ isNan v = true) :
    inUnitRange v = false := by
  rw [inUnitRange, Bool.and_eq_false_iff]
  rcases h with h | h | nan
  · exact .inl h
  · exact .inr h
  · exact .inr (Bool.eq_false_iff.2 fun le => by rw [((fle_iff _ _).1 le).1] at nan; cases nan)

theorem isPositiveFinite_eq_true {v : Word} (hfin : isFinite v = true) (hpos : flt cZero v = true) :
    isPositiveFinite v = true := by
  rw [isPositiveFinite, hfin, hpos]; rfl

theorem isPositiveFinite_eq_false {v : Word} (h : isFinite v = false ∨ flt cZero v = false) : isPositiveFinite v = false :=
  Bool.and_eq_false_iff.2 h

/-! ### The queries (41 R145) -/

/-- In UNCONF the latency is 0 (10 R55). -/
theorem lat_of_unconf {c : Core} (hinv : c.Inv) (h : c.life = .unconf) : c.lat = 0 := by
  obtain ⟨-, -, registers⟩ := (invFor_iff _ _).1 hinv
  exact (registers.bare h).1

theorem lastResponse_respond (s : State) (code : RespCode) (results : List Word) :
    (s.respond code results).lastResponse = some ⟨code, results⟩ :=
  List.getLast?_concat

end Sys2Proof.Machine

namespace Sys2Proof.Proofs

open Sys2Proof Sys2Proof.Machine

/-- Settles O42: a setter is a checked write of its register, and the check does not read the state. -/
theorem lastEventWins : Obligations.LastEventWins := by
  refine ⟨fun i s hi => ?frame, fun i j s t u u' hi hop hit hju hju' hok => ?last⟩
  case frame =>
    obtain ⟨t, ht⟩ := exec_next i s
    have written := ht
    rw [exec_of_isSet hi] at written
    have core := core_of_setRanged written
    have ok := setRanged_lastCode_eq_ok_iff written
    refine ⟨t, ht, ?_, fun refused => by rw [core, if_neg (mt ok.2 refused)]⟩
    rw [core]
    split
    · exact writeRegister_frame i s.core
    · rfl
  case last =>
    have hj := isSet_of_op_eq hop hi
    rw [exec_of_isSet hi] at hit
    rw [exec_of_isSet hj] at hju hju'
    have legal := (setRanged_lastCode_eq_ok_iff hju').1 hok
    have core := core_of_setRanged hit
    calc u.core = writeRegister j t.core := by rw [core_of_setRanged hju, if_pos legal]
      _ = writeRegister j s.core := by
        rw [core]
        split
        · exact writeRegister_writeRegister hop s.core
        · rfl
      _ = u'.core := by rw [core_of_setRanged hju', if_pos legal]

/-- Settles O38: both gains are checked for a finite operand. -/
theorem setGains : Obligations.SetGains := by
  intro v s
  exact ⟨decode_eq_ok_iff.2 ⟨rfl, rfl, rfl, rfl⟩, decode_eq_ok_iff.2 ⟨rfl, rfl, rfl, rfl⟩,
    fun h => ⟨setRanged_of_legal h _ _, setRanged_of_legal h _ _⟩,
    fun h => ⟨setRanged_of_illegal h _ _, setRanged_of_illegal h _ _⟩⟩

/-- Settles O39: both controls are checked for the unit range, which no NaN meets. -/
theorem setMixAndCurve : Obligations.SetMixAndCurve := by
  refine ⟨fun v s => ⟨decode_eq_ok_iff.2 ⟨rfl, rfl, rfl, rfl⟩, decode_eq_ok_iff.2 ⟨rfl, rfl, rfl, rfl⟩,
    fun hlo hhi => ?legal, fun h => ?illegal⟩, by decide, by decide⟩
  case legal =>
    have legal := inUnitRange_eq_true hlo hhi
    exact ⟨setRanged_of_legal legal _ _, setRanged_of_legal legal _ _⟩
  case illegal =>
    have illegal := inUnitRange_eq_false h
    exact ⟨setRanged_of_illegal illegal _ _, setRanged_of_illegal illegal _ _⟩

/-- Settles O40: the five setters without an operand range accept every code. -/
theorem setModes : Obligations.SetModes := by
  intro b code p m s with_
  have clip : encode (.setclip b) = (0x14000000 ||| (BitVec.ofBool b).setWidth 32, []) := by cases b <;> rfl
  have split : encode (.setsplit b) = (0x15000000 ||| (BitVec.ofBool b).setWidth 32, []) := by cases b <;> rfl
  exact ⟨decode_of_encode_eq rfl clip, exec_of_isSet (i := .setclip b) rfl s,
    decode_of_encode_eq rfl split, exec_of_isSet (i := .setsplit b) rfl s,
    exec_of_isSet (i := .setos code) rfl s, exec_of_isSet (i := .setphase p) rfl s, exec_of_isSet (i := .setenvm m) rfl s⟩

/-- Settles O41: the corners and the decay time are checked for a finite operand above 0.0. -/
theorem setCornersAndDecay : Obligations.SetCornersAndDecay := by
  intro v s answered
  refine ⟨decode_eq_ok_iff.2 ⟨rfl, rfl, rfl, rfl⟩, decode_eq_ok_iff.2 ⟨rfl, rfl, rfl, rfl⟩,
    decode_eq_ok_iff.2 ⟨rfl, rfl, rfl, rfl⟩, fun hfin hpos => ?legal, fun h => ?illegal⟩
  case legal =>
    have legal := isPositiveFinite_eq_true hfin hpos
    exact ⟨setRanged_of_legal legal _ _, setRanged_of_legal legal _ _, setRanged_of_legal legal _ _⟩
  case illegal =>
    have illegal := isPositiveFinite_eq_false h
    exact ⟨setRanged_of_illegal illegal _ _, setRanged_of_illegal illegal _ _, setRanged_of_illegal illegal _ _⟩

/-- Settles O43: each query is its response alone, and in UNCONF the invariant holds `LAT` at 0. -/
theorem queries : Obligations.Queries := by
  refine ⟨fun s => ⟨rfl, rfl, rfl⟩, fun s t hinv hl h => ?_⟩
  have answer : exec .getlat s = .next (s.respond .ok [BitVec.ofNat 64 s.core.lat]) := rfl
  rw [answer, lat_of_unconf hinv hl] at h
  cases h
  exact lastResponse_respond s .ok [0]

end Sys2Proof.Proofs

/-! ## Proofs about the half-band stage: one step of it (43_halfband_stage.md R182 to R187) -/
namespace Sys2Proof.Proofs
open Sys2Proof.Machine

/-- The one output of a down step: the accumulator, the centre product added last (43 R186). -/
theorem hbDn_out (d : Desc) (h hist : List Word) (a b : Word) :
    (hbDn d h hist a b).out = [dnOutput d h hist a b] := by
  simp only [hbDn, dnWindow, dnOutput, accumulate_dnPairs]

/-- 43 R183: the new input enters the history at element 0, and what it keeps moves one place up. -/
theorem getElem?_hbUp_hist (d : Desc) (table hist : List Word) (x : Word) {j : Nat} (hj : j < d.c) :
    (hbUp d table hist x).hist[j]? = if j = 0 then some x else hist[j - 1]? := by
  have kept : (hbUp d table hist x).hist = (x :: hist).take d.c := rfl
  rw [kept, List.getElem?_take_of_lt hj, List.getElem?_cons]

/-- 43 R187: the later sample enters the history at element 0, the earlier one at element 1, and what it keeps moves two places up. -/
theorem getElem?_hbDn_hist (d : Desc) (table hist : List Word) (a b : Word) {j : Nat} (hj : j < d.n - 2) :
    (hbDn d table hist a b).hist[j]? = if j = 0 then some b else if j = 1 then some a else hist[j - 2]? := by
  have kept : (hbDn d table hist a b).hist = (b :: a :: hist).take (d.n - 2) := rfl
  rw [kept, List.getElem?_take_of_lt hj]
  match j with
  | 0 | 1 | _ + 2 => rfl

/-- Settles O48: the rules' accumulator is the model's fold over the taps, and the kept history is the front of the window. -/
theorem historyShift : Obligations.HistoryShift :=
  ⟨fun d table hist x => ⟨hbUp_out d table hist x, fun fits =>
      ⟨length_hbUp_hist d table hist x fits, fun _ hj => getElem?_hbUp_hist d table hist x hj⟩⟩,
    fun d table hist a b => ⟨hbDn_out d table hist a b, fun fits =>
      ⟨length_hbDn_hist d table hist a b fits, fun _ hj => getElem?_hbDn_hist d table hist a b hj⟩⟩⟩

end Sys2Proof.Proofs

/-! ## Proofs about the oversampling network: the Resampler calls, the cascades, their latency (44_oversampling_network.md) -/

namespace Sys2Proof.Machine

open Sys2Proof.Config (Cfg Stage RsState)

/-! ### One call of the Resampler (44 R211) -/

/-- A call with the right count gives the answer, with a wrong one free values and the fault (log 13). -/
theorem resample_of_rsProcess {cfg : Cfg} {st st' : RsState} {input out : List Word} (h : cfg.rsProcess st input = (st', out))
    (n want : Nat) :
    resample cfg n (some st) input want
      = if out.length = want then ⟨out, some st', false, input ++ out, 0⟩
        else ⟨freshWords cfg.freeWord n want, some st', true, input ++ out ++ freshWords cfg.freeWord n want, want⟩ := by
  simp only [resample, h]

/-- The protocol of 44 R211 for one call. -/
theorem resample_protocol {cfg : Cfg} {st st' : RsState} {input out : List Word} (h : cfg.rsProcess st input = (st', out))
    (n want : Nat) :
    let r := resample cfg n (some st) input want
    r.inst = some st' ∧ r.out.length = want ∧ (out.length = want → r.out = out ∧ r.fault = false)
      ∧ (out.length ≠ want → r.fault = true) := by
  intro r
  have call : r = _ := resample_of_rsProcess h n want
  by_cases count : out.length = want
  · rw [call, if_pos count]
    exact ⟨rfl, count, fun _ => ⟨rfl, rfl⟩, fun wrong => absurd count wrong⟩
  · rw [call, if_neg count]
    exact ⟨rfl, length_freshWords .., fun right => absurd right count, fun _ => rfl⟩

/-- `Up` in LIN mode with f > 1 is one call of the Resampler, for f samples (40 R113). -/
theorem convertUp_lin {c : Core} (hp : c.active.phase = .lin) (h0 : c.active.os ≠ 0) (cfg : Cfg) (n : Nat) (ch : Channel)
    (d : Word) :
    convertUp cfg c n ch d =
      let r := resample cfg n ch.rsUp [d] (2 ^ c.active.os.toNat)
      ⟨r.out, { ch with rsUp := r.inst }, r.fault, r.seen, r.used⟩ := by
  simp only [convertUp, if_neg h0, hp, factor]

/-- `Down` in LIN mode with f > 1 is one call of the Resampler, for one sample (40 R115). -/
theorem convertDown_lin {c : Core} (hp : c.active.phase = .lin) (h0 : c.active.os ≠ 0) (cfg : Cfg) (n : Nat) (ch : Channel)
    (p : List Word) :
    convertDown cfg c n ch p =
      let r := resample cfg n ch.rsDn p 1
      ⟨r.out, { ch with rsDn := r.inst }, r.fault, r.seen, r.used⟩ := by
  simp only [convertDown, if_neg h0, hp]

/-! ### How many samples a cascade gives (44 R202, R203) -/

/-- The stages in use are as many as the oversampling code says (44 R200). -/
theorem length_stagesOf (os : BitVec 2) : (stagesOf os).length = os.toNat := by
  have inUse : os.toNat ≤ 3 := Nat.le_of_lt_succ os.isLt
  rw [stagesOf, List.length_take]
  exact Nat.min_eq_left inUse

/-- An up stage gives two samples for each of its inputs (43 R182). -/
theorem length_upStage_out (d : Desc) (table inputs : List Word) :
    ∀ hist, (upStage d table hist inputs).out.length = 2 * inputs.length := by
  induction inputs with
  | nil => exact fun _ => rfl
  | cons x xs ih =>
    intro hist
    have both : (hbUp d table hist x).out.length = 2 := by rw [hbUp_out]; rfl
    rw [upStage, List.length_append, both, ih, List.length_cons, Nat.mul_succ, Nat.add_comm]

/-- A down stage gives one sample for each pair of its inputs (43 R186). -/
theorem length_dnStage_out (d : Desc) (table : List Word) :
    ∀ inputs hist : List Word, (dnStage d table hist inputs).out.length = inputs.length / 2
  | [], _ | [_], _ => by simp [dnStage]
  | a :: b :: xs, hist => by
    have pairs : (a :: b :: xs).length / 2 = 1 + xs.length / 2 := by simp only [List.length_cons]; omega
    rw [dnStage, List.length_append, length_dnStage_out d table xs, pairs]
    rfl

/-- If each stage turns n samples into `count n`, a cascade does so once for each of its stages. -/
theorem length_cascade_out {stage : Desc → List Word → List Word → List Word → StageStep} {count : Nat → Nat}
    (step : ∀ d table inputs hist, (stage d table hist inputs).out.length = count inputs.length)
    (descs : PerStage Desc) (tables : PerStage (List Word)) (ks : List Stage) :
    ∀ hist cur, (cascade stage descs tables ks hist cur).out.length = count^[ks.length] cur.length := by
  induction ks with
  | nil => exact fun _ _ => rfl
  | cons k ks ih =>
    intro hist cur
    rw [cascade, ih, step]
    rfl

theorem iterate_double_one (k : Nat) : (2 * ·)^[k] 1 = 2 ^ k :=
  (congrFun (mul_left_iterate 2 k) 1).trans (Nat.mul_one _)

/-- Halving undoes doubling, also k times over. -/
theorem iterate_half_two_pow (k : Nat) : (· / 2)^[k] (2 ^ k) = 1 := by
  have undo : Function.LeftInverse (· / 2) (2 * · : Nat → Nat) := fun n => Nat.mul_div_cancel_left n Nat.two_pos
  rw [← iterate_double_one]
  exact undo.iterate k 1

/-! ### The loop of `CascadeLatency` (44 R206) -/

theorem oversampling_cases (os : BitVec 2) : os = 0 ∨ os = 1 ∨ os = 2 ∨ os = 3 := by
  revert os
  decide

/-- Doubling once for each stage before it, over the stages K, .., 1, multiplies a delay by f / 2^k (44 R206). -/
theorem foldr_delays_stagesOf (delay : Stage → Nat) (os : BitVec 2) :
    (stagesOf os).reverse.foldr (fun k sum => delay k + 2 * sum) 0
      = ((stagesOf os).map fun k => delay k * 2 ^ (os.toNat - k.toNat)).sum := by
  rcases oversampling_cases os with rfl | rfl | rfl | rfl <;> simp [stagesOf, Stage.toNat] <;> omega

section
variable (descUp descDn : PerStage Desc)

/-- The delay that a stage adds, in samples of its own working rate (44 R206). -/
def stageDelay (k : Stage) : Nat := (descUp.get k).c + (descDn.get k).c

theorem latencyFrom_cons (k : Stage) (ks : List Stage) (acc : Nat) :
    latencyFrom descUp descDn (k :: ks) acc
      = if (stageDelay descUp descDn k + acc) % 2 = 1 then none
        else latencyFrom descUp descDn ks ((stageDelay descUp descDn k + acc) / 2) := rfl

/-- Each pass halves an even sum, so the result, counted at the rate of the first stage of the list, is the sum of the delays, each
doubled as often as there are stages before it. -/
theorem latencyFrom_mul_two_pow {latency : Nat} : ∀ (ks : List Stage) (acc : Nat),
    latencyFrom descUp descDn ks acc = some latency →
      latency * 2 ^ ks.length = acc + ks.foldr (fun k sum => stageDelay descUp descDn k + 2 * sum) 0
  | [], acc, h => by
    cases h
    exact Nat.mul_one _
  | k :: ks, acc, h => by
    rw [latencyFrom_cons] at h
    split at h
    next => cases h
    next even =>
      have rest := latencyFrom_mul_two_pow ks _ h
      rw [List.length_cons, Nat.pow_succ, ← Nat.mul_assoc, rest, List.foldr_cons]
      omega

/-- The loop stops at an odd partial sum of a stage in use, from stage K down; else it ends with half that of stage 1. -/
theorem cascadeLatency_eq_ite (os : BitVec 2) :
    cascadeLatency descUp descDn os
      = if ∃ k ∈ (stagesOf os).reverse, delaySum descUp descDn os k % 2 = 1 then none
        else some (if os = 0 then 0 else delaySum descUp descDn os .k1 / 2) := by
  rcases oversampling_cases os with rfl | rfl | rfl | rfl <;>
    simp [cascadeLatency, stagesOf, latencyFrom, delaySum, PerStage.get, ite_or]

end

end Sys2Proof.Machine

namespace Sys2Proof.Proofs

open Sys2Proof Sys2Proof.Machine

/-- Settles O49: every stage in use doubles the samples on the way up and halves them on the way down. -/
theorem cascadeCounts : Obligations.CascadeCounts := by
  intro c hup hdn d p up dn
  have upRun : (cascadeUp c hup d).path = up := cascade_path upStage_path ..
  have dnRun : (cascadeDown c hdn p).path = dn := cascade_path dnStage_path ..
  refine ⟨congrArg NetworkPath.out upRun, congrArg NetworkPath.hist upRun, congrArg NetworkPath.out dnRun,
    congrArg NetworkPath.hist dnRun, ?up, fun full => ?down⟩
  case up =>
    rw [cascadeUp, length_cascade_out (count := (2 * ·)) length_upStage_out, length_stagesOf]
    exact iterate_double_one _
  case down =>
    rw [cascadeDown, length_cascade_out (count := (· / 2)) length_dnStage_out, List.length_reverse, length_stagesOf, full]
    exact iterate_half_two_pow _

/-- Settles O50: the loop of R206 meets the partial sums from stage K down and halves each. -/
theorem cascadeLatencySum : Obligations.CascadeLatencySum := by
  intro descUp descDn os
  have loop := cascadeLatency_eq_ite descUp descDn os
  simp only [List.mem_reverse] at loop
  refine ⟨by simp [loop], fun latency defined => ⟨?half, ?sum⟩⟩
  case half =>
    rw [loop] at defined
    split at defined
    next => cases defined
    next => exact (Option.some.inj defined).symm
  case sum =>
    have scaled := latencyFrom_mul_two_pow descUp descDn _ 0 defined
    rw [List.length_reverse, length_stagesOf, foldr_delays_stagesOf, Nat.zero_add] at scaled
    exact scaled

/-- Settles O37: in LIN mode with f > 1 each conversion is one call, which writes the state it called and nothing else. -/
theorem resamplerCalls : Obligations.ResamplerCalls := by
  intro cfg c n ch st st' out hp h0
  refine ⟨fun d present answer => ?up, fun p present answer => ?down⟩
  case up =>
    obtain ⟨inst, result⟩ := resample_protocol answer n (2 ^ c.active.os.toNat)
    rw [convertUp_lin hp h0, present]
    exact ⟨congrArg (fun i => { ch with rsUp := i }) inst, result⟩
  case down =>
    obtain ⟨inst, result⟩ := resample_protocol answer n 1
    rw [convertDown_lin hp h0, present]
    exact ⟨congrArg (fun i => { ch with rsDn := i }) inst, result⟩

end Sys2Proof.Proofs

/-! ## Proofs about the band splitter: one sub-sample, a frame of them, the coefficient (45_band_splitter.md R220 to R226, 40 R114) -/

namespace Sys2Proof.Machine

section
variable (c : Core) (ch : Channel) (v : Word) (vs : List Word)

/-! ### One sub-sample (40 R114) -/

theorem nonLin_of_split {c : Core} (on : c.active.split = true) : nonLin c ch v = splitShape c ch v := if_pos on

theorem nonLin_of_not_split {c : Core} (off : c.active.split = false) :
    nonLin c ch v = ⟨[shape c.curve v], ch, [shape c.curve v]⟩ := by
  simp only [nonLin, off, Bool.false_eq_true, if_false]

/-- Each sub-sample has one result, with the split on or off (40 R114). -/
theorem length_nonLin_out : (nonLin c ch v).out.length = 1 := by
  cases split : c.active.split with
  | false => rw [nonLin_of_not_split ch v split]; rfl
  | true => rw [nonLin_of_split ch v split]; rfl

/-! ### The sub-samples of a frame, in order (40 R110) -/

theorem nonLinAll_cons_out :
    (nonLinAll c ch (v :: vs)).out = (nonLin c ch v).out ++ (nonLinAll c (nonLin c ch v).chan vs).out := rfl

theorem nonLinAll_cons_chan :
    (nonLinAll c ch (v :: vs)).chan = (nonLinAll c (nonLin c ch v).chan vs).chan := rfl

theorem length_nonLinAll_out : (nonLinAll c ch vs).out.length = vs.length := by
  induction vs generalizing ch with
  | nil => rfl
  | cons v vs ih => rw [nonLinAll_cons_out, List.length_append, length_nonLin_out, ih, List.length_cons, Nat.add_comm]

/-- With the split off no sub-sample writes a running value, so each meets the channel as the frame found it (70 R336). -/
theorem nonLinAll_chan_of_not_split {c : Core} (off : c.active.split = false) : (nonLinAll c ch vs).chan = ch := by
  induction vs with
  | nil => rfl
  | cons v vs ih => rw [nonLinAll_cons_chan, nonLin_of_not_split ch v off, ih]

theorem nonLinAll_out_of_not_split {c : Core} (off : c.active.split = false) :
    (nonLinAll c ch vs).out = vs.map (shape c.curve) := by
  induction vs with
  | nil => rfl
  | cons v vs ih => rw [nonLinAll_cons_out, nonLin_of_not_split ch v off, ih, List.map_cons, List.singleton_append]

end

end Sys2Proof.Machine

namespace Sys2Proof.Proofs

open Sys2Proof Sys2Proof.Machine

/-- Settles O51: the split is R224's two sections and R226's corrected sum; a frame folds it over its sub-samples, and with the
split off the fold never leaves the channel it began with. -/
theorem splitOffKeepsSections : Obligations.SplitOffKeepsSections := by
  refine ⟨fun c ch v on => ?subSample, fun c ch vs => ⟨?count, ?results, ?files, fun v => ?inOrder, fun off => ?off⟩,
    fun cfg corner wrate => ?coefficient⟩
  case subSample =>
    rw [nonLin_of_split ch v on]
    exact ⟨congrArg ShapePath.out (splitShape_path c ch v), congrArg ShapePath.chan (splitShape_path c ch v)⟩
  case count => exact length_nonLinAll_out c ch vs
  case results => exact congrArg ShapePath.out (nonLinAll_path c vs ch)
  case files => exact congrArg ShapePath.chan (nonLinAll_path c vs ch)
  case inOrder => exact ⟨nonLinAll_cons_out c ch v vs, nonLinAll_cons_chan c ch v vs⟩
  case off => exact ⟨nonLinAll_chan_of_not_split ch vs off, nonLinAll_out_of_not_split ch vs off⟩
  case coefficient => rw [splitCoef]

end Sys2Proof.Proofs

/-! ## Proofs about the waveshaper (46_waveshaper.md R240 to R244) -/

namespace Sys2Proof.Machine

/-! ### The order of values (49 R285) -/

@[simp] theorem isNan_fabs (w : Word) : isNan (fabs w) = isNan w := by
  rw [Bool.eq_iff_iff, isNan_iff, isNan_iff, fabs_setWidth]

theorem orderKey_fabs (w : Word) : orderKey (fabs w) = if w.msb then -orderKey w else orderKey w := by
  rw [orderKey_eq, orderKey_eq, fabs_msb, fabs_setWidth]
  cases w.msb <;> simp

theorem fabs_of_msb {w : Word} (h : w.msb = false) : fabs w = w := by
  apply BitVec.eq_of_toNat_eq
  rw [fabs_toNat, toNat_split w, h]
  simp

/-- A word above the zeros has a clear sign bit. -/
theorem msb_of_pos {w : Word} (h : flt cZero w = true) : w.msb = false := by
  have above := ((flt_iff _ _).1 h).2.2
  rw [orderKey_eq w, show orderKey cZero = 0 by decide] at above
  cases hm : w.msb
  · rfl
  · rw [hm, if_pos rfl] at above; omega

theorem flt_trans {a b c : Word} (hab : flt a b = true) (hbc : flt b c = true) : flt a c = true := by
  obtain ⟨ha, -, ab⟩ := (flt_iff _ _).1 hab
  obtain ⟨-, hc, bc⟩ := (flt_iff _ _).1 hbc
  exact (flt_iff _ _).2 ⟨ha, hc, ab.trans bc⟩

theorem flt_of_fle_of_flt {a b c : Word} (hab : fle a b = true) (hbc : flt b c = true) : flt a c = true := by
  obtain ⟨ha, -, ab⟩ := (fle_iff _ _).1 hab
  obtain ⟨-, hc, bc⟩ := (flt_iff _ _).1 hbc
  exact (flt_iff _ _).2 ⟨ha, hc, ab.trans_lt bc⟩

theorem fle_of_flt {a b : Word} (h : flt a b = true) : fle a b = true := by
  obtain ⟨ha, hb, ab⟩ := (flt_iff _ _).1 h
  exact (fle_iff _ _).2 ⟨ha, hb, ab.le⟩

/-- The value of the finite words at a place in the order of values. -/
noncomputable def placeVal (place : Int) : ℝ := place.sign * magVal binary64 place.natAbs

theorem placeVal_neg (place : Int) : placeVal (-place) = -placeVal place := by simp [placeVal]

theorem placeVal_natCast (n : Nat) : placeVal n = magVal binary64 n := by
  obtain rfl | pos := Nat.eq_zero_or_pos n
  · simp [placeVal]
  · rw [placeVal, Int.sign_natCast_of_ne_zero pos.ne', Int.cast_one, one_mul, Int.natAbs_natCast]

theorem placeVal_strictMono : StrictMono placeVal := by
  refine strictMono_of_odd_strictMonoOn_nonneg placeVal_neg fun a ha b hb hab => ?_
  lift a to Nat using ha
  lift b to Nat using hb
  rw [placeVal_natCast, placeVal_natCast]
  exact magVal_strictMono binary64 (Int.ofNat_lt.1 hab)

theorem wordVal_eq_placeVal {w : Word} (h : isFinite w = true) : (wordVal w : ℝ) = placeVal (orderKey w) := by
  rw [wordVal_mag h, orderKey_eq, ← mag]
  cases w.msb
  · simp [sgn, placeVal_natCast]
  · simp [sgn, placeVal_neg, placeVal_natCast]

/-- The comparison of finite words is that of their values. -/
theorem fle_iff_wordVal_le {a b : Word} (ha : isFinite a = true) (hb : isFinite b = true) :
    fle a b = true ↔ (wordVal a : ℝ) ≤ wordVal b := by
  rw [fle_iff, wordVal_eq_placeVal ha, wordVal_eq_placeVal hb, placeVal_strictMono.le_iff_le]
  exact ⟨fun ⟨_, _, h⟩ => h, fun h => ⟨isNan_of_finite ha, isNan_of_finite hb, h⟩⟩

theorem wordVal_cZero : (wordVal cZero : ℝ) = 0 := by
  rw [wordVal_unpack (show unpack cZero = _ from unpack_zeroWord false)]
  simp

theorem wordVal_cOne : (wordVal cOne : ℝ) = 1 := by
  rw [wordVal_unpack (show unpack cOne = .fin false (2 ^ 52) (-52) by decide +kernel)]
  norm_num [sgn]

theorem wordVal_cTwo : (wordVal cTwo : ℝ) = 2 := by
  rw [wordVal_unpack (show unpack cTwo = .fin false (2 ^ 52) (-51) by decide +kernel)]
  norm_num [sgn]

/-! ### Rounding once -/

/-- Every finite word lies below the place where rounding overflows. -/
theorem abs_wordVal_lt {w : Word} (h : isFinite w = true) : |(wordVal w : ℝ)| < 2 ^ 1024 - 2 ^ 970 := by
  obtain ⟨s, m, e, read⟩ := unpack_of_finite h
  have self := roundsTo_round64 (wordVal_unpack read)
  rw [round64_unpack read] at self
  obtain ⟨-, bound, -⟩ | ⟨inf, -⟩ := self
  · exact bound
  · rw [inf, isFinite_infWord] at h
    cases h

/-- Between the values of two finite words rounding leads to none beyond them. -/
theorem RoundsTo.between {x : ℝ} {r a b : Word} (h : RoundsTo x r) (ha : isFinite a = true) (hb : isFinite b = true)
    (hax : (wordVal a : ℝ) ≤ x) (hxb : x ≤ wordVal b) :
    isFinite r = true ∧ (wordVal a : ℝ) ≤ wordVal r ∧ (wordVal r : ℝ) ≤ wordVal b := by
  obtain ⟨hr, -, near⟩ | ⟨-, far⟩ := h
  · refine ⟨hr, ?_, ?_⟩
    · have := (near a ha).1
      rw [abs_of_nonpos (sub_nonpos.2 hax)] at this
      linarith [neg_abs_le ((wordVal r : ℝ) - x)]
    · have := (near b hb).1
      rw [abs_of_nonneg (sub_nonneg.2 hxb)] at this
      linarith [le_abs_self ((wordVal r : ℝ) - x)]
  · have la := (abs_lt.1 (abs_wordVal_lt ha)).1
    have lb := (abs_lt.1 (abs_wordVal_lt hb)).2
    exact absurd far (not_le.2 (abs_lt.2 ⟨la.trans_le hax, hxb.trans_lt lb⟩))

/-- A number that a finite word has as its value is not rounded. -/
theorem RoundsTo.exact {x : ℝ} {r w : Word} (h : RoundsTo x r) (hw : isFinite w = true) (hx : (wordVal w : ℝ) = x) :
    isFinite r = true ∧ (wordVal r : ℝ) = x := by
  obtain ⟨hr, lo, hi⟩ := h.between hw hw hx.le hx.ge
  exact ⟨hr, by linarith⟩

theorem roundsTo_fmul {a b : Word} (ha : isFinite a = true) (hb : isFinite b = true) :
    RoundsTo (wordVal a * wordVal b) (fmul a b) := by
  obtain ⟨s, m, d, hua⟩ := unpack_of_finite ha
  obtain ⟨t, n, e, hub⟩ := unpack_of_finite hb
  rw [fmul_finite hua hub, wordVal_unpack hua, wordVal_unpack hub]
  apply roundsTo_round64
  have sign : sgn (s ^^ t) = sgn s * sgn t := by cases s <;> cases t <;> simp [sgn]
  rw [sign, zpow_add₀ (by norm_num)]
  push_cast
  ring

theorem roundsTo_fadd {a b : Word} (ha : isFinite a = true) (hb : isFinite b = true) :
    RoundsTo (wordVal a + wordVal b) (fadd a b) := by
  obtain ⟨s, m, d, hua⟩ := unpack_of_finite ha
  obtain ⟨t, n, e, hub⟩ := unpack_of_finite hb
  have va := alignTo_val (min d e) s m d (min_le_left _ _)
  have vb := alignTo_val (min d e) t n e (min_le_right _ _)
  rw [fadd_finite hua hub, addFinite, wordVal_unpack hua, wordVal_unpack hub, ← va, ← vb, ← add_mul, ← Int.cast_add]
  generalize alignTo (min d e) s m d + alignTo (min d e) t n e = v
  by_cases hv : v = 0
  · rw [if_pos hv, ← round64_zero _ 0]
    exact roundsTo_round64 (by simp [hv])
  · rw [if_neg hv]
    refine roundsTo_round64 ?_
    have signed : (v : ℝ) = sgn (decide (v < 0)) * (v.natAbs : ℝ) := by
      rcases lt_or_gt_of_ne hv with neg | pos
      · rw [decide_eq_true neg, Nat.cast_natAbs, abs_of_neg neg]
        simp [sgn]
      · rw [decide_eq_false (not_lt_of_gt pos), Nat.cast_natAbs, abs_of_pos pos]
        simp [sgn]
    rw [signed, mul_assoc]

theorem roundsTo_fsub {a b : Word} (ha : isFinite a = true) (hb : isFinite b = true) :
    RoundsTo (wordVal a - wordVal b) (fsub a b) := by
  have h := roundsTo_fadd ha (b := fneg b) (by rw [isFinite_fneg, hb])
  rwa [wordVal_fneg b hb, ← sub_eq_add_neg] at h

/-- Every normal significand at an exponent of the format is the value of a word. -/
theorem exists_word_of_significand {m : Nat} {e : Int} (hm : 2 ^ 52 ≤ m) (hm' : m < 2 ^ 53) (he : -1074 ≤ e) (he' : e ≤ 971) :
    ∃ w, isFinite w = true ∧ (wordVal w : ℝ) = m * 2 ^ e := by
  obtain ⟨frac, rfl⟩ : ∃ frac, m = 2 ^ 52 + frac := ⟨m - 2 ^ 52, by omega⟩
  have bits : (BitVec.ofNat 64 ((e + 1075).toNat * 2 ^ 52 + frac)).toNat = (e + 1075).toNat * 2 ^ 52 + frac := by
    rw [BitVec.toNat_ofNat, Nat.mod_eq_of_lt (by omega)]
  have read := unpack_normal bits (by omega) (by omega) (by omega)
  rw [show -1074 + ((e + 1075).toNat : Int) - 1 = e by omega] at read
  exact ⟨_, isFinite_of_unpack read, by rw [wordVal_unpack read]; simp [sgn]⟩

/-! ### The taper between 1 and 2 (46 R242) -/

/-- A word between 1.0 and 2.0 is a normal significand of 53 bits in units of 2^−52. -/
theorem exists_significand_of_one_to_two {x : Word} (h1 : flt cOne x = true) (h2 : flt x cTwo = true) :
    isFinite x = true ∧ ∃ m : Nat, 2 ^ 52 ≤ m ∧ m < 2 ^ 53 ∧ (wordVal x : ℝ) = m * 2 ^ (-52 : ℤ) := by
  obtain ⟨-, -, hi⟩ := (flt_iff _ _).1 h2
  have pos := msb_of_ge_one (fle_of_flt h1)
  have whole := toNat_split x
  rw [orderKey_eq x, pos, show orderKey cTwo = 1024 * 2 ^ 52 by decide] at hi
  rw [pos] at whole
  simp only [Bool.false_eq_true, if_false] at hi whole
  have hx : isFinite x = true := by rw [isFinite_iff]; omega
  obtain ⟨ex, frac, bits, hfrac, hex, -⟩ := exists_normal hx (fle_of_flt h1)
  obtain rfl : ex = 1023 := by omega
  have read := unpack_normal bits hfrac (by norm_num) (by norm_num)
  exact ⟨hx, 2 ^ 52 + frac, by omega, by omega, by rw [wordVal_unpack read]; norm_num [sgn]⟩

/-- 2x is a word for a word x between 1.0 and 2.0, so it is not rounded. -/
theorem fmul_two_exact {x : Word} (h1 : flt cOne x = true) (h2 : flt x cTwo = true) :
    isFinite (fmul cTwo x) = true ∧ (wordVal (fmul cTwo x) : ℝ) = 2 * wordVal x := by
  obtain ⟨hx, m, lo, hi, value⟩ := exists_significand_of_one_to_two h1 h2
  obtain ⟨w, hw, double⟩ := exists_word_of_significand (e := -51) lo hi (by norm_num) (by norm_num)
  have product := roundsTo_fmul (show isFinite cTwo = true by decide) hx
  rw [wordVal_cTwo] at product
  exact product.exact hw (by rw [double, value]; norm_num; ring)

/-- 2x − 1 is a word for a word x between 1.0 and 2.0. -/
theorem exists_word_two_mul_sub_one {x : Word} (h1 : flt cOne x = true) (h2 : flt x cTwo = true) :
    ∃ w, isFinite w = true ∧ (wordVal w : ℝ) = 2 * wordVal x - 1 := by
  obtain ⟨-, m, lo, hi, value⟩ := exists_significand_of_one_to_two h1 h2
  rcases Nat.lt_or_ge (2 * m - 2 ^ 52) (2 ^ 53) with small | large
  · obtain ⟨w, hw, below⟩ := exists_word_of_significand (e := -52) (by omega) small (by norm_num) (by norm_num)
    refine ⟨w, hw, ?_⟩
    rw [below, value, Nat.cast_sub (by omega)]
    norm_num
    ring
  · obtain ⟨w, hw, below⟩ :=
      exists_word_of_significand (m := m - 2 ^ 51) (e := -51) (by omega) (by omega) (by norm_num) (by norm_num)
    refine ⟨w, hw, ?_⟩
    rw [below, value, Nat.cast_sub (by omega)]
    norm_num
    ring

/-- The taper lies between 0 and 1: x² lies between 2x − 1 and 2x, which are words, so its rounding lies there too. -/
theorem shapeTaper_bounds {x : Word} (h1 : flt cOne x = true) (h2 : flt x cTwo = true) :
    fle cZero (shapeTaper x) = true ∧ fle (shapeTaper x) cOne = true := by
  have finiteZero : isFinite cZero = true := by decide
  have finiteOne : isFinite cOne = true := by decide
  obtain ⟨hx, -⟩ := exists_significand_of_one_to_two h1 h2
  obtain ⟨hd, double⟩ := fmul_two_exact h1 h2
  obtain ⟨w, hw, below⟩ := exists_word_two_mul_sub_one h1 h2
  have lo := (fle_iff_wordVal_le finiteOne hx).1 (fle_of_flt h1)
  have hi := (fle_iff_wordVal_le hx (show isFinite cTwo = true by decide)).1 (fle_of_flt h2)
  rw [wordVal_cOne] at lo
  rw [wordVal_cTwo] at hi
  obtain ⟨hsq, sqLo, sqHi⟩ := (roundsTo_fmul hx hx).between hw hd (by rw [below]; nlinarith [sq_nonneg ((wordVal x : ℝ) - 1)])
    (by rw [double]; nlinarith)
  obtain ⟨hr, rLo, rHi⟩ := (roundsTo_fsub hd hsq).between finiteZero finiteOne (by rw [wordVal_cZero]; linarith)
    (by rw [wordVal_cOne]; linarith)
  exact ⟨(fle_iff_wordVal_le finiteZero hr).2 rLo, (fle_iff_wordVal_le hr finiteOne).2 rHi⟩

/-! ### `Shape` by the magnitude of its argument (46 R242) -/

theorem shape_far (k : Curve) {x : Word} (h : feq x cZero = true ∨ fle cTwo (fabs x) = true) : shape k x = cZero := by
  unfold shape
  split
  next => rfl
  next zero => exact if_pos (h.resolve_left zero)

/-- Between 0 and 2 in magnitude `Shape` is the shaped magnitude under the sign of the argument. -/
theorem shape_near (k : Curve) {x : Word} (h0 : flt cZero (fabs x) = true) (h2 : flt (fabs x) cTwo = true) :
    shape k x = if x.msb then fneg (shapeMag k (fabs x)) else shapeMag k (fabs x) := by
  obtain ⟨-, nan, above⟩ := (flt_iff _ _).1 h0
  rw [orderKey_fabs, show orderKey cZero = 0 by decide] at above
  rw [isNan_fabs] at nan
  have zero : ¬feq x cZero = true := fun h => by
    have place := ((feq_iff _ _).1 h).2.2
    rw [show orderKey cZero = 0 by decide] at place
    split at above <;> omega
  have far : ¬fle cTwo (fabs x) = true := fun h => not_flt_of_fle h h2
  have sign : flt x cZero = true ↔ x.msb = true := by
    rw [flt_iff, show orderKey cZero = 0 by decide]
    split at above
    next neg => exact iff_of_true ⟨nan, by decide, by omega⟩ neg
    next pos => exact iff_of_false (fun ⟨_, _, h⟩ => by omega) pos
  rw [shape, if_neg zero, if_neg far]
  simp only [sign]

theorem shape_of_pos (k : Curve) {x : Word} (h0 : flt cZero x = true) (h2 : flt x cTwo = true) : shape k x = shapeMag k x := by
  have pos := msb_of_pos h0
  have same := fabs_of_msb pos
  rw [shape_near k (by rwa [same]) (by rwa [same]), pos, same]
  rfl

theorem shape_polynomial (k : Curve) {x : Word} (h0 : flt cZero x = true) (h1 : fle x cOne = true) :
    shape k x = shapePoly k x := by
  rw [shape_of_pos k h0 (flt_of_fle_of_flt h1 (by decide)), shapeMag, if_neg (not_flt_of_fle h1)]

theorem shape_taper (k : Curve) {x : Word} (h1 : flt cOne x = true) (h2 : flt x cTwo = true) : shape k x = shapeTaper x := by
  rw [shape_of_pos k (flt_trans (by decide) h1) h2, shapeMag, if_pos h1]

theorem shape_fneg (k : Curve) {x : Word} (h0 : flt cZero (fabs x) = true) (h2 : flt (fabs x) cTwo = true) :
    shape k (fneg x) = fneg (shape k x) := by
  rw [shape_near k h0 h2, shape_near k (by rwa [fabs_fneg]) (by rwa [fabs_fneg]), fneg_msb, fabs_fneg]
  cases x.msb <;> simp

end Sys2Proof.Machine

namespace Sys2Proof.Proofs

open Sys2Proof Sys2Proof.Machine

/-- Settles O45: `Shape` gives the shaped magnitude the sign of its argument, which makes it odd; the taper stays in the unit
interval because 2x − 1 and 2x are words, and no rounding of x² leads past them. -/
theorem shapeOddAndBounded : Obligations.ShapeOddAndBounded := by
  refine ⟨fun _ => rfl, fun k x => ⟨shape_far k, fun h0 h1 => shape_polynomial k h0 h1, fun h1 h2 => ?taper, shape_fneg k⟩⟩
  case taper =>
    rw [shape_taper k h1 h2]
    exact ⟨rfl, shapeTaper_bounds h1 h2⟩

end Sys2Proof.Proofs

/-! ## Proofs about the latency aligner: the queue, the mix, the resize (47_latency_aligner.md R250 to R254) -/

namespace Sys2Proof.Machine

/-! ### The latency queue (47 R250) -/

/-- The sample popped and the queue left are the queue with the new sample pushed at its tail. -/
theorem align_cons (q : List Word) (d : Word) : (align q d).1 :: (align q d).2 = q ++ [d] := by
  cases q with
  | nil => rfl
  | cons oldest rest => rfl

theorem length_alignRun_out (q ds : List Word) : (alignRun q ds).1.length = ds.length := by
  induction ds generalizing q with
  | nil => rfl
  | cons d ds ih => simp only [alignRun, List.length_cons, ih]

/-- Over a run no sample is lost, duplicated or reordered. -/
theorem alignRun_append (q ds : List Word) : (alignRun q ds).1 ++ (alignRun q ds).2 = q ++ ds := by
  induction ds generalizing q with
  | nil => exact (List.append_nil q).symm
  | cons d ds ih =>
    calc (alignRun q (d :: ds)).1 ++ (alignRun q (d :: ds)).2
      _ = (align q d).1 :: ((alignRun (align q d).2 ds).1 ++ (alignRun (align q d).2 ds).2) := rfl
      _ = ((align q d).1 :: (align q d).2) ++ ds := by rw [ih, List.cons_append]
      _ = q ++ d :: ds := by rw [align_cons, List.append_assoc, List.singleton_append]

/-! ### The mix (47 R251) -/

theorem fadd_comm_of_finite {a b : Word} (ha : isFinite a = true) (hb : isFinite b = true) : fadd a b = fadd b a := by
  obtain ⟨s, m, d, hua⟩ := unpack_of_finite ha
  obtain ⟨t, n, e, hub⟩ := unpack_of_finite hb
  simp only [fadd_finite hua hub, fadd_finite hub hua, addFinite, min_comm d e, Bool.and_comm s t,
    Int.add_comm (alignTo _ s m d)]

/-- At `A_MIX` = 1.0 the dry share is a zero, of the dry sample's sign. -/
theorem mixWetDry_one {w dd : Word} (hw : isFinite w = true) (hdd : isFinite dd = true) :
    mixWetDry cOne w dd = fadd w (zeroWord dd.msb) := by
  rw [mixWetDry, one_fmul hw, show fsub cOne cOne = cZero by decide +kernel, zero_fmul hdd]

/-- At `A_MIX` = 0.0 the wet share is a zero, of the wet sample's sign. -/
theorem mixWetDry_zero {w dd : Word} (hw : isFinite w = true) (hdd : isFinite dd = true) :
    mixWetDry cZero w dd = fadd (zeroWord w.msb) dd := by
  rw [mixWetDry, zero_fmul hw, show fsub cOne cZero = cOne by decide +kernel, one_fmul hdd]

/-! ### The resize (47 R253) -/

theorem resize_of_le {q : List Word} {len : Nat} (h : q.length ≤ len) : resize q len = q ++ zeros (len - q.length) := by
  obtain grows | same := h.lt_or_eq
  · exact if_pos grows
  · simp [resize, zeros, same]

theorem resize_of_ge {q : List Word} {len : Nat} (h : len ≤ q.length) : resize q len = q.drop (q.length - len) :=
  if_neg (Nat.not_lt.2 h)

end Sys2Proof.Machine

namespace Sys2Proof.Proofs

open Sys2Proof Sys2Proof.Machine

/-- Settles O52: what a run gives, followed by the queue it leaves, is the queue followed by the dry samples, and it
gives one sample per dry one. -/
theorem alignDelays : Obligations.AlignDelays := by
  intro q ds
  have given := length_alignRun_out q ds
  have whole := alignRun_append q ds
  have left : (alignRun q ds).2 = (q ++ ds).drop ds.length := by rw [← whole, List.drop_left' given]
  refine ⟨by rw [← whole, List.take_left' given], left, ?_⟩
  rw [left, List.length_drop, List.length_append, Nat.add_sub_cancel]

/-- Settles O53: at either end of `A_MIX` one factor is 1.0 and the other 0.0, so that a zero is added to the sample. -/
theorem mixEnds : Obligations.MixEnds := by
  intro w dd hw hdd
  rw [mixWetDry_one hw hdd, mixWetDry_zero hw hdd, fadd_comm_of_finite (isFinite_zeroWord _) hdd]
  exact ⟨feq_fadd_zero hw dd.msb, feq_fadd_zero hdd w.msb⟩

/-- Settles O54: what a shrink drops is the front of the queue, as long as the difference. -/
theorem resizeKeepsSamples : Obligations.ResizeKeepsSamples := by
  refine fun q len => ⟨length_resize q len, fun grows => resize_of_le grows, fun shrinks =>
    ⟨q.take (q.length - len), ?whole, ?dropped⟩⟩
  case whole => rw [resize_of_ge shrinks, List.take_append_drop]
  case dropped => rw [List.length_take, Nat.min_eq_left (Nat.sub_le _ _)]

end Sys2Proof.Proofs

/-! ## Proofs about the envelope follower: coefficients, new dB value, level (48_envelope_follower.md R260 to R265) -/

namespace Sys2Proof.Machine

open Sys2Proof.Config (Cfg)

/-! ### Signs and places of results (49 R284, R285) -/

theorem orderKey_of_msb {w : Word} (h : w.msb = false) : orderKey w = (w.setWidth 63).toNat := by
  rw [orderKey_eq, h]; rfl

/-- A word that is no NaN and has a clear sign bit is not below zero. -/
theorem zero_fle_of_msb {w : Word} (hn : isNan w = false) (hs : w.msb = false) : fle cZero w = true := by
  refine (fle_iff _ _).2 ⟨by decide, hn, ?_⟩
  rw [orderKey_of_msb hs, show orderKey cZero = 0 by decide]
  exact Int.natCast_nonneg _

/-- A word that is no NaN and has a set sign bit is not above zero. -/
theorem fle_zero_of_msb {w : Word} (hn : isNan w = false) (hs : w.msb = true) : fle w cZero = true := by
  refine (fle_iff _ _).2 ⟨hn, by decide, ?_⟩
  rw [orderKey_eq, hs, if_pos rfl, show orderKey cZero = 0 by decide]
  omega

/-- Among the words not below zero only −0.0 has a set sign bit. -/
theorem orderKey_eq_zero_of_zero_fle {w : Word} (h : fle cZero w = true) (hs : w.msb = true) : orderKey w = 0 := by
  obtain ⟨-, hn, lo⟩ := (fle_iff _ _).1 h
  have hi := ((fle_iff _ _).1 (fle_zero_of_msb hn hs)).2.2
  rw [show orderKey cZero = 0 by decide] at lo hi
  omega

theorem eq_zeroWord_of_feq {w : Word} (h : feq w cZero = true) : w = zeroWord w.msb := by
  have place := ((feq_iff _ _).1 h).2.2
  rw [orderKey_eq, show orderKey cZero = 0 by decide] at place
  have magnitude : (w.setWidth 63).toNat = 0 := by split at place <;> omega
  apply BitVec.eq_of_toNat_eq
  rw [toNat_split w, magnitude]
  cases w.msb <;> decide

/-- The parts of `isPositiveFinite` that the arithmetic of signs needs. -/
theorem parts_of_isPositiveFinite {w : Word} (h : isPositiveFinite w = true) :
    isFinite w = true ∧ w.msb = false ∧ orderKey w ≠ 0 := by
  obtain ⟨hf, pos⟩ := Bool.and_eq_true_iff.1 h
  have above := ((flt_iff _ _).1 pos).2.2
  rw [show orderKey cZero = 0 by decide] at above
  exact ⟨hf, msb_of_pos pos, above.ne'⟩

/-- A finite factor that is no zero makes a NaN of no operand that is none: 0 × ∞ does not occur. -/
theorem isNan_fmul_eq_false {a b : Word} (ha : isFinite a = true) (h0 : orderKey a ≠ 0) (hb : isNan b = false) :
    isNan (fmul a b) = false := by
  obtain ⟨s, m, d, hua⟩ := unpack_of_finite ha
  cases hub : unpack b with
  | nan => rw [isNan_of_unpack hub] at hb; cases hb
  | inf t =>
    rw [fmul_fin_inf hua hub, if_neg (mt (mant_eq_zero_iff hua).1 h0)]
    exact isNan_infWord _
  | fin t n e =>
    rw [fmul_finite hua hub]
    exact isNan_round64 _ _ _

/-- A finite dividend that is no zero makes a NaN of no divisor that is none: 0 / 0 does not occur. -/
theorem isNan_fdiv_eq_false {a b : Word} (ha : isFinite a = true) (h0 : orderKey a ≠ 0) (hb : isNan b = false) :
    isNan (fdiv a b) = false := by
  obtain ⟨s, m, d, hua⟩ := unpack_of_finite ha
  cases hub : unpack b with
  | nan => rw [isNan_of_unpack hub] at hb; cases hb
  | inf t =>
    rw [fdiv_fin_inf hua hub]
    exact isNan_of_finite (isFinite_zeroWord _)
  | fin t n e =>
    rw [fdiv_fin_fin hua hub, if_neg (mt (mant_eq_zero_iff hua).1 h0)]
    split
    next => exact isNan_infWord _
    next => exact isNan_round64 _ _ _

/-- A positive finite factor keeps a clear sign bit, an underflow to +0.0 and an overflow to +∞ included. -/
theorem fmul_of_isPositiveFinite {a b : Word} (ha : isPositiveFinite a = true) (hb : isNan b = false) (hs : b.msb = false) :
    isNan (fmul a b) = false ∧ (fmul a b).msb = false := by
  obtain ⟨hf, sa, h0⟩ := parts_of_isPositiveFinite ha
  have hn := isNan_fmul_eq_false hf h0 hb
  have sign := (fmul_sign a b).resolve_left (by rw [hn]; decide)
  exact ⟨hn, by rw [sign, sa, hs]; rfl⟩

theorem fsqrt_fin {w : Word} {s : Bool} {m : Nat} {e : Int} (h : unpack w = .fin s m e) :
    fsqrt w = if m = 0 then zeroWord s else if s then nanWord .sqrt w w else sqrtFinite m e := by
  unfold fsqrt; rw [h]

/-- A square root of a word not below zero is not below zero; that of −0.0 is −0.0. -/
theorem zero_fle_fsqrt {w : Word} (h : fle cZero w = true) : fle cZero (fsqrt w) = true := by
  cases hu : unpack w with
  | nan => exact absurd (isNan_of_unpack hu) (by rw [((fle_iff _ _).1 h).2.1]; decide)
  | inf s =>
    rw [fsqrt_inf hu]
    obtain ⟨hs, magnitude⟩ := msb_of_unpack_inf hu
    cases s with
    | false => exact zero_fle_of_msb (isNan_infWord _) (msb_infWord _)
    | true =>
      have place := orderKey_eq_zero_of_zero_fle h hs.symm
      rw [orderKey_eq, magnitude, ← hs] at place
      cases place
  | fin s m e =>
    have hs := (unpack_fin hu).1
    rw [fsqrt_fin hu]
    split
    next => cases s <;> decide
    next nonzero =>
      cases s with
      | false => exact zero_fle_of_msb (isNan_round64 _ _ _) (round64_msb _ _ _)
      | true => exact absurd ((mant_eq_zero_iff hu).2 (orderKey_eq_zero_of_zero_fle h hs.symm)) nonzero

/-- The quotient that `divFinite` rounds, its last bit included, is no greater than an exact one by a smaller divisor. -/
theorem stickyQuotient_le {n m N b : Nat} (hn : n = N * b) (hb : b ≤ m) :
    2 * (n / m) + (if n % m = 0 then 0 else 1) ≤ 2 * N := by
  have le : n ≤ m * N := by rw [hn, Nat.mul_comm]; exact Nat.mul_le_mul_right N hb
  split
  next => exact Nat.mul_le_mul_left 2 (Nat.div_le_of_le_mul le)
  next inexact =>
    have lt : n < m * N := lt_of_le_of_ne le fun eq => inexact (by rw [eq, Nat.mul_mod_right])
    have := Nat.div_lt_of_lt_mul lt
    omega

/-- A division by a word from 1.0 on leads to no greater magnitude, so it does not overflow. -/
theorem isFinite_fdiv_of_ge_one {a b : Word} (ha : isFinite a = true) (hb : isFinite b = true) (h1 : fle cOne b = true) :
    isFinite (fdiv a b) = true := by
  obtain ⟨s, m, d, hua⟩ := unpack_of_finite ha
  obtain ⟨ex, frac, hw, hfrac, lo, hi⟩ := exists_normal hb h1
  have hub := unpack_normal hw hfrac (by omega) hi
  have widened : m * 2 ^ 110 = m * 2 ^ 58 * 2 ^ 52 := by rw [Nat.mul_assoc, ← Nat.pow_add]
  have quotient := stickyQuotient_le widened (Nat.le_add_right (2 ^ 52) frac)
  rw [fdiv_fin_fin hua hub, if_neg (by omega), divFinite, isFinite_round64]
  refine lt_of_le_of_lt (roundMag_mono binary64 (by decide) (n := m) (e := d) ?_) ?_
  · calc _ ≤ ((2 * (m * 2 ^ 58) : Nat) : ℝ) * 2 ^ (d - (-1074 + ex - 1) - 111) :=
          mul_le_mul_of_nonneg_right (Nat.cast_le.2 quotient) (by positivity)
      _ ≤ ((2 * (m * 2 ^ 58) : Nat) : ℝ) * 2 ^ (d - 59) :=
          mul_le_mul_of_nonneg_left (zpow_le_zpow_right₀ (by norm_num) (by omega)) (Nat.cast_nonneg _)
      _ = m * 2 ^ d := by
          rw [zpow_sub₀ (by norm_num)]
          push_cast
          field_simp
          ring
  · rw [(unpack_fin hua).2]
    exact mag_lt_infBits ha

/-! ### The coefficients (48 R260) and the level (48 R265) -/

/-- The argument of `f_exp` is not above zero: −∞ and −0.0 where `rate × time` underflows or overflows. -/
theorem envCoef_arg_fle_zero {p : Word} (hn : isNan p = false) (hs : p.msb = false) : fle (fdiv cMinusOne p) cZero = true := by
  have nan := isNan_fdiv_eq_false (show isFinite cMinusOne = true by decide) (by decide) hn
  have sign := (fdiv_sign cMinusOne p).resolve_left (by rw [nan]; decide)
  exact fle_zero_of_msb nan (by rw [sign, hs]; rfl)

theorem envCoef_unit {cfg : Cfg} (num : CfgNumerics cfg) {rate time : Word} (hr : isPositiveFinite rate = true)
    (hn : isNan time = false) (hs : time.msb = false) :
    fle cZero (envCoef cfg rate time) = true ∧ fle (envCoef cfg rate time) cOne = true := by
  obtain ⟨nan, sign⟩ := fmul_of_isPositiveFinite hr hn hs
  exact num.exp_range _ (envCoef_arg_fle_zero nan sign)

theorem zero_fle_level {cfg : Cfg} (num : CfgNumerics cfg) (mode : EnvMode) {e : Word} (he : isFinite e = true) :
    fle cZero (level cfg mode e) = true := by
  have lin := num.pow10_nonneg _ (isFinite_fdiv_of_ge_one he (b := cTwenty) (by decide) (by decide))
  cases mode with
  | peak => exact lin
  | rms => exact zero_fle_fsqrt lin

/-! ### The new dB value (48 R261) -/

/-- What `NewDb` takes the logarithm of: |x|, or x² in RMS mode. -/
def dbInput (mode : EnvMode) (x : Word) : Word := if mode = .peak then fabs x else fmul x x

theorem newDb_eq (cfg : Cfg) (mode : EnvMode) (x : Word) :
    newDb cfg mode x =
      if feq (dbInput mode x) cZero then cMinusHundred
      else if flt (fmul cTwenty (cfg.fLog10 (dbInput mode x))) cMinusHundred then cMinusHundred
      else fmul cTwenty (cfg.fLog10 (dbInput mode x)) := by
  cases mode <;> rfl

theorem dbInput_of_zero (mode : EnvMode) {x : Word} (h : feq x cZero = true) : dbInput mode x = cZero := by
  rw [eq_zeroWord_of_feq h]
  cases mode <;> cases x.msb <;> decide +kernel

theorem newDb_of_zero (cfg : Cfg) {mode : EnvMode} {x : Word} (h : feq (dbInput mode x) cZero = true) :
    newDb cfg mode x = cMinusHundred := by
  rw [newDb_eq, if_pos h]

theorem newDb_of_ne_zero (cfg : Cfg) {mode : EnvMode} {x : Word} (h : feq (dbInput mode x) cZero = false) :
    newDb cfg mode x =
      if flt (fmul cTwenty (cfg.fLog10 (dbInput mode x))) cMinusHundred then cMinusHundred
      else fmul cTwenty (cfg.fLog10 (dbInput mode x)) := by
  rw [newDb_eq, if_neg (by rw [h]; decide)]

/-- The floor holds: a new dB value is the floor, or a value that the comparison with the floor let pass, or a NaN. -/
theorem floor_fle_newDb {cfg : Cfg} {mode : EnvMode} {x : Word} (hn : isNan (newDb cfg mode x) = false) :
    fle cMinusHundred (newDb cfg mode x) = true := by
  cases zero : feq (dbInput mode x) cZero with
  | true => rw [newDb_of_zero cfg zero]; decide
  | false =>
    rw [newDb_of_ne_zero cfg zero] at hn ⊢
    by_cases below : flt (fmul cTwenty (cfg.fLog10 (dbInput mode x))) cMinusHundred = true
    · rw [if_pos below]; decide
    · rw [if_neg below] at hn ⊢
      exact fle_of_not_flt (by decide) hn below

end Sys2Proof.Machine

namespace Sys2Proof.Proofs

open Sys2Proof Sys2Proof.Machine

/-- Settles O55: `NewDb` by its branches, zero input first; the update's coefficient is chosen by the comparison of R262. -/
theorem envelopeFloor : Obligations.EnvelopeFloor := by
  refine fun cfg c mode e x => ⟨floor_fle_newDb, fun zero => ?zeroSample, newDb_of_zero cfg, newDb_of_ne_zero cfg,
    fun exceeds => ?attack, fun within => ?release⟩
  case zeroSample => exact newDb_of_zero cfg (by rw [dbInput_of_zero mode zero]; decide)
  case attack => rw [envUpdate, if_pos exceeds, envBlend]
  case release => rw [envUpdate, if_neg (by rw [within]; decide), envBlend]

/-- Settles O57: `rate × time` is a word with a clear sign bit, so the argument of `f_exp` is not above zero, an underflow or
overflow of the product included; the argument of `f_pow10` is finite, and a square root keeps the order to zero. -/
theorem envelopeRanges : Obligations.EnvelopeRanges := by
  refine ⟨fun _ _ _ _ => ⟨rfl, rfl, rfl⟩, fun cfg num => ⟨fun rate decay hr hd => ?coefficients, fun mode e he =>
    zero_fle_level num mode he⟩⟩
  case coefficients =>
    obtain ⟨finite, sign, -⟩ := parts_of_isPositiveFinite hd
    have nan := isNan_of_finite finite
    obtain ⟨attackNan, attackSign⟩ := fmul_of_isPositiveFinite (show isPositiveFinite cHundredth = true by decide) nan sign
    obtain ⟨attackLo, attackHi⟩ := envCoef_unit num hr attackNan attackSign
    obtain ⟨releaseLo, releaseHi⟩ := envCoef_unit num hr nan sign
    exact ⟨attackLo, attackHi, releaseLo, releaseHi⟩

end Sys2Proof.Proofs

/-! ## Proofs about the numerics: the channels' independence, the counters, the comparisons, the basic operations
(49_numerics.md R281 to R290) -/

namespace Sys2Proof.Machine

open Sys2Proof.Config (Cfg)

/-! ### The channels share no state (49 R290) -/

/-- The core with other files of its channels. -/
def Core.withChannels (c : Core) (ch0 ch1 : Channel) : Core := { c with chan0 := ch0, chan1 := ch1 }

/-- The state with other files of its channels. -/
def State.withChannels (s : State) (ch0 ch1 : Channel) : State := s.setCore (s.core.withChannels ch0 ch1)

section
variable (cfg : Cfg) (c : Core) (ch0 ch1 : Channel)

theorem nonLinAll_withChannels (ch : Channel) (vs : List Word) :
    nonLinAll (c.withChannels ch0 ch1) ch vs = nonLinAll c ch vs := by
  have one (ch : Channel) (v : Word) : nonLin (c.withChannels ch0 ch1) ch v = nonLin c ch v := rfl
  induction vs generalizing ch with
  | nil => rfl
  | cons v vs ih => simp only [nonLinAll, one, ih]

/-- The sample path reads the files it is given and the registers, and no other file (49 R290, 60 R315). -/
theorem processChannel_withChannels (n : Nat) (ch : Channel) (x : Word) :
    processChannel cfg (c.withChannels ch0 ch1) n ch x = processChannel cfg c n ch x := by
  have gain (x : Word) : gainClip (c.withChannels ch0 ch1) x = gainClip c x := rfl
  have up (n : Nat) (ch : Channel) (d : Word) : convertUp cfg (c.withChannels ch0 ch1) n ch d = convertUp cfg c n ch d := rfl
  have down (n : Nat) (ch : Channel) (p : List Word) :
      convertDown cfg (c.withChannels ch0 ch1) n ch p = convertDown cfg c n ch p := rfl
  have env (e x : Word) : envUpdate cfg (c.withChannels ch0 ch1) e x = envUpdate cfg c e x := rfl
  simp only [processChannel, gain, up, nonLinAll_withChannels, down, env]
  rfl

theorem frameChannel_withChannels (n : Nat) (ch : Channel) (opd : Word) :
    frameChannel cfg (c.withChannels ch0 ch1) n ch opd = frameChannel cfg c n ch opd := by
  simp only [frameChannel, processChannel_withChannels]
  rfl

end

/-- A FRAME of two channels gives for each what its own sample and files give, channel 1's free values numbered from some `n` on
(log 11). -/
theorem frameWith_withChannels {s : State} (hl : s.core.life = .inblock) (hs : s.core.nch = .stereo) (cfg : Cfg)
    (ch0 ch1 : Channel) (x0 x1 : Word) :
    ∃ n,
      let t := frameWith cfg [x0, x1] (s.withChannels ch0 ch1)
      let r0 := frameChannel cfg s.core s.freeCount ch0 x0
      let r1 := frameChannel cfg s.core n ch1 x1
      (t.core.chan0 = r0.chan ∧ (t.lastResponse.map fun r => r.results[0]?) = some (some r0.res))
        ∧ t.core.chan1 = r1.chan ∧ (t.lastResponse.map fun r => r.results[1]?) = some (some r1.res) := by
  have life : (s.withChannels ch0 ch1).core.life = .inblock := hl
  have channels : (s.withChannels ch0 ch1).core.nch = .stereo := hs
  refine ⟨s.freeCount + (frameChannel cfg s.core s.freeCount ch0 x0).used, ?_⟩
  rw [← frameChannel_withChannels cfg s.core ch0 ch1, ← frameChannel_withChannels cfg s.core ch0 ch1]
  rw [frameWith_of_inblock life, frameChannels_stereo channels, channels]
  simp only [State.lastResponse, List.getLast?_concat]
  exact ⟨⟨rfl, rfl⟩, rfl, rfl⟩

/-! ### The counters (49 R281) -/

/-- The count saturates at the greatest 32-bit number (49 R281). -/
theorem satIncr_toNat (n : BitVec 32) : (satIncr n).toNat = min (n.toNat + 1) (2 ^ 32 - 1) := by
  have max : (BitVec.allOnes 32).toNat = 2 ^ 32 - 1 := BitVec.toNat_allOnes
  have bound := n.isLt
  unfold satIncr
  split
  next full => rw [full, max]; rfl
  next below =>
    have less : n.toNat ≠ 2 ^ 32 - 1 := fun e => below (BitVec.eq_of_toNat_eq (e.trans max.symm))
    rw [BitVec.toNat_add, show (1 : BitVec 32).toNat = 1 from rfl]
    omega

/-! ### Comparisons (49 R285) -/

section
variable {a b : Word}

theorem fle_isNan_left (h : isNan a = true) (b : Word) : fle a b = false := by rw [fle, h]; rfl

theorem fle_isNan_right (h : isNan b = true) (a : Word) : fle a b = false := by
  rw [fle, h, Bool.not_true, Bool.and_false, Bool.false_and]

theorem feq_isNan_left (h : isNan a = true) (b : Word) : feq a b = false := by rw [feq, h]; rfl

theorem feq_isNan_right (h : isNan b = true) (a : Word) : feq a b = false := by
  rw [feq, h, Bool.not_true, Bool.and_false, Bool.false_and]

/-- Between words that are no NaN the three comparisons are those of their places. -/
theorem compare_of_not_nan (ha : isNan a = false) (hb : isNan b = false) :
    flt a b = decide (orderKey a < orderKey b) ∧ fle a b = decide (orderKey a ≤ orderKey b)
      ∧ feq a b = decide (orderKey a = orderKey b) := by
  simp [flt, fle, feq, ha, hb]

/-- A word at a lower place than another is below it, and the other is not below or equal to it. -/
theorem compare_of_place_lt (ha : isNan a = false) (hb : isNan b = false) (h : orderKey a < orderKey b) :
    (flt a b = true ∧ fle a b = true ∧ feq a b = false) ∧ flt b a = false ∧ fle b a = false ∧ feq b a = false := by
  obtain ⟨lt, le, eq⟩ := compare_of_not_nan ha hb
  obtain ⟨lt', le', eq'⟩ := compare_of_not_nan hb ha
  rw [lt, le, eq, lt', le', eq']
  simp only [decide_eq_true_eq, decide_eq_false_iff_not]
  omega

/-- The place of a finite word is that of its value. -/
theorem place_compare_iff (ha : isFinite a = true) (hb : isFinite b = true) :
    (orderKey a < orderKey b ↔ wordVal a < wordVal b) ∧ (orderKey a ≤ orderKey b ↔ wordVal a ≤ wordVal b)
      ∧ (orderKey a = orderKey b ↔ wordVal a = wordVal b) := by
  have va := wordVal_eq_placeVal ha
  have vb := wordVal_eq_placeVal hb
  rw [← placeVal_strictMono.lt_iff_lt, ← placeVal_strictMono.le_iff_le, ← placeVal_strictMono.injective.eq_iff,
    ← va, ← vb]
  exact ⟨Rat.cast_lt, Rat.cast_le, Rat.cast_inj⟩

end

/-- The places of the infinities. -/
theorem orderKey_infWord (neg : Bool) : orderKey (infWord neg) = if neg then -(2047 * 2 ^ 52) else 2047 * 2 ^ 52 := by
  cases neg <;> decide

/-- The finite words lie between the infinities. -/
theorem orderKey_bounds {a : Word} (h : isFinite a = true) : -(2047 * 2 ^ 52) < orderKey a ∧ orderKey a < 2047 * 2 ^ 52 := by
  rw [isFinite_iff] at h
  rw [orderKey_eq]
  split <;> omega

theorem compare_negInf {a : Word} (h : isFinite a = true ∨ a = infWord false) :
    (flt (infWord true) a = true ∧ fle (infWord true) a = true ∧ feq (infWord true) a = false)
      ∧ flt a (infWord true) = false ∧ fle a (infWord true) = false ∧ feq a (infWord true) = false := by
  rcases h with h | rfl
  · exact compare_of_place_lt (isNan_infWord _) (isNan_of_finite h) (by rw [orderKey_infWord]; exact (orderKey_bounds h).1)
  · decide

theorem compare_posInf {a : Word} (h : isFinite a = true ∨ a = infWord true) :
    (flt a (infWord false) = true ∧ fle a (infWord false) = true ∧ feq a (infWord false) = false)
      ∧ flt (infWord false) a = false ∧ fle (infWord false) a = false ∧ feq (infWord false) a = false := by
  rcases h with h | rfl
  · exact compare_of_place_lt (isNan_of_finite h) (isNan_infWord _) (by rw [orderKey_infWord]; exact (orderKey_bounds h).2)
  · decide

/-- A word that is not finite is a NaN or an infinity (49 R285). -/
theorem isFinite_eq_false_iff (a : Word) :
    isFinite a = false ↔ isNan a = true ∨ a = infWord false ∨ a = infWord true := by
  constructor
  · intro h
    cases hu : unpack a with
    | nan => exact .inl (isNan_of_unpack hu)
    | fin s m e => rw [isFinite_of_unpack hu] at h; cases h
    | inf s =>
      obtain ⟨sign, magnitude⟩ := msb_of_unpack_inf hu
      have word : a = infWord s := by
        apply BitVec.eq_of_toNat_eq
        rw [toNat_split a, magnitude, ← sign]
        cases s <;> decide
      cases s
      · exact .inr (.inl word)
      · exact .inr (.inr word)
  · rintro (nan | rfl | rfl)
    · exact Bool.eq_false_iff.2 fun fin => by rw [isNan_of_finite fin] at nan; cases nan
    · exact isFinite_infWord _
    · exact isFinite_infWord _

/-- The bits of |x| (49 R285). -/
theorem getLsbD_fabs (a : Word) : (fabs a).getLsbD 63 = false ∧ ∀ j < 63, (fabs a).getLsbD j = a.getLsbD j := by
  refine ⟨(BitVec.msb_eq_getLsbD_last (fabs a)).symm.trans (fabs_msb a), fun j hj => ?_⟩
  have low := congrArg (BitVec.getLsbD · j) (fabs_setWidth a)
  simpa [BitVec.getLsbD_setWidth, hj] using low

/-! ### The truncated quotient and root (49 R284) -/

/-- A truncated result with a bit that says whether it is exact rounds as the exact result does, where it has bits enough. -/
theorem roundsTo_truncated {x q : ℝ} {neg : Bool} {whole : Prop} [Decidable whole] {N : Nat} {u : Int}
    (hx : x = sgn neg * (q * 2 ^ (u + 1))) (lo : (N : ℝ) ≤ q) (hi : q < N + 1) (hw : whole ↔ q = N)
    (hN : ¬whole → 2 ^ 55 ≤ N) :
    RoundsTo x (round64 neg (2 * N + if whole then 0 else 1) u) := by
  have unit : (0 : ℝ) < 2 ^ u := by positivity
  rw [zpow_add_one₀ (by norm_num)] at hx
  by_cases h : whole
  · rw [if_pos h]
    apply roundsTo_round64
    rw [hx, hw.1 h]
    push_cast
    ring
  · rw [if_neg h]
    have above : (N : ℝ) < q := lt_of_le_of_ne lo fun e => h (hw.2 e.symm)
    exact roundsTo_sticky (hN h) hx (by push_cast; nlinarith) (by push_cast; nlinarith)

/-- The quotient of two finite values is rounded once: 110 more bits are enough for significands of 53. -/
theorem roundsTo_divFinite (neg : Bool) (m1 : Nat) {m2 : Nat} (h2 : m2 ≠ 0) (hm2 : m2 < 2 ^ 53) (e1 e2 : Int) :
    RoundsTo (sgn neg * (m1 * 2 ^ e1 / (m2 * 2 ^ e2))) (divFinite neg m1 e1 m2 e2) := by
  have pos : (0 : ℝ) < m2 := Nat.cast_pos.2 (Nat.pos_of_ne_zero h2)
  refine roundsTo_truncated (q := (m1 * 2 ^ 110 : ℕ) / m2) ?value Nat.cast_div_le ?below ?whole fun inexact => ?bits
  case value =>
    rw [show e1 - e2 - 111 + 1 = e1 - e2 - (110 : ℕ) by push_cast; ring, zpow_sub₀ (by norm_num), zpow_sub₀ (by norm_num),
      zpow_natCast, Nat.cast_mul, Nat.cast_pow, Nat.cast_ofNat]
    field_simp
  case below =>
    rw [div_lt_iff₀ pos]
    exact_mod_cast (Nat.lt_mul_of_div_lt (Nat.lt_succ_self _) (Nat.pos_of_ne_zero h2))
  case whole =>
    rw [← Nat.dvd_iff_mod_eq_zero, Nat.dvd_iff_div_mul_eq, div_eq_iff pos.ne', eq_comm]
    norm_cast
  case bits =>
    have nonzero : m1 ≠ 0 := by rintro rfl; simp at inexact
    rw [Nat.le_div_iff_mul_le (Nat.pos_of_ne_zero h2)]
    calc 2 ^ 55 * m2 ≤ 2 ^ 55 * 2 ^ 53 := Nat.mul_le_mul_left _ hm2.le
      _ ≤ 1 * 2 ^ 110 := by norm_num
      _ ≤ m1 * 2 ^ 110 := Nat.mul_le_mul_right _ (Nat.pos_of_ne_zero nonzero)

/-- The widened significand and the halved exponent of `sqrtFinite` stand for the same value. -/
theorem sqrtFinite_scale (m : Nat) (e : Int) :
    ∃ (k : Nat) (e' : Int), (k = 120 ∨ k = 121) ∧ (m : ℝ) * 2 ^ e = (m * 2 ^ k : ℕ) * (2 ^ e' * 2 ^ e')
      ∧ sqrtFinite m e =
        let r := isqrtFrom (m * 2 ^ k) 90 0
        round64 false (2 * r + if r * r = m * 2 ^ k then 0 else 1) (e' - 1) := by
  have value (k : Nat) (e' : Int) (h : e = k + (e' + e')) : (m : ℝ) * 2 ^ e = (m * 2 ^ k : ℕ) * (2 ^ e' * 2 ^ e') := by
    rw [h, zpow_add₀ (by norm_num), zpow_add₀ (by norm_num), zpow_natCast]
    push_cast
    ring
  by_cases odd : e % 2 = 1
  · exact ⟨121, (e - 121) / 2, .inr rfl, value _ _ (by omega), by simp only [sqrtFinite, if_pos odd]⟩
  · exact ⟨120, (e - 120) / 2, .inl rfl, value _ _ (by omega), by simp only [sqrtFinite, if_neg odd]⟩

/-- The square root of a finite value is rounded once: 120 more bits are enough. -/
theorem roundsTo_sqrtFinite {m : Nat} (h0 : m ≠ 0) (hm : m < 2 ^ 53) (e : Int) :
    RoundsTo (Real.sqrt (m * 2 ^ e)) (sqrtFinite m e) := by
  obtain ⟨k, e', hk, value, run⟩ := sqrtFinite_scale m e
  have least : 2 ^ 120 ≤ m * 2 ^ k :=
    calc 2 ^ 120 ≤ 2 ^ k := Nat.pow_le_pow_right (by norm_num) (by omega)
      _ ≤ m * 2 ^ k := Nat.le_mul_of_pos_left _ (Nat.pos_of_ne_zero h0)
  have greatest : m * 2 ^ k < 2 ^ 180 :=
    calc m * 2 ^ k < 2 ^ 53 * 2 ^ k := Nat.mul_lt_mul_of_pos_right hm (Nat.two_pow_pos _)
      _ ≤ 2 ^ 53 * 2 ^ 121 := Nat.mul_le_mul_left _ (Nat.pow_le_pow_right (by norm_num) (by omega))
      _ < 2 ^ 180 := by norm_num
  rw [run, value]
  generalize m * 2 ^ k = n at least greatest
  have root := isqrtFrom_spec n 90 0 (Nat.zero_le _) (by rw [Nat.zero_add, ← pow_add]; exact greatest)
  generalize isqrtFrom n 90 0 = r at root
  obtain ⟨lo, hi⟩ := root
  refine roundsTo_truncated (q := Real.sqrt n) ?value ?above ?below ?whole fun _ => ?bits
  case value =>
    rw [Real.sqrt_mul (Nat.cast_nonneg n), Real.sqrt_mul_self (by positivity), sub_add_cancel]
    simp [sgn]
  case above => exact Real.le_sqrt_of_sq_le (by rw [sq]; exact_mod_cast lo)
  case below =>
    rw [Real.sqrt_lt' (by positivity), sq]
    exact_mod_cast hi
  case whole =>
    rw [Real.sqrt_eq_iff_mul_self_eq (Nat.cast_nonneg n) (Nat.cast_nonneg r), eq_comm]
    norm_cast
  case bits =>
    by_contra small
    have : (r + 1) * (r + 1) ≤ 2 ^ 55 * 2 ^ 55 := Nat.mul_le_mul (by omega) (by omega)
    omega

/-! ### The operations on finite words -/

section
variable {a b : Word}

theorem msb_fmul (ha : isFinite a = true) (hb : isFinite b = true) : (fmul a b).msb = (a.msb ^^ b.msb) := by
  obtain ⟨s, m, d, hua⟩ := unpack_of_finite ha
  obtain ⟨t, n, e, hub⟩ := unpack_of_finite hb
  rw [fmul_finite hua hub, round64_msb, (unpack_fin hua).1, (unpack_fin hub).1]

/-- A quotient by a word that is no zero is rounded once and has the signs of both together. -/
theorem roundsTo_fdiv (ha : isFinite a = true) (hb : isFinite b = true) (h : wordVal b ≠ 0) :
    RoundsTo (wordVal a / wordVal b) (fdiv a b) ∧ (fdiv a b).msb = (a.msb ^^ b.msb) := by
  obtain ⟨s, m, d, hua⟩ := unpack_of_finite ha
  obtain ⟨t, n, e, hub⟩ := unpack_of_finite hb
  have nonzero : n ≠ 0 := mt (wordVal_zero_iff hub).2 h
  have quotient : sgn s * (m * 2 ^ d) / (sgn t * (n * 2 ^ e)) = sgn (s ^^ t) * (m * 2 ^ d / (n * 2 ^ e)) := by
    have sign : sgn s / sgn t = sgn (s ^^ t) := by cases s <;> cases t <;> norm_num [sgn]
    rw [← sign, mul_div_mul_comm]
  rw [fdiv_fin_fin hua hub, if_neg nonzero, wordVal_unpack hua, wordVal_unpack hub, quotient, ← (unpack_fin hua).1,
    ← (unpack_fin hub).1]
  exact ⟨roundsTo_divFinite _ m nonzero (mant_lt_of_unpack hub) d e, round64_msb _ _ _⟩

/-- Division by a zero (49 R284). -/
theorem fdiv_by_zero (ha : isFinite a = true) (hb : isFinite b = true) (h : wordVal b = 0) :
    fdiv a b = if wordVal a = 0 then nanWord .div a b else infWord (a.msb ^^ b.msb) := by
  obtain ⟨s, m, d, hua⟩ := unpack_of_finite ha
  obtain ⟨t, n, e, hub⟩ := unpack_of_finite hb
  rw [fdiv_fin_fin hua hub, if_pos ((wordVal_zero_iff hub).1 h), ← (unpack_fin hua).1, ← (unpack_fin hub).1]
  exact if_congr (wordVal_zero_iff hua).symm rfl rfl

/-- The root of a zero is that zero (49 R284). -/
theorem fsqrt_of_zero (ha : isFinite a = true) (h : wordVal a = 0) : fsqrt a = a := by
  obtain ⟨s, m, e, hu⟩ := unpack_of_finite ha
  have zero := (wordVal_zero_iff hu).1 h
  have word := round64_unpack hu
  rw [zero, round64_zero] at word
  rw [fsqrt_fin hu, if_pos zero, word]

/-- A value is below zero exactly where the sign bit is set and the significand is not zero. -/
theorem wordVal_neg_iff {s : Bool} {m : Nat} {e : Int} (hu : unpack a = .fin s m e) :
    wordVal a < 0 ↔ s = true ∧ m ≠ 0 := by
  have unit : (0 : ℝ) < 2 ^ e := by positivity
  rw [← Rat.cast_lt (K := ℝ), wordVal_unpack hu, Rat.cast_zero]
  cases s
  · simp only [sgn, Bool.false_eq_true, if_false, one_mul, false_and, iff_false, not_lt]
    positivity
  · simp [sgn, unit, Nat.pos_iff_ne_zero]

theorem roundsTo_fsqrt (ha : isFinite a = true) (h : 0 ≤ wordVal a) : RoundsTo (Real.sqrt (wordVal a)) (fsqrt a) := by
  obtain ⟨s, m, e, hu⟩ := unpack_of_finite ha
  by_cases zero : m = 0
  · rw [fsqrt_fin hu, if_pos zero, (wordVal_zero_iff hu).2 zero, ← round64_zero s 0]
    exact roundsTo_round64 (by simp)
  · have positive : s = false := Bool.eq_false_iff.2 fun neg => not_lt_of_ge h ((wordVal_neg_iff hu).2 ⟨neg, zero⟩)
    subst positive
    rw [fsqrt_fin hu, if_neg zero, wordVal_unpack hu]
    simpa [sgn] using roundsTo_sqrtFinite zero (mant_lt_of_unpack hu) e

theorem isNan_fsqrt_of_neg (ha : isFinite a = true) (h : wordVal a < 0) : isNan (fsqrt a) = true := by
  obtain ⟨s, m, e, hu⟩ := unpack_of_finite ha
  obtain ⟨neg, nonzero⟩ := (wordVal_neg_iff hu).1 h
  rw [fsqrt_fin hu, if_neg nonzero, if_pos neg]
  exact isNan_nanWord _ _ _

/-- An exact zero sum is +0.0 but for two negative zeros (49 R284). -/
theorem fadd_of_sum_zero (ha : isFinite a = true) (hb : isFinite b = true) (h : wordVal a + wordVal b = 0) :
    fadd a b = zeroWord (a.msb && b.msb) := by
  obtain ⟨s, m, d, hua⟩ := unpack_of_finite ha
  obtain ⟨t, n, e, hub⟩ := unpack_of_finite hb
  have unit : (2 : ℝ) ^ min d e ≠ 0 := by positivity
  have sum : alignTo (min d e) s m d + alignTo (min d e) t n e = 0 := by
    have real : (wordVal a : ℝ) + wordVal b = 0 := by exact_mod_cast h
    rw [wordVal_unpack hua, wordVal_unpack hub, ← alignTo_val _ s m d (min_le_left d e),
      ← alignTo_val _ t n e (min_le_right d e),
      ← add_mul, mul_eq_zero, or_iff_left unit] at real
    exact_mod_cast real
  rw [fadd_finite hua hub, addFinite]
  simp only [if_pos sum]
  rw [(unpack_fin hua).1, (unpack_fin hub).1]

theorem fsub_of_difference_zero (ha : isFinite a = true) (hb : isFinite b = true) (h : wordVal a - wordVal b = 0) :
    fsub a b = zeroWord (a.msb && !b.msb) := by
  have negated : wordVal (fneg b) = -wordVal b := by exact_mod_cast wordVal_fneg b hb
  rw [fsub, fadd_of_sum_zero ha (by rw [isFinite_fneg, hb]) (by rw [negated, ← sub_eq_add_neg, h]), fneg_msb]

end

/-! ### The operations on infinities and NaNs -/

section
variable {a : Word}

/-- An infinity and a finite word, added or subtracted either way (49 R284). -/
theorem fadd_infWord_finite (ha : isFinite a = true) (neg : Bool) :
    fadd (infWord neg) a = infWord neg ∧ fadd a (infWord neg) = infWord neg
      ∧ fsub (infWord neg) a = infWord neg ∧ fsub a (infWord neg) = infWord (!neg) := by
  have sum {w : Word} (hw : isFinite w = true) (neg : Bool) :
      fadd (infWord neg) w = infWord neg ∧ fadd w (infWord neg) = infWord neg := by
    obtain ⟨s, m, e, hu⟩ := unpack_of_finite hw
    exact ⟨fadd_inf_fin (unpack_infWord _) hu, fadd_fin_inf hu (unpack_infWord _)⟩
  refine ⟨(sum ha neg).1, (sum ha neg).2, (sum (by rw [isFinite_fneg, ha]) neg).1, ?_⟩
  rw [fsub, fneg_infWord]
  exact (sum ha _).2

/-- An infinity times a finite word (49 R284). -/
theorem fmul_infWord_finite (ha : isFinite a = true) (neg : Bool) :
    fmul (infWord neg) a = (if wordVal a = 0 then nanWord .mul (infWord neg) a else infWord (neg ^^ a.msb))
      ∧ fmul a (infWord neg) = (if wordVal a = 0 then nanWord .mul a (infWord neg) else infWord (neg ^^ a.msb)) := by
  obtain ⟨s, m, e, hu⟩ := unpack_of_finite ha
  rw [fmul_inf_fin (unpack_infWord _) hu, fmul_fin_inf hu (unpack_infWord _), ← (unpack_fin hu).1, Bool.xor_comm s]
  exact ⟨if_congr (wordVal_zero_iff hu).symm rfl rfl, if_congr (wordVal_zero_iff hu).symm rfl rfl⟩

/-- An infinity divided by a finite word, and a finite word by an infinity (49 R284). -/
theorem fdiv_infWord_finite (ha : isFinite a = true) (neg : Bool) :
    fdiv (infWord neg) a = infWord (neg ^^ a.msb) ∧ fdiv a (infWord neg) = zeroWord (neg ^^ a.msb) := by
  obtain ⟨s, m, e, hu⟩ := unpack_of_finite ha
  rw [fdiv_inf_fin (unpack_infWord _) hu, fdiv_fin_inf hu (unpack_infWord _), ← (unpack_fin hu).1, Bool.xor_comm s]
  exact ⟨rfl, rfl⟩

theorem isNan_fsqrt_of_isNan (h : isNan a = true) : isNan (fsqrt a) = true := by
  rw [fsqrt, unpack_of_isNan h]
  exact isNan_nanWord _ _ _

end

/-- Two infinities: of the same sign they have a sum and no difference, of opposite signs a difference and no sum (49 R284). -/
theorem fadd_infWord_infWord (n : Bool) :
    fadd (infWord n) (infWord n) = infWord n ∧ isNan (fadd (infWord n) (infWord (!n))) = true := by
  rw [fadd_inf_inf (unpack_infWord _) (unpack_infWord _), fadd_inf_inf (unpack_infWord _) (unpack_infWord _), if_pos rfl,
    if_neg (by cases n <;> decide)]
  exact ⟨rfl, isNan_nanWord _ _ _⟩

end Sys2Proof.Machine

namespace Sys2Proof.Proofs

open Sys2Proof Sys2Proof.Machine

/-- Settles O34: neither channel's sample path reads the other's files; channel 1's free values are numbered after channel 0's,
and where it uses none it does not depend on that number. -/
theorem channelsIndependent : Obligations.ChannelsIndependent := by
  intro cfg s x0 x1 y other hl hs t u0 u1 r1
  obtain ⟨n, ⟨files0, res0⟩, files1, res1⟩ := frameWith_withChannels hl hs cfg s.core.chan0 s.core.chan1 x0 x1
  obtain ⟨_, ⟨files0', res0'⟩, -⟩ := frameWith_withChannels hl hs cfg s.core.chan0 other x0 y
  obtain ⟨n', -, files1', res1'⟩ := frameWith_withChannels hl hs cfg other s.core.chan1 y x1
  refine ⟨⟨files0.trans files0'.symm, res0.trans res0'.symm⟩, fun right finite => ?_⟩
  have unnumbered : frameChannel cfg s.core n s.core.chan1 x1 = frameChannel cfg s.core n' s.core.chan1 x1 :=
    (frameChannel_framePath right finite n).trans (frameChannel_framePath right finite n').symm
  rw [unnumbered] at files1 res1
  exact ⟨files1.trans files1'.symm, res1.trans res1'.symm⟩

/-- Settles O35: FRAME counts by `satIncr`, BLKEND by the addition of the width, GETLAT shows a `LAT` that fits the word. -/
theorem counters : Obligations.Counters := by
  refine ⟨fun samples s t hl h => ?frames, fun s t hl h => ?records, fun s t hlat h => ?latency⟩
  case frames =>
    rw [exec_frame, frameWith_of_inblock hl] at h
    cases h
    exact satIncr_toNat _
  case records =>
    cases h
    rcases blkend_cases s with ⟨-, core, -⟩ | ⟨outside, -⟩
    · rw [core]; exact BitVec.toNat_add _ 1
    · exact absurd hl outside
  case latency =>
    cases h
    exact ⟨_, lastResponse_respond _ _ _, by rw [BitVec.toNat_ofNat, Nat.mod_eq_of_lt hlat]⟩

/-- Settles O59: every comparison goes by the places of two words that are no NaN, the finite ones lie between the infinities,
and among them the place is strictly monotone in the value. -/
theorem comparisonsFollowValues : Obligations.ComparisonsFollowValues := by
  refine ⟨fun a b h => ?nan, by decide, fun a b ha hb => ?finite, fun a h => ?below, fun a h => ?above,
    by decide, getLsbD_fabs, isFinite_eq_false_iff⟩
  case nan =>
    rcases h with h | h
    · exact ⟨flt_isNan_left h b, fle_isNan_left h b, feq_isNan_left h b⟩
    · exact ⟨flt_isNan_right h a, fle_isNan_right h a, feq_isNan_right h a⟩
  case finite =>
    obtain ⟨lt, le, eq⟩ := compare_of_not_nan (isNan_of_finite ha) (isNan_of_finite hb)
    obtain ⟨ltVal, leVal, eqVal⟩ := place_compare_iff ha hb
    rw [lt, le, eq, decide_eq_true_iff, decide_eq_true_iff, decide_eq_true_iff]
    exact ⟨ltVal, leVal, eqVal⟩
  case below =>
    obtain ⟨⟨lt, le, eq⟩, rest⟩ := compare_negInf h
    exact ⟨lt, le, eq, rest⟩
  case above =>
    obtain ⟨⟨lt, le, eq⟩, rest⟩ := compare_posInf h
    exact ⟨lt, le, eq, rest⟩

/-- Settles O60: on finite words each operation rounds its exact result, the quotient and the root from a truncated one with
bits enough; the rest goes by the class and the sign of the operands. -/
theorem basicOperationsRoundOnce : Obligations.BasicOperationsRoundOnce := by
  refine ⟨fun a b ha hb => ?finite, fun a neg ha => ?infinity, fun n m => ?infinities, fun a b h => ?nan,
    fun a h => isNan_fsqrt_of_isNan h⟩
  case finite =>
    refine ⟨roundsTo_fadd ha hb, roundsTo_fsub ha hb, roundsTo_fmul ha hb, msb_fmul ha hb, roundsTo_fdiv ha hb,
      roundsTo_fsqrt ha, fadd_of_sum_zero ha hb, fsub_of_difference_zero ha hb, fun zero nonzero => ?_, fun zero zero' => ?_, fsqrt_of_zero ha,
      isNan_fsqrt_of_neg ha⟩
    · rw [fdiv_by_zero ha hb zero, if_neg nonzero]
    · rw [fdiv_by_zero ha hb zero, if_pos zero']
      exact isNan_nanWord _ _ _
  case infinity =>
    obtain ⟨sumLeft, sumRight, diffLeft, diffRight⟩ := fadd_infWord_finite ha neg
    obtain ⟨left, right⟩ := fmul_infWord_finite ha neg
    refine ⟨sumLeft, sumRight, diffLeft, diffRight, fun nonzero => ?_, fun zero => ?_, fdiv_infWord_finite ha neg⟩
    · rw [left, right, if_neg nonzero, if_neg nonzero]
      exact ⟨rfl, rfl⟩
    · rw [left, right, if_pos zero, if_pos zero]
      exact ⟨isNan_nanWord _ _ _, isNan_nanWord _ _ _⟩
  case infinities =>
    obtain ⟨same, opposite⟩ := fadd_infWord_infWord n
    rw [fsub, fsub, fneg_infWord, fneg_infWord, Bool.not_not, fdiv_inf_inf (unpack_infWord n) (unpack_infWord m),
      fsqrt_inf (unpack_infWord false), fsqrt_inf (unpack_infWord true)]
    exact ⟨same, opposite, same, opposite, fmul_inf_inf (unpack_infWord _) (unpack_infWord _), isNan_nanWord _ _ _, rfl,
      isNan_nanWord _ _ _⟩
  case nan => exact ⟨fadd_isNan h, fadd_isNan (by rwa [isNan_fneg]), fmul_isNan h, fdiv_isNan h⟩

end Sys2Proof.Proofs

/-! ## Proofs about the exceptions: refusals, the request line, the Resampler's fault (60_exceptions.md R300 to R306) -/

namespace Sys2Proof.Machine

open Sys2Proof.Config (Cfg RsState)

/-! ### Refusals (60 R301, R302) and the request line (60 R306) -/

/-- What the step does with a command whose operand words are there: it runs it or refuses it as illegal, its words consumed
(30 R80, R91, R92). -/
theorem step_command_cases {s : State} {cw : CmdWord} {rest : List Move} (hm : s.port.moves = .command cw :: rest)
    (hn : s.operandsFor cw ≤ s.port.operands.length) :
    (∃ i, decode cw (s.port.operands.take (s.operandsFor cw)) = .ok i
        ∧ step s = exec i (s.popCommand (s.operandsFor cw)))
      ∨ step s = .next ((s.popCommand (s.operandsFor cw)).refuse .eIllegal) := by
  cases hd : decode cw (s.port.operands.take (s.operandsFor cw)) with
  | ok i => exact .inl ⟨i, rfl, by rw [step, fetch_of_decode hm hn hd]⟩
  | error e => exact .inr (by simp only [step, fetch, hm, if_neg (Nat.not_lt.2 hn), hd, State.refuseIllegal])

/-- The codes that set `PROTO` (60 R301). -/
theorem setsProto_eq (code : RespCode) : code.setsProto = (code == .eIllegal || code == .eState) := by cases code <;> rfl

/-- A response that was added is the one the state shows last. -/
theorem lastCode_of_responses {t : State} {before : List Response} {code : RespCode} {results : List Word}
    (h : t.port.responses = before ++ [⟨code, results⟩]) : t.lastCode = some code := by
  rw [State.lastCode, State.lastResponse, h, List.getLast?_concat]; rfl

/-- A command that is refused in a state that accepts it is one that an operand or the configuration can have refused
(60 R300, R302). -/
theorem lastCode_eq_ok_of_accepts {i : Instr} {s t : State} (h : exec i s = .next t) (ha : accepts i s.core.life = true)
    (hi : i.op ∉ refusable) : t.lastCode = some .ok := by
  rcases exec_cases h with ⟨code, -, -, -, cell, operand⟩ | ⟨ok, -⟩
  · have notState : code ≠ .eState := fun e => by rw [cell.1 e] at ha; cases ha
    exact absurd (operand notState) hi
  · exact ok

/-- RESET's one command word (30 R86). -/
theorem word_of_decode_reset {cw : CmdWord} {opds : List Word} (h : decode cw opds = .ok .reset) : cw = 0x01000000 := by
  have word : encode .reset = (0x01000000, []) := by decide
  exact congrArg Prod.fst ((Proofs.encodeOfDecode cw opds .reset h).1.symm.trans word)

/-- `LATCHG` after a command that answers `OK`: BLKBEGIN adds the difference of the modes, PREPARE and RESET clear it
(40 R101, R102, R108). -/
theorem latchg_of_coreAfter {i : Instr} {s : State} {c : Core} (h : CoreAfter s c i) :
    c.latchg =
      if i = .reset ∨ i.op = .prepare then false
      else if i = .blkbegin then s.core.latchg || s.core.modeDiffers else s.core.latchg := by
  cases i with
  | prepare => obtain ⟨_, _, -, -, rfl⟩ := h; rfl
  | _ => cases h; rfl

/-! ### The Resampler's fault (60 R305) -/

/-- The sticky fault of one channel is that of its sample path, whether its values are finite or not (60 R305). -/
theorem frameChannel_rsFault (cfg : Cfg) (c : Core) (n : Nat) (ch : Channel) (opd : Word) :
    (frameChannel cfg c n ch opd).rsFault = (processChannel cfg c n ch (sampleIn c.fmt opd)).rsFault := by
  obtain ⟨r, rfl, fault, -⟩ := frameChannel_cases cfg c n ch opd
  exact fault

/-- Without the Resampler no conversion faults (44 R212). -/
theorem rsFault_of_cascade {c : Core} (h : c.usesResampler = false) (cfg : Cfg) (n : Nat) (ch : Channel) (opd : Word) :
    (frameChannel cfg c n ch opd).rsFault = false := by
  rw [frameChannel_rsFault, processChannel, (convertUp_cascade cfg c n ch h _).fault,
    (convertDown_cascade cfg c _ _ h _ rfl rfl).fault]
  rfl

/-- A call faults exactly where the answer has a wrong count, an absent one answering nothing (44 R211, log 14). -/
theorem resample_fault_iff (cfg : Cfg) (n : Nat) (inst : Option RsState) (input : List Word) {want : Nat} (hw : want ≠ 0) :
    (resample cfg n inst input want).fault = true ↔ (rsAnswer cfg inst input).1.length ≠ want := by
  by_cases right : (rsAnswer cfg inst input).1.length = want
  · rw [resample_of_rightCount cfg n hw right]
    simp [right]
  · rcases resample_cases cfg n inst input want with ⟨st, rfl, count, -⟩ | ⟨-, -, fault⟩
    · exact absurd count right
    · rw [fault]
      simp [right]

/-- The two calls of the Resampler in a channel's sample path answer a wrong count: the up one, or the down one on what the
non-linearity makes of the up one's answer (44 R211). -/
def WrongCounts (cfg : Cfg) (c : Core) (ch : Channel) (d : Word) : Prop :=
  (rsAnswer cfg ch.rsUp [d]).1.length ≠ 2 ^ c.active.os.toNat
    ∨ (rsAnswer cfg ch.rsDn (shapePath c ch (rsAnswer cfg ch.rsUp [d]).1).out).1.length ≠ 1

/-- In LIN mode with f > 1 a channel faults exactly where one of its calls answers a wrong count. With a wrong up count it does
so whatever the down call answers to the free values. -/
theorem rsFault_iff_wrongCounts {c : Core} (hp : c.active.phase = .lin) (h0 : c.active.os ≠ 0) (cfg : Cfg) (n : Nat)
    (ch : Channel) (opd : Word) :
    (frameChannel cfg c n ch opd).rsFault = true ↔ WrongCounts cfg c ch (gainClip c (sampleIn c.fmt opd)) := by
  rw [frameChannel_rsFault, WrongCounts, processChannel]
  generalize gainClip c (sampleIn c.fmt opd) = d
  simp only [Bool.or_eq_true, convertUp_lin hp h0, convertDown_lin hp h0]
  rw [resample_fault_iff cfg _ _ _ (NeZero.ne _), resample_fault_iff cfg _ _ _ one_ne_zero]
  refine or_congr_right' fun right => ?_
  rw [resample_of_rightCount cfg n (NeZero.ne _) (not_not.1 right)]
  have shaped := nonLinAll_withUp c ch.hup (rsAnswer cfg ch.rsUp [d]).2 (rsAnswer cfg ch.rsUp [d]).1 ch
  simp only [Channel.withUp] at shaped
  obtain ⟨-, -, -, -, -, -, rsDn⟩ := nonLinAll_frame c (rsAnswer cfg ch.rsUp [d]).1 ch
  rw [shaped, rsDn, ← nonLinAll_path]
  rfl

theorem frameCore_rsfault_eq_true (c : Core) (r : ChannelResult × ChannelResult) :
    (frameCore c r).rsfault = true ↔ c.rsfault = true ∨ r.1.rsFault = true ∨ r.2.rsFault = true := by
  rw [frameCore_rsfault, Bool.or_eq_true, Bool.or_eq_true, or_assoc]

end Sys2Proof.Machine

namespace Sys2Proof.Proofs

open Sys2Proof Sys2Proof.Machine

/-- Settles O17: whatever refuses, the step or the command, it is the one operation `refuse`; and of all moves the pin and RESET
alone clear `PROTO`. -/
theorem refusalsArePrecise : Obligations.RefusalsArePrecise := by
  refine ⟨fun s t cw rest code results hm hn hstep hresp hcode => ?refused, fun s t hstep before after => ?cleared, rfl⟩
  case refused =>
    obtain ⟨code', rfl⟩ : ∃ code', t = (s.popCommand (s.operandsFor cw)).refuse code' := by
      rcases step_command_cases hm hn with ⟨i, -, run⟩ | illegal
      · rcases exec_cases (run.symm.trans hstep) with ⟨code', e, -⟩ | ⟨ok, -⟩
        · exact ⟨code', e⟩
        · rw [lastCode_of_responses hresp] at ok
          exact absurd (Option.some.inj ok) hcode
      · exact ⟨_, (Host.Outcome.next.inj (illegal.symm.trans hstep)).symm⟩
    have same : (⟨code', []⟩ : Response) = ⟨code, results⟩ := List.singleton_inj.1 (List.append_cancel_left hresp)
    cases same
    refine ⟨rfl, ?_, rfl, rfl⟩
    rw [Bool.or_assoc, ← setsProto_eq]
    rfl
  case cleared =>
    unfold step at hstep
    rcases fetch_cases s with e | ⟨_, hm, e⟩ | ⟨_, -, e⟩ | ⟨cw, _, i, hm, -, hd, e⟩ | ⟨_, _, _, -, -, -, e⟩ <;>
      rw [e] at hstep
    · cases hstep; exact absurd (before.symm.trans after) (by decide)
    · rw [hm]; exact .inr rfl
    · cases hstep; exact absurd (before.symm.trans after) (by decide)
    · obtain rfl : i = .reset := (exec_statusChange hstep).proto.of_clear before after
      rw [hm, word_of_decode_reset hd]
      exact .inl rfl
    · cases hstep
      rw [State.refuseIllegal, refuse_proto, Bool.or_eq_false_iff] at after
      exact absurd (before.symm.trans after.1) (by decide)

/-- Settles O18: none of these is refused by an operand, and the first are accepted in every state. -/
theorem neverRefused : Obligations.NeverRefused := by
  have always : ∀ op ∈ [Op.reset, .setclip, .setsplit, .setos, .setphase, .setenvm, .getlat, .getstat, .getmeter],
      op ∉ refusable := by decide
  have allowed : ∀ op ∈ [Op.frame, .blkbegin, .blkend, .start, .stop], op ∉ refusable := by decide
  refine ⟨fun i s hi => ?_, fun i s hi ha => ?_⟩
  all_goals obtain ⟨t, ht⟩ := exec_next i s
  · have ha : accepts i s.core.life = true := by
      cases i with
      | reset | setclip | setsplit | setos | setphase | setenvm | getlat | getstat | getmeter => rfl
      | _ => simp [Instr.op] at hi
    exact ⟨t, ht, lastCode_eq_ok_of_accepts ht ha (always _ hi)⟩
  · exact ⟨t, ht, lastCode_eq_ok_of_accepts ht ha (allowed _ hi)⟩

/-- Settles O19: a refusal keeps `LATCHG`, RESET and an accepted BLKBEGIN are never refused, and a command that completes leaves
the bit of its rule. -/
theorem requestLine : Obligations.RequestLine := by
  intro i s t h
  refine ⟨(status_layout t.core).2.1.symm, ?_⟩
  rw [State.irqLatchg, State.irqLatchg]
  rcases exec_cases h with ⟨code, rfl, hne, -⟩ | ⟨ok, ha, after⟩
  · have refused : (s.refuse code).lastCode ≠ some .ok := by rw [lastCode_refuse]; simpa using hne
    rw [if_neg, if_neg]
    · rfl
    · rintro ⟨rfl, hl⟩
      exact refused (lastCode_eq_ok_of_accepts h (by rw [hl]; rfl) (by decide))
    · rintro (rfl | ⟨-, ok⟩)
      · exact refused (lastCode_eq_ok_of_accepts h rfl (by decide))
      · exact refused ok
  · have differs : s.core.modeDiffers
        = decide (s.core.pending.os ≠ s.core.active.os ∨ s.core.pending.phase ≠ s.core.active.phase) := by
      rw [Bool.eq_iff_iff, modeDiffers_iff, decide_eq_true_iff]
    have active : i = .blkbegin ↔ i = .blkbegin ∧ s.core.life = .active :=
      ⟨fun e => ⟨e, by subst e; exact of_decide_eq_true ha⟩, And.left⟩
    rw [latchg_of_coreAfter after, differs]
    simp only [ok, and_true, ← active]

/-- Settles O36: without the Resampler no conversion faults; with it `RSFAULT` goes by the channels in use, and a channel by its
two calls. -/
theorem resamplerFaultRaised : Obligations.ResamplerFaultRaised := by
  refine ⟨fun cfg samples s h => ?cascade, fun cfg samples s hl hp h0 => ?resampler⟩
  case cascade =>
    have off := (usesResampler_eq_false_iff s.core).2 h
    rcases frameWith_cases cfg samples s with ⟨-, r, rfl, core, -⟩ | ⟨-, refused⟩
    · obtain ⟨first, second⟩ := frameChannels_cases cfg s.core s.freeCount samples
      have clear : (frameChannels cfg s.core s.freeCount samples).2.rsFault = false := by
        rcases second with ⟨-, e⟩ | ⟨-, n, e⟩
        · rw [e]; rfl
        · rw [e, rsFault_of_cascade off]
      rw [core, frameCore_rsfault, first, rsFault_of_cascade off, clear, Bool.or_false, Bool.or_false]
    · rw [refused, refuse_rsfault]
  case resampler =>
    intro wrong
    refine ⟨?_, by rw [frameWith_of_inblock hl]; exact lastCode_finish s _ _⟩
    obtain ⟨first, second⟩ := frameChannels_cases cfg s.core s.freeCount samples
    obtain ⟨-, -, -, -, -, -, -, -, bit, -⟩ := status_layout (frameWith cfg samples s).core
    have channel (n : Nat) (ch : Channel) (opd : Word) :
        (frameChannel cfg s.core n ch opd).rsFault = true ↔ wrong ch opd := rsFault_iff_wrongCounts hp h0 cfg n ch opd
    rw [bit, frameWith_of_inblock hl, frameCore_rsfault_eq_true, first, channel]
    refine or_congr_right (or_congr_right ?_)
    rcases second with ⟨mono, e⟩ | ⟨stereo, n, e⟩
    · rw [e, mono]; simp [idleChannel]
    · rw [e, channel, stereo]; simp

end Sys2Proof.Proofs

/-! ## Proofs about reset and hazards: the answered commands, the waiting core, the reset pin and the meter observer
(70_reset_and_hazards.md R330 to R341) -/

namespace Sys2Proof.Machine

/-- Every command, completed or refused, adds one response to the port and changes nothing else of it (30 R80, 70 R341). -/
theorem exec_port {i : Instr} {s t : State} (h : exec i s = .next t) :
    ∃ r, t.port = { s.port with responses := s.port.responses ++ [r] } := by
  cases i with
  | prepare nch fmt rate =>
    cases h
    rcases prepareWith_cases Config.cfg nch fmt rate s with ⟨_, -, e⟩ | ⟨_, -, -, e⟩ | ⟨_, _, -, -, e⟩ <;>
      exact ⟨_, by rw [e]; rfl⟩
  | start => cases h; rcases startWith_cases Config.cfg s with ⟨-, e⟩ | ⟨-, e⟩ <;> exact ⟨_, by rw [e]; rfl⟩
  | stop => cases h; rcases stopWith_cases Config.cfg s with ⟨-, e⟩ | ⟨-, e⟩ <;> exact ⟨_, by rw [e]; rfl⟩
  | blkbegin => rcases execBlkbegin_cases h with ⟨-, rfl⟩ | ⟨-, rfl⟩ <;> exact ⟨_, rfl⟩
  | frame samples =>
    cases h
    rcases frameWith_cases Config.cfg samples s with ⟨-, _, -, -, e, -⟩ | ⟨-, e⟩ <;> exact ⟨_, by rw [e]; rfl⟩
  | blkend =>
    cases h
    rcases blkendWith_cases Config.cfg s with ⟨-, -, e, -⟩ | ⟨-, e⟩ <;> exact ⟨_, by rw [e]; rfl⟩
  | setig | setog | setmix | setcurve | setxlo | setxhi | setdecay =>
    rcases setRanged_cases h with ⟨-, rfl⟩ | ⟨-, rfl⟩ <;> exact ⟨_, rfl⟩
  | _ => cases h; exact ⟨_, rfl⟩

/-- What the port holds after a move without operand words is taken from its head. -/
theorem popMove_of_moves {s : State} {m : Move} {rest : List Move} (hm : s.port.moves = m :: rest) :
    s.popMove = { s with port := { s.port with moves := rest } } := by
  rw [State.popMove, hm, List.tail_cons]

end Sys2Proof.Machine

namespace Sys2Proof.Proofs

open Sys2Proof Sys2Proof.Machine

/-- Settles O9: a command is run or refused as illegal, and either adds one response to the port with its words consumed. -/
theorem everyCommandAnswered : Obligations.EveryCommandAnswered := by
  refine ⟨fun s => ?next, fun s cw rest hm hn => ?answered⟩
  case next =>
    rw [step]
    cases fetch s with
    | run i s' => exact exec_next i s'
    | _ => exact ⟨_, rfl⟩
  case answered =>
    have popped := popCommand_of_moves hm (s.operandsFor cw)
    rcases step_command_cases hm hn with ⟨i, -, run⟩ | refused
    · obtain ⟨t, ht⟩ := exec_next i (s.popCommand (s.operandsFor cw))
      obtain ⟨r, port⟩ := exec_port ht
      exact ⟨t, r, run.trans ht, by rw [port, popped]⟩
    · exact ⟨_, _, refused, by rw [popped]; rfl⟩

/-- Settles O10: the fetch waits in both cases. -/
theorem waitsForTheHost : Obligations.WaitsForTheHost :=
  ⟨fun _ hm => by simp only [step, fetch, hm], fun _ _ _ hm hn => by simp only [step, fetch, hm, if_pos hn]⟩

/-- Settles O11: the fetch hands over the pulse or the read, and neither adds a response. -/
theorem pinAndObserver : Obligations.PinAndObserver := by
  refine ⟨fun s rest hm => ?pin, fun s rest hm => ?observer⟩
  case pin =>
    have fetched : fetch s = .pin s.popMove := by simp only [fetch, hm]
    rw [step, fetched, popMove_of_moves hm]
    rfl
  case observer =>
    have fetched : fetch s = .observe s.popMove := by simp only [fetch, hm]
    rw [step, fetched, popMove_of_moves hm]
    rfl

end Sys2Proof.Proofs
